-- ==== Sys2Proof/Word.lean ====
section
/-! DEFINITION. The word types of the block (00_scope.md R12): a byte is an unsigned 8-bit value, `u16` and `u32` are
unsigned 16- and 32-bit values. No signed value exists in this block. -/

namespace Sys2Proof

/-- An unsigned 8-bit value (R12). -/
abbrev Byte := BitVec 8

/-- An unsigned 16-bit value (R12): `addr` and `len` of the host command port (R94). -/
abbrev Half := BitVec 16

/-- An unsigned 32-bit value (R12): the diagnostic counter (R35). -/
abbrev Word := BitVec 32

end Sys2Proof
end

