-- ==== Sys2Proof/Config.lean ====
section
/-! DEFINITION. The parameters of a block instance (00_scope.md R8, R9) and the one free value of the model. Parameters
that R8 lets vary are fields of `Config`; a `Config` is held by the state, no step changes it, and statements hold for
every admissible one. Parameters with a single admissible value are constants. -/

namespace Sys2Proof

/-- What a partial response at the deadline yields (R8 `PARTIAL_FRAME_OUTCOME`, R208). -/
inductive PartialFrameOutcome where
  | timeout
  | checksumMismatch
deriving DecidableEq, Repr

/-- The parameters of R8, each fixed for the life of an instance. The default values are those of R8's "value" column,
and its simulator defaults where that column gives one beside OPEN (log 1); the three it gives no value for are the
model's choice (log 24). -/
structure Config where
  /-- `TX_BREAK_US`: length of the break sent. -/
  txBreakUs : Nat := 92
  /-- `TX_MAB_US`: length of the mark-after-break sent. -/
  txMabUs : Nat := 12
  /-- `TX_INTERSLOT_US`: mark between two bytes sent. -/
  txInterslotUs : Nat := 0
  /-- `RX_BREAK_MIN_US`: shortest low run that is a break. -/
  rxBreakMinUs : Nat := 92
  /-- `RX_MAB_MIN_US`: shortest valid mark-after-break. -/
  rxMabMinUs : Nat := 12
  /-- `ACCEPT_ZERO_SLOT_FRAME`. -/
  acceptZeroSlotFrame : Bool := false
  /-- `ENUM_N`: last index an enumeration pings. -/
  enumN : Nat := 8
  /-- `TIMEOUT_MS`: response window of one attempt. -/
  timeoutMs : Nat := 50
  /-- `RETRY_COUNT`: retries after a Timeout. -/
  retryCount : Nat := 1
  /-- `STALE_THRESHOLD`: consecutive Timeouts that make an index stale. -/
  staleThreshold : Nat := 3
  /-- `PING_CODE`: command code of an enumeration ping. -/
  pingCode : Byte := 0x00#8
  /-- `ST_SUCCESS`: the unit status that means success. -/
  stSuccess : Byte := 0x00#8
  /-- `PARTIAL_FRAME_OUTCOME`. -/
  partialFrameOutcome : PartialFrameOutcome := .timeout
  /-- `CHAIN_LINE_FORMAT` (OPEN): a name for the chain line's byte format; no rule reads it (R265). Its value 0 is a
  DESIGN CHOICE: R8 gives none (log 24). -/
  chainLineFormat : Nat := 0
  /-- `DMX_BAUD_TOLERANCE` (OPEN): no rule depends on it (R261). Its value 0 is a DESIGN CHOICE: R8 gives none (log 24). -/
  dmxBaudTolerance : Nat := 0
  /-- `REFRESH_PERIOD_US`: the host's own refresh period; the block never reads it (R150). Its value 24 000 is
  a DESIGN CHOICE out of R8's example range 22 000 to 24 000 (log 24). -/
  refreshPeriodUs : Nat := 24000
deriving DecidableEq, Repr

/-- `NSLOTS` (R8). -/
abbrev nSlots : Nat := 512

/-- `DMX_BAUD` in bit/s (R8). -/
abbrev dmxBaud : Nat := 250000

/-- `T_BIT` in µs (R8, R261). -/
abbrev tBit : Nat := 4

/-- `T_BYTE` in µs: 11 bit times (R9). -/
abbrev tByte : Nat := 11 * tBit

/-- `DMX_START_CODE` (R8, R103). -/
abbrev startCode : Byte := 0x00#8

/-- `READ_CODE` (R8, R114). -/
abbrev readCode : Byte := 0x01#8

/-- `WRITE_CODE` (R8, R114). -/
abbrev writeCode : Byte := 0x02#8

/-- The admissible parameter values of R8, in its table's order. -/
def Config.admissible (c : Config) : Bool :=
  decide (92 ≤ c.txBreakUs) && decide (12 ≤ c.txMabUs) && decide (45 ≤ c.rxBreakMinUs) && decide (1 ≤ c.rxMabMinUs) &&
    decide (1 ≤ c.enumN) && decide (c.enumN ≤ 255) && decide (1 ≤ c.timeoutMs) && decide (c.retryCount ≤ 1) &&
    decide (1 ≤ c.staleThreshold) && decide (c.pingCode ≠ readCode) && decide (c.pingCode ≠ writeCode)

/-- FREE VALUE (log 4). The duration in µs of the `n`-th write on the chain port whose end no draw of
`State.chp.draws` says: "a draw of the chain environment" (R204, I9). It has no body: nothing is known of it. -/
opaque Config.freeWriteDuration : Nat → Nat

end Sys2Proof
end

