-- ==== Sys2Proof/Machine/Operands.lean ====
section
/-! DEFINITION. Operand forms and byte sequences: little-endian values (20_memory.md R74, 00_scope.md R13), the XOR
checksum (30_encoding.md R111), the chain frame builder (R110) and the 16-bit fields of the host port (R94). -/

namespace Sys2Proof.Machine

/-- `le_decode(s)` = Σ s[i] · 256^i (R13). -/
def leDecode : List Byte → Nat
  | [] => 0
  | b :: bs => b.toNat + 256 * leDecode bs

/-- `le_encode(v, w)`: `w` bytes, byte `i` is `(v >> 8i) mod 256` (R13). -/
def leEncode (v : Nat) : Nat → List Byte
  | 0 => []
  | w + 1 => BitVec.ofNat 8 v :: leEncode (v / 256) w

/-- `xor_fold(s)`, seed 0x00 (R13, R111). -/
def xorFold : List Byte → Byte
  | [] => 0x00#8
  | b :: bs => b ^^^ xorFold bs

/-- `zext_16(lo) + 256 · zext_16(hi)` (R94: `addr`, `len`). -/
def half (lo hi : Byte) : Half := lo.setWidth 16 + 256#16 * hi.setWidth 16

/-- The less significant byte of a 16-bit field, sent first (R93). -/
def halfLo (h : Half) : Byte := h.setWidth 8

/-- The more significant byte of a 16-bit field, sent second (R93). -/
def halfHi (h : Half) : Byte := (h >>> 8).setWidth 8

/-- The bytes of a CommandFrame before its checksum: `[index, code, len(p)] ++ p` (R110). -/
def frameBody (index code : Byte) (p : List Byte) : List Byte :=
  index :: code :: BitVec.ofNat 8 p.length :: p

/-- `build(index, code, p) = h ++ [xor_fold(h)]` (R110), defined by the spec for `len(p) ≤ 255`. -/
def build (index code : Byte) (p : List Byte) : List Byte :=
  frameBody index code p ++ [xorFold (frameBody index code p)]

/-- Payload of a READ request (R114, R235). -/
def readPayload (reg : Byte) : List Byte := [reg]

/-- Payload of a WRITE request (R114, R237): the value bytes stand little-endian after the register number. -/
def writePayload (reg : Byte) (v : List Byte) : List Byte := reg :: v

/-- The byte whose bit `i` is the `i`-th of the samples (R162: sample at `j = i + 1`, `true` for Mark). -/
def byteOfBits : List Bool → Nat
  | [] => 0
  | b :: bs => b.toNat + 2 * byteOfBits bs

end Sys2Proof.Machine
end

