-- ==== Sys2Proof/Syntax.lean ====
section
/-! DEFINITION. The instructions: one constructor for every row of spec/opcode_table.json. The first thirteen are the
host commands of the host command port (30_encoding.md R92); the last three are the CommandFrames the block itself
builds for the chain line (R114, R231). Operands are the fields of R94 and R110, as bits. -/

namespace Sys2Proof

/-- One instruction. -/
inductive Instr where
  /-- `DMX_WRITE`, format HA8 (R130). -/
  | dmxWrite (addr : Half) (value : Byte)
  /-- `DMX_READ`, format HA (R131). -/
  | dmxRead (addr : Half)
  /-- `DMX_TRANSMIT`, format H0 (R132). -/
  | dmxTransmit
  /-- `DMX_SET_MODE`, format HM (R133). -/
  | dmxSetMode (mode : Byte)
  /-- `DMX_GET_MODE`, format H0 (R134). -/
  | dmxGetMode
  /-- `DMX_READ_DIAG`, format H0 (R135). -/
  | dmxReadDiag
  /-- `CH_SEND`, format HS (R200): `len` is the 16-bit length field, `payload` the bytes after it. -/
  | chSend (index code : Byte) (len : Half) (payload : List Byte)
  /-- `CH_READ_REG`, format HIR (R235). -/
  | chReadReg (index reg : Byte)
  /-- `CH_WRITE_REG`, format HW (R237): `width` is the width field, `v` the value bytes after it. -/
  | chWriteReg (index reg width : Byte) (v : List Byte)
  /-- `CH_ENUMERATE`, format H0 (R230). -/
  | chEnumerate
  /-- `CH_INVALIDATE`, format H0 (R243). -/
  | chInvalidate
  /-- `CH_LOOKUP`, format HI (R244). -/
  | chLookup (index : Byte)
  /-- `CH_GET_STATE`, format H0 (R215). -/
  | chGetState
  /-- `CHAIN_READ`, the READ CommandFrame: payload `[reg]` (R114). -/
  | chainRead (dest reg : Byte)
  /-- `CHAIN_WRITE`, the WRITE CommandFrame: payload `[reg] ++ v`, `v` of 1 to 4 bytes (R114). -/
  | chainWrite (dest reg : Byte) (v : List Byte)
  /-- `CHAIN_PING`, the ping CommandFrame: no payload (R114, R231). -/
  | chainPing (dest : Byte)
deriving DecidableEq, Repr

end Sys2Proof
end

