-- ==== Sys2Proof/WellFormed.lean ====
section
/-! DEFINITION. Which terms of `Instr` an encoding can carry. Only fields whose length another field states can be
ill-formed: every other operand takes every value of its width. -/

namespace Sys2Proof

/-- Why a term of `Instr` has no encoding. -/
inductive IllFormed where
  /-- `CH_SEND`: the payload is not `len` bytes long (R91, R94). -/
  | sendLength
  /-- `CH_WRITE_REG`: the value is not `width` bytes long (R91, R94). -/
  | writeWidth
  /-- `CHAIN_WRITE`: the value is not 1 to 4 bytes long (R114). -/
  | wireWriteWidth
deriving DecidableEq, Repr

/-- The check of one instruction: `none` where it is well formed. -/
def Instr.check : Instr → Option IllFormed
  | .dmxWrite _ _ => none
  | .dmxRead _ => none
  | .dmxTransmit => none
  | .dmxSetMode _ => none
  | .dmxGetMode => none
  | .dmxReadDiag => none
  | .chSend _ _ len payload => if payload.length = len.toNat then none else some .sendLength
  | .chReadReg _ _ => none
  | .chWriteReg _ _ width v => if v.length = width.toNat then none else some .writeWidth
  | .chEnumerate => none
  | .chInvalidate => none
  | .chLookup _ => none
  | .chGetState => none
  | .chainRead _ _ => none
  | .chainWrite _ _ v => if 1 ≤ v.length ∧ v.length ≤ 4 then none else some .wireWriteWidth
  | .chainPing _ => none

/-- An instruction an encoding can carry. -/
abbrev Instr.WellFormed (i : Instr) : Prop := i.check = none

/-- Whether an instruction is a chain wire command (a CommandFrame of R114) rather than a host command of R92. -/
def Instr.onWire : Instr → Bool
  | .chainRead _ _ => true
  | .chainWrite _ _ _ => true
  | .chainPing _ => true
  | .dmxWrite _ _ => false
  | .dmxRead _ => false
  | .dmxTransmit => false
  | .dmxSetMode _ => false
  | .dmxGetMode => false
  | .dmxReadDiag => false
  | .chSend _ _ _ _ => false
  | .chReadReg _ _ => false
  | .chWriteReg _ _ _ _ => false
  | .chEnumerate => false
  | .chInvalidate => false
  | .chLookup _ => false
  | .chGetState => false

end Sys2Proof
end

