-- ==== Sys2Proof/Decode.lean ====
section
/-! DEFINITION. The decoder of the host command port (30_encoding.md R91 to R95), total on any byte sequence and
rejecting by name; the decoder of the chain CommandFrames the block builds (R110, R111, R114); the encoder of both; and
the reading of one word of spec/opcode_table.json. -/

namespace Sys2Proof

open Machine

/-- Why a byte sequence is no instruction. The first three answer `IllegalCommand` on the host port (R91, R95); the
others name what is wrong with a chain CommandFrame. -/
inductive DecodeError where
  /-- An empty command (R91). -/
  | empty
  /-- An unassigned opcode (R95). -/
  | unassigned (op : Byte)
  /-- An assigned opcode and the wrong length (R91). -/
  | wrongLength (op : Byte)
  /-- A frame shorter or longer than its length field says (R110, R113). -/
  | frameLength
  /-- A frame whose checksum does not recompute (R111). -/
  | frameChecksum
  /-- A command code the block does not build by itself (R114). -/
  | frameCode (code : Byte)
  /-- A payload that is not the one R114 gives the code. -/
  | framePayload (code : Byte)
deriving DecidableEq, Repr

/-- The host command port's decoder (R91 to R95). -/
def decode : List Byte → Except DecodeError Instr
  | [] => .error .empty
  | op :: args =>
    match op.toNat with
    | 0x01 => match args with
      | [a0, a1, value] => .ok (.dmxWrite (half a0 a1) value)
      | _ => .error (.wrongLength op)
    | 0x02 => match args with
      | [a0, a1] => .ok (.dmxRead (half a0 a1))
      | _ => .error (.wrongLength op)
    | 0x03 => match args with
      | [] => .ok .dmxTransmit
      | _ => .error (.wrongLength op)
    | 0x04 => match args with
      | [mode] => .ok (.dmxSetMode mode)
      | _ => .error (.wrongLength op)
    | 0x05 => match args with
      | [] => .ok .dmxGetMode
      | _ => .error (.wrongLength op)
    | 0x06 => match args with
      | [] => .ok .dmxReadDiag
      | _ => .error (.wrongLength op)
    | 0x10 => match args with
      | index :: code :: l0 :: l1 :: payload =>
        if payload.length = (half l0 l1).toNat then .ok (.chSend index code (half l0 l1) payload)
        else .error (.wrongLength op)
      | _ => .error (.wrongLength op)
    | 0x11 => match args with
      | [index, reg] => .ok (.chReadReg index reg)
      | _ => .error (.wrongLength op)
    | 0x12 => match args with
      | index :: reg :: width :: v =>
        if v.length = width.toNat then .ok (.chWriteReg index reg width v)
        else .error (.wrongLength op)
      | _ => .error (.wrongLength op)
    | 0x13 => match args with
      | [] => .ok .chEnumerate
      | _ => .error (.wrongLength op)
    | 0x14 => match args with
      | [] => .ok .chInvalidate
      | _ => .error (.wrongLength op)
    | 0x15 => match args with
      | [index] => .ok (.chLookup index)
      | _ => .error (.wrongLength op)
    | 0x16 => match args with
      | [] => .ok .chGetState
      | _ => .error (.wrongLength op)
    | _ => .error (.unassigned op)

/-- Which of its own commands the block built, by code and payload (R114). -/
def classifyFrame (ping dest code : Byte) (p : List Byte) : Except DecodeError Instr :=
  if code = readCode then
    match p with
    | [reg] => .ok (.chainRead dest reg)
    | _ => .error (.framePayload code)
  else if code = writeCode then
    match p with
    | reg :: v => if 1 ≤ v.length ∧ v.length ≤ 4 then .ok (.chainWrite dest reg v) else .error (.framePayload code)
    | [] => .error (.framePayload code)
  else if code = ping then
    match p with
    | [] => .ok (.chainPing dest)
    | _ => .error (.framePayload code)
  else .error (.frameCode code)

/-- The decoder of a chain CommandFrame (R110, R111, R114), for the `PING_CODE` given. -/
def decodeFrame (ping : Byte) : List Byte → Except DecodeError Instr
  | dest :: code :: n :: rest =>
    if rest.length ≠ n.toNat + 1 then .error .frameLength
    else if dest :: code :: n :: rest ≠ build dest code (rest.take n.toNat) then .error .frameChecksum
    else classifyFrame ping dest code (rest.take n.toNat)
  | _ => .error .frameLength

/-- The bytes of an instruction: a host command as R92 to R94 lay it out, a wire command as the CommandFrame of R110
and R114 (with the `PING_CODE` given). -/
def encode (ping : Byte) : Instr → List Byte
  | .dmxWrite addr value => [0x01#8, halfLo addr, halfHi addr, value]
  | .dmxRead addr => [0x02#8, halfLo addr, halfHi addr]
  | .dmxTransmit => [0x03#8]
  | .dmxSetMode mode => [0x04#8, mode]
  | .dmxGetMode => [0x05#8]
  | .dmxReadDiag => [0x06#8]
  | .chSend index code len payload => 0x10#8 :: index :: code :: halfLo len :: halfHi len :: payload
  | .chReadReg index reg => [0x11#8, index, reg]
  | .chWriteReg index reg width v => 0x12#8 :: index :: reg :: width :: v
  | .chEnumerate => [0x13#8]
  | .chInvalidate => [0x14#8]
  | .chLookup index => [0x15#8, index]
  | .chGetState => [0x16#8]
  | .chainRead dest reg => build dest readCode (readPayload reg)
  | .chainWrite dest reg v => build dest writeCode (writePayload reg v)
  | .chainPing dest => build dest ping []

/-- The length R92 gives a host command whose first bytes are `c` (bytes it does not have read as 0), for an assigned
opcode. -/
def hostLength (c : List Byte) : Option Nat :=
  let byteAt (k : Nat) : Byte := c.getD k 0x00#8
  match (byteAt 0).toNat with
  | 0x01 => some 4
  | 0x02 => some 3
  | 0x03 => some 1
  | 0x04 => some 2
  | 0x05 => some 1
  | 0x06 => some 1
  | 0x10 => some (5 + (half (byteAt 3) (byteAt 4)).toNat)
  | 0x11 => some 3
  | 0x12 => some (4 + (byteAt 3).toNat)
  | 0x13 => some 1
  | 0x14 => some 1
  | 0x15 => some 2
  | 0x16 => some 1
  | _ => none

/-- The host command a table word stands for: its bytes, first byte least significant (R93), and a zero for every
operand byte the command has above them. -/
def tableBytes (nbits w : Nat) : List Byte :=
  let raw := leEncode w ((nbits + 7) / 8)
  raw ++ List.replicate ((hostLength raw).getD raw.length - raw.length) 0x00#8

/-- The chain CommandFrame a table word stands for where no host command has it: the table numbers its wire rows in
frame byte 1, and every other field is 0 (log 6). -/
def tableFrame (w : Nat) : List Byte := build 0x00#8 (BitVec.ofNat 8 w) []

/-- The instruction the decoders read from a table word of `nbits` bits: the host command port's, else (for a word of
one byte) the chain wire's with the default `PING_CODE` (log 6). -/
def decodeTableWord (nbits w : Nat) : Option Instr :=
  match decode (tableBytes nbits w) with
  | .ok i => some i
  | .error _ =>
    if nbits ≤ 8 then
      match decodeFrame 0x00#8 (tableFrame w) with
      | .ok i => some i
      | .error _ => none
    else none

end Sys2Proof
end

