-- ==== Sys2Proof/Machine/State.lean ====
section
/-! DEFINITION. The state of the block as plain data: the framer (10_state.md R33 to R40), the chain engine and registry
(R41 to R52), the time base (R53), the parameters (00_scope.md R8), and the model's own fields: the chain port's
contract (R16), the host command port and the inputs that are to come (R10). State.reset is the table of R56. -/

namespace Sys2Proof.Machine

/-- A host agent (R10, R296): any number of them, told apart by a number. -/
abbrev Agent := Nat

/-- A line level (R16, R19): `mark` is high, logical 1, idle; `space` is low, logical 0. -/
inductive Level where
  | mark
  | space
deriving DecidableEq, Repr

/-- `FR.mode` (R34). -/
inductive Mode where
  | controller
  | receiver
deriving DecidableEq, Repr

/-- `FR.tx` (R36): the transmit sequencer's segment. -/
inductive TxState where
  /-- `TxIdle` -/
  | idle
  /-- `TxBreak` -/
  | brk
  /-- `TxMab` -/
  | mab
  /-- `TxByte(k)`: byte 0 is the start code, byte `k ≥ 1` is slot `k` -/
  | byte (k : Nat)
  /-- `TxGap(k)`: the inter-slot mark after byte `k` -/
  | gap (k : Nat)
deriving DecidableEq, Repr

/-- `FR.rx` (R38): the receive parser's state. -/
inductive RxState where
  | off
  | waitBreak
  | inBreak
  | mab
  | startCode
  | slots
  | discard
deriving DecidableEq, Repr

/-- `ChannelChanged(addr, old, new)` (R290). -/
structure ChannelChanged where
  addr : Nat
  old : Byte
  new : Byte
deriving DecidableEq, Repr

/-- The slot space (R70, R71): (channel address, byte) pairs, addresses strictly rising in 1..512, no byte 0x00; a slot
that is not listed reads 0x00 (R33). -/
abbrev Memory := List Host.Cell

/-- The low run of the DMX RX line that the front end is measuring (R160). -/
inductive LowRun where
  /-- No run whose falling edge was seen is in progress. -/
  | none
  /-- A run since the falling edge at `tf`, not yet a break; `deferred` is set when the byte that began with it was
  sampled with a low stop bit, so that its `FRAMING_ERROR` waits for the end of the run (R163). -/
  | low (tf : Nat) (deferred : Bool)
  /-- A run since `tf` that is a break (R161). -/
  | brk (tf : Nat)
deriving DecidableEq, Repr

/-- A byte being sampled (R162): its falling edge and the samples taken so far, `true` for Mark. -/
structure Sampler where
  start : Nat
  bits : List Bool
deriving DecidableEq, Repr

/-- The receive front end (R160 to R164, log 10). -/
structure FrontEnd where
  /-- `DMX_RX` (R42), the level the environment drives. -/
  level : Level
  run : LowRun
  sampler : Option Sampler
  /-- The instant from which a falling edge may start a byte (R162). -/
  guard : Nat
deriving DecidableEq, Repr

/-- The DMX framer (R33 to R40). -/
structure Framer where
  /-- `FR.slot[0..511]` (R33) -/
  slots : Memory
  /-- `FR.mode` (R34) -/
  mode : Mode
  /-- `FR.diag_count` (R35) -/
  diagCount : Word
  /-- `FR.tx` (R36) -/
  tx : TxState
  /-- `FR.tx_seg_end` (R36) -/
  txSegEnd : Nat
  /-- `FR.tx_issuer` (R36) -/
  txIssuer : Option Agent
  /-- `FR.tx_snap[0..512]` (R37) -/
  txSnap : List Byte
  /-- `FR.rx` (R38) -/
  rx : RxState
  /-- `FR.rx_buf` (R38) -/
  rxBuf : List Byte
  /-- `FR.rx_mark_start` (R38) -/
  rxMarkStart : Nat
  /-- `FR.notify` (R39) -/
  notify : List ChannelChanged
  /-- `DMX_TX` (R40) -/
  dmxTx : Level
  /-- `DMX_TX_EN` (R40) -/
  dmxTxEn : Bool
  /-- The receive front end (R160) -/
  front : FrontEnd
deriving DecidableEq, Repr

/-- `CH.state` (R43). -/
inductive ReqState where
  | idle
  | sent
  | awaitingResponse
  | completed
  | timedOut
  | checksumError
  | addressMismatch
deriving DecidableEq, Repr

/-- `CH.op` (R44): the command that owns the engine. -/
inductive ChainOp where
  /-- `None` -/
  | none
  /-- `Send` -/
  | send
  /-- `ReadReg` -/
  | readReg
  /-- `WriteReg` -/
  | writeReg
  /-- `Enumerate` -/
  | enumerate
deriving DecidableEq, Repr

/-- A validated ResponseFrame (R47). -/
structure ResponseFrame where
  dest : Byte
  status : Byte
  payload : List Byte
deriving DecidableEq, Repr

/-- `ChainUnit(index, capability, version)` (R51); nothing ever obtains a version. -/
structure ChainUnit where
  index : Byte
  capability : Option Byte
  version : Option String
deriving DecidableEq, Repr

/-- The chain engine and the registry (R41, R43 to R52). -/
structure Chain where
  /-- `CHAIN_TX_EN` (R41) -/
  txEn : Bool
  /-- `CH.state` (R43) -/
  state : ReqState
  /-- `CH.op` (R44) -/
  op : ChainOp
  /-- `CH.issuer` (R44) -/
  issuer : Option Agent
  /-- `CH.req` (R45) -/
  req : List Byte
  /-- `CH.index` (R45) -/
  index : Byte
  /-- `CH.attempt` (R45) -/
  attempt : Nat
  /-- `CH.retries` (R45) -/
  retries : Nat
  /-- `CH.deadline` (R45) -/
  deadline : Nat
  /-- `CH.rx` (R46) -/
  rx : List Byte
  /-- `CH.resp` (R47) -/
  resp : Option ResponseFrame
  /-- `CH.last_outcome` (R48): an outcome code, or 0xFF -/
  lastOutcome : Byte
  /-- `CH.enum_cursor` (R50) -/
  enumCursor : Byte
  /-- `CH.enum_acc` (R50) -/
  enumAcc : List ChainUnit
  /-- `CH.registry` (R51) -/
  registry : List ChainUnit
  /-- `CH.to_run[0..255]` (R52) -/
  toRun : Vector Nat 256
  /-- `CH.stale[0..255]` (R52) -/
  stale : Vector Bool 256
deriving DecidableEq, Repr

/-- A frame whose write on the chain port began at `time` (R16 `ChanWrite`). -/
structure Written where
  time : Nat
  frame : List Byte
deriving DecidableEq, Repr

/-- The chain port (R16, R295), as the block's contract with it needs it. -/
structure ChainPort where
  /-- Bytes received and not yet consumed (R46, R56). -/
  unread : List Byte
  /-- The instant the write in progress began (meaningful while `CH.state = Sent`). -/
  writeStart : Nat
  /-- The durations the environment draws for the write in progress and the writes after it (R204, log 4). -/
  draws : List Nat
  /-- How many writes have ended: what the free value is applied to once no draw is left (log 4). -/
  drawCount : Nat
  /-- Every frame whose write was started since reset, in order (log 8). -/
  written : List Written
deriving DecidableEq, Repr

/-- A response the block gave (R90): to whom, when, and its bytes. -/
structure Response where
  agent : Agent
  time : Nat
  bytes : List Byte
deriving DecidableEq, Repr

/-- A host command that is going to be presented (R90): at `time` (or at once where that is past), after `after` of the
other steps due at that instant (R266, log 2), by `agent`, as the bytes delivered. -/
structure HostInput where
  time : Nat
  after : Nat
  agent : Agent
  bytes : List Byte
deriving DecidableEq, Repr

/-- The host command port (R90). -/
structure HostPort where
  /-- The commands to come, in acceptance order (R82). -/
  inputs : List HostInput
  /-- The agent whose command was accepted last: the `agent` of the command rules (40_dmx_framer.md). -/
  agent : Agent
  /-- Every response given since reset, in order (log 8). -/
  responses : List Response
deriving DecidableEq, Repr

/-- What the lines and the reset pin can do at an instant (R10, R260, R310). -/
inductive LineEvent where
  /-- The DMX RX line takes a level (R160). -/
  | dmxEdge (level : Level)
  /-- `RxByte(b, t)`: a byte arrives on the chain line (R16). -/
  | chainByte (b : Byte)
  /-- The reset input is asserted (R310). -/
  | reset
  /-- Nothing: an instant at which TC stops (R260, log 3). -/
  | pass
deriving DecidableEq, Repr

/-- A line event and its instant. -/
structure LineInput where
  time : Nat
  event : LineEvent
deriving DecidableEq, Repr

/-- The whole state. -/
structure State where
  /-- The parameters (R8); no step changes them. -/
  cfg : Config
  /-- `now` (R53). -/
  now : Nat
  /-- The framer `FR`. -/
  fr : Framer
  /-- The chain engine `CH`. -/
  ch : Chain
  /-- The chain port. -/
  chp : ChainPort
  /-- The host command port. -/
  port : HostPort
  /-- The line events to come, in time order (R260). -/
  lineIn : List LineInput
deriving DecidableEq, Repr

/-- Why the machine stops. It has NO constructor: "no behaviour of the sources halts it" (93_implementation_defined.md),
the block has no trap (R286) and every error is an outcome code in a response (R280). -/
inductive Fault where
deriving DecidableEq, Repr

/-- Why the model gives an instruction no meaning. -/
inductive Refusal where
  /-- Raised by an arm of `exec` for an instruction that has no meaning yet (safe); no arm raises it now. -/
  | notModelled (mnemonic : String)
deriving DecidableEq, Repr

/-- The outcomes of a step (Host.Core). -/
abbrev Out := Host.Outcome State Fault Refusal

/-- The outcomes of R280. -/
inductive OutcomeCode where
  | ok
  | outOfRange
  | timeout
  | checksumMismatch
  | addressMismatch
  | busBusy
  | unitStatus
  | badPayload
  | stale
  | modeError
  | illegalCommand
deriving DecidableEq, Repr

/-- The framer after reset (R56); `txSnap` is unspecified there: 0x00 each (DESIGN CHOICE, log 7); `front` is log 10. -/
def Framer.reset : Framer where
  slots := []
  mode := .controller
  diagCount := 0#32
  tx := .idle
  txSegEnd := 0
  txIssuer := none
  txSnap := List.replicate 513 0x00#8
  rx := .off
  rxBuf := []
  rxMarkStart := 0
  notify := []
  dmxTx := .mark
  dmxTxEn := true
  front := { level := .mark, run := .none, sampler := none, guard := 0 }

/-- The chain engine and registry after reset (R56). -/
def Chain.reset : Chain where
  txEn := false
  state := .idle
  op := .none
  issuer := none
  req := []
  index := 0x00#8
  attempt := 0
  retries := 0
  deadline := 0
  rx := []
  resp := none
  lastOutcome := 0xFF#8
  enumCursor := 0x00#8
  enumAcc := []
  registry := []
  toRun := Vector.replicate 256 0
  stale := Vector.replicate 256 false

/-- The machine right after reset (R56, R310, R312): every field at the value of R56, the parameters at the values of R8
(log 1), the chain port empty, and no input said yet (log 5, log 8). -/
def State.reset : State where
  cfg := {}
  now := 0
  fr := Framer.reset
  ch := Chain.reset
  chp := { unread := [], writeStart := 0, draws := [], drawCount := 0, written := [] }
  port := { inputs := [], agent := 0, responses := [] }
  lineIn := []

end Sys2Proof.Machine
end

