-- ==== Sys2Proof/Machine/Flags.lean ====
section
/-! DEFINITION. The block has no status flags (10_state.md R32): what stands in their place are the codes a host reads
(R43, R44, R280) and the conditions the engine computes on a received frame (42_chain_transaction.md R206, R207, R210)
and on a line (30_encoding.md R101). -/

namespace Sys2Proof.Machine

/-- The outcome codes of R280. -/
def outcomeByte : OutcomeCode → Byte
  | .ok => 0x00#8
  | .outOfRange => 0x01#8
  | .timeout => 0x02#8
  | .checksumMismatch => 0x03#8
  | .addressMismatch => 0x04#8
  | .busBusy => 0x05#8
  | .unitStatus => 0x06#8
  | .badPayload => 0x07#8
  | .stale => 0x08#8
  | .modeError => 0x09#8
  | .illegalCommand => 0x0A#8

/-- The codes of `CH.state` (R43). -/
def reqStateByte : ReqState → Byte
  | .idle => 0#8
  | .sent => 1#8
  | .awaitingResponse => 2#8
  | .completed => 3#8
  | .timedOut => 4#8
  | .checksumError => 5#8
  | .addressMismatch => 6#8

/-- The codes of `CH.op` (R44). -/
def chainOpByte : ChainOp → Byte
  | .none => 0#8
  | .send => 1#8
  | .readReg => 2#8
  | .writeReg => 3#8
  | .enumerate => 4#8

/-- The codes of `FR.mode` (R34). -/
def modeByte : Mode → Byte
  | .controller => 0#8
  | .receiver => 1#8

/-- The outcome of a request by its terminal state (R210, R214); the other states are no end of a request. -/
def outcomeOfState : ReqState → OutcomeCode
  | .completed => .ok
  | .timedOut => .timeout
  | .checksumError => .checksumMismatch
  | .addressMismatch => .addressMismatch
  | .idle => .ok
  | .sent => .ok
  | .awaitingResponse => .ok

/-- A request is outstanding while `CH.state` is `Sent` or `AwaitingResponse` (R190). -/
def outstanding : ReqState → Bool
  | .sent => true
  | .awaitingResponse => true
  | .idle => false
  | .completed => false
  | .timedOut => false
  | .checksumError => false
  | .addressMismatch => false

/-- `F[2]` of a received sequence, its length field (R206). -/
def frameLen (rx : List Byte) : Nat := (rx.getD 2 0x00#8).toNat

/-- The frame is complete: `len ≥ 3` and `len = 4 + rx[2]` (R206). -/
def frameComplete (rx : List Byte) : Bool := decide (3 ≤ rx.length) && decide (rx.length = 4 + frameLen rx)

/-- The fields of a complete frame (R206). -/
def frameFields (rx : List Byte) : ResponseFrame where
  dest := rx.getD 0 0x00#8
  status := rx.getD 1 0x00#8
  payload := (rx.drop 3).take (frameLen rx)

/-- `chk = xor_fold(rx[0 .. 3+n))` (R111, R207). -/
def checksumValid (rx : List Byte) : Bool :=
  decide (rx.getD (3 + frameLen rx) 0x00#8 = xorFold (rx.take (3 + frameLen rx)))

/-- The checksum validator: checksum first, then the destination echo (R207). -/
def validated (rx : List Byte) (index : Byte) : ReqState :=
  if checksumValid rx then
    if (frameFields rx).dest = index then .completed else .addressMismatch
  else .checksumError

/-- The level a data bit is sent as: 1 is `Mark`, 0 is `Space` (R101). -/
def bitLevel (b : Bool) : Level := if b then .mark else .space

/-- The level of bit time `j` of a byte (R101, R143): start bit, data bits least significant first, two stop bits. -/
def byteLevel (b : Byte) (j : Nat) : Level :=
  if j = 0 then .space
  else if j ≤ 8 then bitLevel (b.getLsbD (j - 1))
  else .mark

/-- `cap_valid(u)` (R233, R244). -/
def capValid (cap : Option Byte) : Byte :=
  match cap with
  | some _ => 1#8
  | none => 0#8

/-- `cap_byte(u)` (R233, R244). -/
def capByte (cap : Option Byte) : Byte := cap.getD 0x00#8

end Sys2Proof.Machine
end

