-- ==== Sys2Proof/Machine/Memory.lean ====
section
/-! DEFINITION. The slot space: 512 bytes at channel addresses 1..512 (20_memory.md R70, R71, R81), the only memory of
the block. An unlisted slot reads 0x00, the reset value (10_state.md R33). -/

namespace Sys2Proof.Machine

/-- `addr` is outside 1..512 exactly where `OutOfRange` is raised (R71, R130, R131). -/
def slotLegal (addr : Nat) : Bool := decide (1 ≤ addr) && decide (addr ≤ nSlots)

/-- What a slot that is not listed reads as (R33, R56). -/
def slotDefault : Byte := 0x00#8

/-- `SlotRead(addr)` (R14). -/
def slotRead : Memory → Nat → Byte
  | [], _ => slotDefault
  | (k, v) :: m, addr => if k = addr then v else slotRead m addr

/-- `SlotWrite(addr, v)` (R14); writing the value an unlisted slot reads as lists nothing. -/
def slotWrite : Memory → Nat → Byte → Memory
  | [], addr, v => if v = slotDefault then [] else [(addr, v)]
  | (k, w) :: m, addr, v =>
    if addr < k then (if v = slotDefault then (k, w) :: m else (addr, v) :: (k, w) :: m)
    else if addr = k then (if v = slotDefault then m else (addr, v) :: m)
    else (k, w) :: slotWrite m addr v

/-- The canonical form above `lo`: addresses strictly rising, at most 512, no byte an unlisted slot reads as. -/
def slotsWfAbove (lo : Nat) : Memory → Bool
  | [] => true
  | (k, v) :: m => decide (lo < k) && decide (k ≤ nSlots) && decide (v ≠ slotDefault) && slotsWfAbove k m

/-- The canonical form of the slot space. -/
def Memory.wf (m : Memory) : Bool := slotsWfAbove 0 m

/-- All 512 slots in address order: `[FR.slot[0], ..., FR.slot[511]]` (R132). -/
def slotImage (m : Memory) : List Byte := (List.range nSlots).map (fun k => slotRead m (k + 1))

/-- The writes of a receive commit from address `addr` on, slots whose value does not change left out (R172). -/
def commitSlots (addr : Nat) : List Byte → Memory → Memory
  | [], m => m
  | b :: bs, m =>
    commitSlots (addr + 1) bs (if b ≠ slotRead m addr then slotWrite m addr b else m)

/-- The notifications of the same commit: one per slot whose value changes, ascending (R172, R290). -/
def commitNotes (addr : Nat) : List Byte → Memory → List ChannelChanged
  | [], _ => []
  | b :: bs, m =>
    if b ≠ slotRead m addr then
      { addr := addr, old := slotRead m addr, new := b } :: commitNotes (addr + 1) bs (slotWrite m addr b)
    else commitNotes (addr + 1) bs m

end Sys2Proof.Machine
end

