-- ==== Sys2Proof/Machine/Ops.lean ====
section
/-! DEFINITION. The shared operations: answering a command, ending it with an outcome (the block's counterpart of taking
an exception: 00_scope.md R15, 60_exceptions.md R286), the chain port primitives (R16), the arbiter and the start of a
request (42_chain_transaction.md R201 to R203), and stale counting (43_chain_registry.md R240). -/

namespace Sys2Proof.Machine

/-- Gives one response now (R90). -/
def respond (a : Agent) (bytes : List Byte) (s : State) : State :=
  { s with port := { s.port with responses := s.port.responses ++ [{ agent := a, time := s.now, bytes := bytes }] } }

/-- Gives a response to the agent that waits, if one does (R145, R209, R233). -/
def respondTo (a : Option Agent) (bytes : List Byte) (s : State) : State :=
  match a with
  | some a => respond a bytes s
  | none => s

/-- `raise X`: ends the command being accepted with outcome `X`, no further effect, response `[code(X)]` (R15). The
block has no trap: no vector, no saved program counter, no mode change (R286). -/
def raiseOutcome (o : OutcomeCode) (s : State) : State := respond s.port.agent [outcomeByte o] s

/-- `return OK(r)`: ends the command being accepted with outcome `OK` and result bytes `r` (R15). -/
def returnOk (r : List Byte) (s : State) : State := respond s.port.agent (outcomeByte .ok :: r) s

/-- The engine is busy: a chain command is in progress (R44, R201). -/
def chainBusy (s : State) : Bool := decide (s.ch.op ≠ .none)

/-- The arbiter's write, made once `CH.op` was seen to be `None`: `CH.op <- kind; CH.issuer <- agent` (R201). -/
def claimEngine (kind : ChainOp) (s : State) : State :=
  { s with ch := { s.ch with op := kind, issuer := some s.port.agent } }

/-- `start_attempt()` (R203): drain the port, empty `CH.rx`, drive the line and start writing `CH.req`. -/
def startAttempt (s : State) : State :=
  { s with
    ch := { s.ch with rx := [], state := .sent, txEn := true }
    chp := { s.chp with
      unread := []
      writeStart := s.now
      written := s.chp.written ++ [{ time := s.now, frame := s.ch.req }] } }

/-- Puts the CommandFrame `build(dest, code, payload)` on the chain wire: it becomes `CH.req` and an attempt starts
(R110, R114, R203). -/
def sendFrame (dest code : Byte) (payload : List Byte) (s : State) : State :=
  startAttempt { s with ch := { s.ch with req := build dest code payload } }

/-- The bookkeeping of `start_request` before its attempt (R202). -/
def prepareRequest (index : Byte) (retries : Nat) (s : State) : State :=
  { s with ch := { s.ch with state := .idle, index := index, attempt := 0, retries := retries } }

/-- `start_request(index, code, payload, retries)` (R202). -/
def startRequest (index code : Byte) (payload : List Byte) (retries : Nat) (s : State) : State :=
  sendFrame index code payload (prepareRequest index retries s)

/-- Whether index `i` is marked stale (R52, R241). -/
def isStale (s : State) (i : Byte) : Bool := s.ch.stale[i.toNat]'i.isLt

/-- The run of Timeouts of index `i` (R52). -/
def timeoutRun (s : State) (i : Byte) : Nat := s.ch.toRun[i.toNat]'i.isLt

/-- `update_stale(i, o)` (R240). -/
def updateStale (i : Byte) (o : OutcomeCode) (s : State) : State :=
  if o = .timeout then
    let run := min (timeoutRun s i + 1) s.cfg.staleThreshold
    { s with ch := { s.ch with
        toRun := s.ch.toRun.set i.toNat run i.isLt
        stale := if run ≥ s.cfg.staleThreshold then s.ch.stale.set i.toNat true i.isLt else s.ch.stale } }
  else
    { s with ch := { s.ch with toRun := s.ch.toRun.set i.toNat 0 i.isLt } }

/-- Frees the engine after a command whose final outcome is `o` (R209, R233). -/
def freeEngine (o : OutcomeCode) (s : State) : State :=
  { s with ch := { s.ch with lastOutcome := outcomeByte o, op := .none, issuer := none } }

/-- The registry entry of an index (R51, R244). -/
def registryFind (registry : List ChainUnit) (index : Byte) : Option ChainUnit :=
  registry.find? (fun u => decide (u.index = index))

end Sys2Proof.Machine
end

