-- ==== Sys2Proof/Machine/Engine.lean ====
section
/-! DEFINITION. The chain engine's own steps (42_chain_transaction.md R204 to R210) and the completion of the commands
built on it (43_chain_registry.md R232, R233, R235, R237). -/

namespace Sys2Proof.Machine

/-- The duration of the write in progress: the draw of the chain environment (R204, I9), or, where no draw is left, the
free value (log 4). -/
def writeDuration (s : State) : Nat :=
  match s.chp.draws with
  | d :: _ => d
  | [] => Config.freeWriteDuration s.chp.drawCount

/-- The instant `t_w` at which the port reports the write in progress complete (R204). -/
def writeEnd (s : State) : Nat := s.chp.writeStart + writeDuration s

/-- The draw of the write in progress is used up (log 4). -/
def nextDraw (p : ChainPort) : ChainPort := { p with draws := p.draws.tail, drawCount := p.drawCount + 1 }

/-- Write completion (R204). -/
def writeDone (s : State) : State :=
  { s with
    ch := { s.ch with
      txEn := false
      state := .awaitingResponse
      deadline := s.now + s.cfg.timeoutMs * 1000 }
    chp := nextDraw s.chp }

/-- The final outcome and the response of a command whose request ended with outcome `o`: R210 for `CH_SEND`, R235 for
`CH_READ_REG`, R237 for `CH_WRITE_REG`. -/
def callResult (s : State) (o : OutcomeCode) : OutcomeCode × List Byte :=
  let resp := s.ch.resp.getD { dest := 0x00#8, status := 0x00#8, payload := [] }
  if o ≠ .ok then (o, [outcomeByte o])
  else match s.ch.op with
    | .send => (.ok, outcomeByte .ok :: s.ch.rx)
    | .readReg =>
      if resp.status ≠ s.cfg.stSuccess then (.unitStatus, [outcomeByte .unitStatus, resp.status])
      else if 1 ≤ resp.payload.length ∧ resp.payload.length ≤ 4 then
        (.ok, outcomeByte .ok :: BitVec.ofNat 8 resp.payload.length :: leEncode (leDecode resp.payload) 4)
      else (.badPayload, [outcomeByte .badPayload])
    | .writeReg =>
      if resp.status ≠ s.cfg.stSuccess then (.unitStatus, [outcomeByte .unitStatus, resp.status])
      else (.ok, [outcomeByte .ok])
    | .enumerate => (o, [outcomeByte o])
    | .none => (o, [outcomeByte o])

/-- Call completion of `Send`, `ReadReg`, `WriteReg` (R209): stale counting with the request's own outcome, then the
command's response and final outcome. -/
def finishCall (s : State) : State :=
  let o := outcomeOfState s.ch.state
  let r := callResult s o
  freeEngine r.1 (respondTo s.ch.issuer r.2 (updateStale s.ch.index o s))

/-- The bytes of one unit in the response to `CH_ENUMERATE` (R96, R233). -/
def unitBytes (u : ChainUnit) : List Byte := [u.index, capValid u.capability, capByte u.capability]

/-- `finish_enumeration()` (R233). -/
def finishEnumeration (s : State) : State :=
  freeEngine .ok
    (respondTo s.ch.issuer
      (outcomeByte .ok :: BitVec.ofNat 8 s.ch.enumAcc.length :: s.ch.enumAcc.flatMap unitBytes)
      { s with ch := { s.ch with
          registry := s.ch.enumAcc
          stale := Vector.replicate 256 false
          toRun := Vector.replicate 256 0 } })

/-- The units found once the ping of `CH.enum_cursor` has ended: that index joins them if it acknowledged (R232). -/
def pingFound (s : State) : List ChainUnit :=
  match s.ch.resp with
  | some r =>
    if s.ch.state = .completed ∧ r.status = s.cfg.stSuccess then
      s.ch.enumAcc ++ [{ index := s.ch.enumCursor, capability := r.payload.head?, version := none }]
    else s.ch.enumAcc
  | none => s.ch.enumAcc

/-- Starts the ping of index `i` of an enumeration: one attempt, no retry (R231). -/
def startPing (i : Byte) (s : State) : State :=
  startRequest i s.cfg.pingCode [] 0 { s with ch := { s.ch with enumCursor := i } }

/-- Ping completion (R232). -/
def pingDone (s : State) : State :=
  let s1 := { s with ch := { s.ch with enumAcc := pingFound s } }
  if s.ch.enumCursor.toNat < s.cfg.enumN then startPing (s.ch.enumCursor + 1#8) s1
  else finishEnumeration s1

/-- What the end of a request does, by the command that owns the engine (R209, R232). With no owner (no run reaches
that, log 20) nothing is completed. -/
def requestEnded (s : State) : State :=
  match s.ch.op with
  | .none => s
  | .send => finishCall s
  | .readReg => finishCall s
  | .writeReg => finishCall s
  | .enumerate => pingDone s

/-- Validation of the complete frame in `CH.rx` (R207). -/
def validateFrame (s : State) : State :=
  { s with ch := { s.ch with
      state := validated s.ch.rx s.ch.index
      resp := if validated s.ch.rx s.ch.index = .completed then some (frameFields s.ch.rx) else s.ch.resp } }

/-- The response window is open for a byte arriving now (R205). -/
def windowOpen (s : State) : Bool :=
  decide (s.ch.state = .awaitingResponse) && decide (s.now ≤ s.ch.deadline) && !frameComplete s.ch.rx

/-- A byte taken into the response window; completion is checked after every byte (R205, R206). -/
def takeByte (b : Byte) (s : State) : State :=
  let s1 := { s with ch := { s.ch with rx := s.ch.rx ++ [b] } }
  if frameComplete s1.ch.rx then requestEnded (validateFrame s1) else s1

/-- `RxByte(b, now)` (R205): taken in an open window, discarded while `Sent`, else left unread in the port. -/
def chainByteArrives (b : Byte) (s : State) : State :=
  if s.ch.state = .sent then s
  else if windowOpen s then takeByte b s
  else { s with chp := { s.chp with unread := s.chp.unread ++ [b] } }

/-- `CH.state` becomes terminal and the request ends (R208, R209). -/
def endRequest (st : ReqState) (s : State) : State :=
  requestEnded { s with ch := { s.ch with state := st } }

/-- A retry: the next attempt of the same request, with the same bytes (R203, R208). -/
def retryRequest (s : State) : State :=
  startAttempt { s with ch := { s.ch with attempt := s.ch.attempt + 1 } }

/-- The deadline step (R208). -/
def deadlineStep (s : State) : State :=
  if s.ch.rx ≠ [] ∧ s.cfg.partialFrameOutcome = .checksumMismatch then endRequest .checksumError s
  else if s.ch.attempt < s.ch.retries then retryRequest s
  else endRequest .timedOut s

/-- When the engine's next own step is due: the end of the write, or the deadline of an incomplete frame (R204, R208). -/
def chainDueAt (s : State) : Option Nat :=
  match s.ch.state with
  | .sent => some (writeEnd s)
  | .awaitingResponse => if frameComplete s.ch.rx then none else some s.ch.deadline
  | .idle => none
  | .completed => none
  | .timedOut => none
  | .checksumError => none
  | .addressMismatch => none

/-- The engine's own step (R204, R208). -/
def chainStep (s : State) : State :=
  match s.ch.state with
  | .sent => writeDone s
  | .awaitingResponse => deadlineStep s
  | .idle => s
  | .completed => s
  | .timedOut => s
  | .checksumError => s
  | .addressMismatch => s

end Sys2Proof.Machine
end

