-- ==== Sys2Proof/Machine/ChainCommands.lean ====
section
/-! DEFINITION. The chain commands: the raw send and the state read-back (42_chain_transaction.md R200, R215),
enumeration, register access and the registry (43_chain_registry.md R230, R235, R237, R243, R244), with the check order
of 60_exceptions.md R284. The meanings here are the acceptance steps; the engine's steps complete the calls. -/

namespace Sys2Proof.Machine

/-- `CH_SEND` (R200). -/
def execChSend (index code : Byte) (len : Half) (payload : List Byte) (s : State) : Out :=
  if 255 < len.toNat then .next (raiseOutcome .outOfRange s)
  else if chainBusy s then .next (raiseOutcome .busBusy s)
  else .next (startRequest index code payload s.cfg.retryCount (claimEngine .send s))

/-- `CH_READ_REG` (R235). -/
def execChReadReg (index reg : Byte) (s : State) : Out :=
  if chainBusy s then .next (raiseOutcome .busBusy s)
  else if isStale s index then .next (raiseOutcome .stale s)
  else .next (startRequest index readCode (readPayload reg) s.cfg.retryCount (claimEngine .readReg s))

/-- `CH_WRITE_REG` (R237). -/
def execChWriteReg (index reg width : Byte) (v : List Byte) (s : State) : Out :=
  if width.toNat < 1 ∨ 4 < width.toNat then .next (raiseOutcome .outOfRange s)
  else if chainBusy s then .next (raiseOutcome .busBusy s)
  else if isStale s index then .next (raiseOutcome .stale s)
  else .next (startRequest index writeCode (writePayload reg v) s.cfg.retryCount (claimEngine .writeReg s))

/-- The acceptance of an enumeration: nothing found yet, the walk starts at index 1 (R230). -/
def beginEnumeration (s : State) : State :=
  startPing 0x01#8 { s with ch := { s.ch with enumAcc := [] } }

/-- `CH_ENUMERATE` (R230). -/
def execChEnumerate (s : State) : Out :=
  if chainBusy s then .next (raiseOutcome .busBusy s)
  else .next (beginEnumeration (claimEngine .enumerate s))

/-- `CH_INVALIDATE` (R243). -/
def execChInvalidate (s : State) : Out :=
  .next (returnOk [] { s with ch := { s.ch with registry := [] } })

/-- The result bytes of `CH_LOOKUP` (R244, R96). -/
def lookupBytes (index : Byte) (s : State) : List Byte :=
  let stale : Byte := if isStale s index then 1#8 else 0#8
  match registryFind s.ch.registry index with
  | some u => [1#8, stale, capValid u.capability, capByte u.capability]
  | none => [0#8, stale, 0#8, 0#8]

/-- `CH_LOOKUP` (R244). -/
def execChLookup (index : Byte) (s : State) : Out := .next (returnOk (lookupBytes index s) s)

/-- `CH_GET_STATE` (R215). -/
def execChGetState (s : State) : Out :=
  .next (returnOk [reqStateByte s.ch.state, chainOpByte s.ch.op, s.ch.lastOutcome] s)

end Sys2Proof.Machine
end

