-- ==== Sys2Proof/Machine/Receiver.lean ====
section
/-! DEFINITION. The DMX receive path (41_dmx_receiver.md): the frame parser on symbols (R170 to R177) and the front end
that turns the DMX RX line into symbols (R160 to R164). -/

namespace Sys2Proof.Machine

/-- The symbols of R160, and the falling edge that ends a mark-after-break (R164, R180's last column). -/
inductive Symbol where
  | brk
  | rise (t : Nat)
  | byte (b : Byte)
  | framingError
  | mabEnd (t : Nat)
deriving DecidableEq, Repr

/-- Moves the parser with an empty buffer. -/
def rxGoto (st : RxState) (s : State) : State := { s with fr := { s.fr with rx := st, rxBuf := [] } }

/-- Drops the frame, counts it, and moves the parser (R175). -/
def rxDrop (st : RxState) (s : State) : State :=
  { s with fr := { s.fr with rx := st, rxBuf := [], diagCount := s.fr.diagCount + 1#32 } }

/-- The commit of the frame in `FR.rx_buf` (R172). -/
def rxCommit (s : State) : State :=
  { s with fr := { s.fr with
      slots := commitSlots 1 s.fr.rxBuf s.fr.slots
      notify := s.fr.notify ++ commitNotes 1 s.fr.rxBuf s.fr.slots
      rx := .inBreak
      rxBuf := [] } }

/-- `RxOff` and `RxWaitBreak` aside, `BREAK` in each parser state (R171, R172, R174, R177). -/
def onBreak (s : State) : State :=
  match s.fr.rx with
  | .off => s
  | .waitBreak => rxGoto .inBreak s
  | .inBreak => s
  | .mab => s
  | .startCode => rxDrop .inBreak s
  | .slots =>
    if s.fr.rxBuf ≠ [] ∨ s.cfg.acceptZeroSlotFrame = true then rxCommit s else rxDrop .inBreak s
  | .discard => rxGoto .inBreak s

/-- `RISE(t)` (R173). -/
def onRise (t : Nat) (s : State) : State :=
  match s.fr.rx with
  | .inBreak => { s with fr := { s.fr with rx := .mab, rxMarkStart := t } }
  | .off => s
  | .waitBreak => s
  | .mab => s
  | .startCode => s
  | .slots => s
  | .discard => s

/-- `BYTE(b)` (R171, R174, R176, R177). -/
def onByte (b : Byte) (s : State) : State :=
  match s.fr.rx with
  | .startCode => if b = startCode then rxGoto .slots s else rxDrop .discard s
  | .slots =>
    if s.fr.rxBuf.length < 512 then { s with fr := { s.fr with rxBuf := s.fr.rxBuf ++ [b] } }
    else rxDrop .discard s
  | .off => s
  | .waitBreak => s
  | .inBreak => s
  | .mab => s
  | .discard => s

/-- `FRAMING_ERROR` (R171, R174, R176, R177). -/
def onFramingError (s : State) : State :=
  match s.fr.rx with
  | .startCode => rxDrop .discard s
  | .slots => rxDrop .discard s
  | .off => s
  | .waitBreak => s
  | .inBreak => s
  | .mab => s
  | .discard => s

/-- The falling edge that ends the mark-after-break (R164, R174). -/
def onMabEnd (t : Nat) (s : State) : State :=
  match s.fr.rx with
  | .mab =>
    if t - s.fr.rxMarkStart < s.cfg.rxMabMinUs then rxDrop .discard s
    else { s with fr := { s.fr with rx := .startCode } }
  | .off => s
  | .waitBreak => s
  | .inBreak => s
  | .startCode => s
  | .slots => s
  | .discard => s

/-- One step of the parser on one symbol (R180). A cell the table says cannot occur keeps the state (log 16). -/
def onSymbol (y : Symbol) (s : State) : State :=
  match y with
  | .brk => onBreak s
  | .rise t => onRise t s
  | .byte b => onByte b s
  | .framingError => onFramingError s
  | .mabEnd t => onMabEnd t s

/-- Replaces the front end's state. -/
def setFront (f : FrontEnd) (s : State) : State := { s with fr := { s.fr with front := f } }

/-- The front end as it starts when receiver mode is entered and as it rests in controller mode: no run and no byte in
progress, the line at the level it has (R160, log 11). -/
def frontRest (level : Level) : FrontEnd := { level := level, run := .none, sampler := none, guard := 0 }

/-- A falling edge (R160, R162): it begins a low run, and a byte unless one is in progress or the guard has not passed. -/
def frontFall (now : Nat) (f : FrontEnd) : FrontEnd :=
  match f.sampler with
  | some _ => { f with level := .space, run := .low now false }
  | none =>
    if f.guard ≤ now then
      { level := .space, run := .low now false, sampler := some { start := now, bits := [] }, guard := now + 10 * tBit }
    else { f with level := .space, run := .low now false }

/-- Ends the byte that began at the falling edge of a break (R161). -/
def dropSampler (tf : Nat) (p : Option Sampler) : Option Sampler :=
  match p with
  | some b => if b.start = tf then none else some b
  | none => none

/-- The run since `tf` is known to be a break (R161): the front end notes it and the parser takes `BREAK`. -/
def breakQualified (tf : Nat) (s : State) : State :=
  onSymbol .brk (setFront { s.fr.front with run := .brk tf, sampler := dropSampler tf s.fr.front.sampler } s)

/-- A rising edge ends the run, by its length (R161, R163). -/
def runEnds (s : State) : State :=
  match s.fr.front.run with
  | .none => s
  | .brk _ => onSymbol (.rise s.now) (setFront { s.fr.front with run := .none } s)
  | .low tf deferred =>
    if s.cfg.rxBreakMinUs ≤ s.now - tf then
      let s1 := breakQualified tf s
      onSymbol (.rise s.now) (setFront { s1.fr.front with run := .none } s1)
    else
      let s1 := setFront { s.fr.front with run := .none } s
      if deferred then onSymbol .framingError s1 else s1

/-- The DMX RX line takes a level now (R160, R170): a level it has already is no edge, and in controller mode the front
end does not run. -/
def dmxEdge (level : Level) (s : State) : State :=
  if s.fr.front.level = level then s
  else match s.fr.mode with
    | .controller => setFront { s.fr.front with level := level } s
    | .receiver =>
      match level with
      | .space => setFront (frontFall s.now s.fr.front) (onSymbol (.mabEnd s.now) s)
      | .mark => runEnds (setFront { s.fr.front with level := .mark } s)

/-- The instant of a byte's next sample: the centre of bit time `j` (R162). -/
def sampleAt (b : Sampler) : Nat := b.start + tBit * b.bits.length + 2

/-- The run that began with the byte at `start` is still low (R163). -/
def stillLow (start : Nat) (run : LowRun) : Bool :=
  match run with
  | .low tf _ => decide (tf = start)
  | .none => false
  | .brk _ => false

/-- The byte value of the samples `j = 1 .. 8` (R162). -/
def sampledByte (bits : List Bool) : Byte := BitVec.ofNat 8 (byteOfBits ((bits.drop 1).take 8))

/-- One sample (R162): a start bit at `Mark` was a glitch; after the first stop bit the byte is classified, a byte whose
run is still low being deferred (R163). -/
def takeSample (b : Sampler) (s : State) : State :=
  let f := s.fr.front
  let v := decide (f.level = .mark)
  if b.bits = [] ∧ v = true then setFront { f with sampler := none, guard := 0 } s
  else if b.bits.length < 9 then setFront { f with sampler := some { b with bits := b.bits ++ [v] } } s
  else if v = true then onSymbol (.byte (sampledByte b.bits)) (setFront { f with sampler := none } s)
  else if stillLow b.start f.run = true then
    setFront { f with sampler := none, run := .low b.start true } s
  else onSymbol .framingError (setFront { f with sampler := none } s)

/-- When the byte in progress is sampled next. -/
def sampleDueAt (s : State) : Option Nat :=
  match s.fr.mode, s.fr.front.sampler with
  | .receiver, some b => some (sampleAt b)
  | .receiver, none => none
  | .controller, _ => none

/-- When the run in progress becomes a break (R161). -/
def breakDueAt (s : State) : Option Nat :=
  match s.fr.mode, s.fr.front.run with
  | .receiver, .low tf _ => some (tf + s.cfg.rxBreakMinUs)
  | .receiver, .none => none
  | .receiver, .brk _ => none
  | .controller, _ => none

/-- The sampling step. -/
def sampleStep (s : State) : State :=
  match s.fr.front.sampler with
  | some b => takeSample b s
  | none => s

/-- The break qualification step. -/
def breakStep (s : State) : State :=
  match s.fr.front.run with
  | .low tf _ => breakQualified tf s
  | .none => s
  | .brk _ => s

end Sys2Proof.Machine
end

