-- ==== Sys2Proof/Machine/Sequencer.lean ====
section
/-! DEFINITION. The DMX transmit sequencer (40_dmx_framer.md R140 to R146) and the level of the DMX line inside a byte
(R143). -/

namespace Sys2Proof.Machine

/-- `T_FRAME` (R9, R146). -/
def frameTime (c : Config) : Nat := c.txBreakUs + c.txMabUs + 513 * tByte + 512 * c.txInterslotUs

/-- The level of the DMX line at `now` (R143): inside a byte that ends at `tx_seg_end`, that of bit time
`(now - s) div 4` with `s = tx_seg_end - 44`; in every other segment the level that was driven last. -/
def lineLevel (now : Nat) (f : Framer) : Level :=
  match f.tx with
  | .byte k => byteLevel (f.txSnap.getD k 0x00#8) ((now + tByte - f.txSegEnd) / tBit)
  | .idle => f.dmxTx
  | .brk => f.dmxTx
  | .mab => f.dmxTx
  | .gap _ => f.dmxTx

/-- Starts a segment of `dur` µs at `now` with the line at `level` (R140 to R142). -/
def startSegment (seg : TxState) (level : Level) (dur : Nat) (s : State) : State :=
  { s with fr := { s.fr with tx := seg, txSegEnd := s.now + dur, dmxTx := level } }

/-- Starts byte `k` of the frame: its first bit time is the start bit (R101, R141, R142). -/
def startByte (k : Nat) (s : State) : State :=
  startSegment (.byte k) (byteLevel (s.fr.txSnap.getD k 0x00#8) 0) tByte s

/-- Completion of a transmit (R145). -/
def transmitDone (s : State) : State :=
  respondTo s.fr.txIssuer [outcomeByte .ok]
    { s with fr := { s.fr with dmxTx := .mark, tx := .idle, txIssuer := none } }

/-- When the sequencer's next step is due (R140). -/
def txDueAt (s : State) : Option Nat :=
  match s.fr.tx with
  | .idle => none
  | .brk => some s.fr.txSegEnd
  | .mab => some s.fr.txSegEnd
  | .byte _ => some s.fr.txSegEnd
  | .gap _ => some s.fr.txSegEnd

/-- The sequencer's step at a segment's end (R140 to R142, R145). -/
def txStep (s : State) : State :=
  match s.fr.tx with
  | .idle => s
  | .brk => startSegment .mab .mark s.cfg.txMabUs s
  | .mab => startByte 0 s
  | .byte k =>
    if k < 512 then
      if s.cfg.txInterslotUs = 0 then startByte (k + 1) s
      else startSegment (.gap k) .mark s.cfg.txInterslotUs s
    else transmitDone s
  | .gap k => startByte (k + 1) s

end Sys2Proof.Machine
end

