-- ==== Sys2Proof/Machine/FramerCommands.lean ====
section
/-! DEFINITION. The framer commands (40_dmx_framer.md R130 to R135), with the check order of 60_exceptions.md R284. -/

namespace Sys2Proof.Machine

/-- `DMX_WRITE` (R130). -/
def execDmxWrite (addr : Half) (value : Byte) (s : State) : Out :=
  if slotLegal addr.toNat then
    .next (returnOk [] { s with fr := { s.fr with slots := slotWrite s.fr.slots addr.toNat value } })
  else .next (raiseOutcome .outOfRange s)

/-- `DMX_READ` (R131). -/
def execDmxRead (addr : Half) (s : State) : Out :=
  if slotLegal addr.toNat then .next (returnOk [slotRead s.fr.slots addr.toNat] s)
  else .next (raiseOutcome .outOfRange s)

/-- The acceptance of a transmit (R132): the snapshot is taken, the break begins. -/
def beginTransmit (s : State) : State :=
  startSegment .brk .space s.cfg.txBreakUs
    { s with fr := { s.fr with txSnap := startCode :: slotImage s.fr.slots, txIssuer := some s.port.agent } }

/-- `DMX_TRANSMIT` (R132): the response follows when the sequencer has sent the frame (R145). -/
def execDmxTransmit (s : State) : Out :=
  if s.fr.mode = .receiver then .next (raiseOutcome .modeError s)
  else if s.fr.tx ≠ .idle then .next (raiseOutcome .busBusy s)
  else .next (beginTransmit s)

/-- The mode an operand names (R133, R34). -/
def modeOf (mode : Byte) : Mode := if mode = 0x00#8 then .controller else .receiver

/-- Enters receiver mode: the driver is off and the parser waits for a break (R133). -/
def enterReceiver (s : State) : State :=
  { s with fr := { s.fr with
      mode := .receiver
      dmxTxEn := false
      rx := .waitBreak
      rxBuf := []
      front := frontRest s.fr.front.level } }

/-- Enters controller mode: a frame partly received is discarded, not counted; the line is driven at `Mark` (R133). -/
def enterController (s : State) : State :=
  { s with fr := { s.fr with
      mode := .controller
      rx := .off
      rxBuf := []
      dmxTxEn := true
      dmxTx := .mark
      front := frontRest s.fr.front.level } }

/-- `DMX_SET_MODE` (R133). -/
def execDmxSetMode (mode : Byte) (s : State) : Out :=
  if 1 < mode.toNat then .next (raiseOutcome .outOfRange s)
  else if s.fr.tx ≠ .idle then .next (raiseOutcome .busBusy s)
  else if modeOf mode = s.fr.mode then .next (returnOk [] s)
  else match modeOf mode with
    | .receiver => .next (returnOk [] (enterReceiver s))
    | .controller => .next (returnOk [] (enterController s))

/-- `DMX_GET_MODE` (R134). -/
def execDmxGetMode (s : State) : Out := .next (returnOk [modeByte s.fr.mode] s)

/-- `DMX_READ_DIAG` (R135). -/
def execDmxReadDiag (s : State) : Out := .next (returnOk (leEncode s.fr.diagCount.toNat 4) s)

end Sys2Proof.Machine
end

