-- ==== Sys2Proof/Machine/Wire.lean ====
section
/-! DEFINITION. The chain wire commands (30_encoding.md R114): the CommandFrames the block itself builds. The meaning of
one is what the block does with it: it becomes the request frame and an attempt starts (R110, R203). What the unit that
receives it does is outside the block (20_memory.md R73). Every acceptance of CH_READ_REG, CH_WRITE_REG and
CH_ENUMERATE, every next ping and every retry puts one of them on the wire (log 6). -/

namespace Sys2Proof.Machine

/-- `CHAIN_READ`: `[dest, 0x01, 1, reg, checksum]` (R114, R235). -/
def execChainRead (dest reg : Byte) (s : State) : Out :=
  .next (sendFrame dest readCode (readPayload reg) s)

/-- `CHAIN_WRITE`: `[dest, 0x02, 1 + width, reg, v.., checksum]` (R114, R237). -/
def execChainWrite (dest reg : Byte) (v : List Byte) (s : State) : Out :=
  .next (sendFrame dest writeCode (writePayload reg v) s)

/-- `CHAIN_PING`: `[dest, PING_CODE, 0, checksum]` (R114, R231). -/
def execChainPing (dest : Byte) (s : State) : Out :=
  .next (sendFrame dest s.cfg.pingCode [] s)

end Sys2Proof.Machine
end

