-- ==== Sys2Proof/Machine/Dispatch.lean ====
section
/-! DEFINITION. One arm per instruction: the meaning it calls. -/

namespace Sys2Proof.Machine

def exec (i : Instr) (s : State) : Host.Outcome State Fault Refusal :=
  match i with
  | .dmxWrite addr value => Sys2Proof.Machine.execDmxWrite addr value s
  | .dmxRead addr => Sys2Proof.Machine.execDmxRead addr s
  | .dmxTransmit => Sys2Proof.Machine.execDmxTransmit s
  | .dmxSetMode mode => Sys2Proof.Machine.execDmxSetMode mode s
  | .dmxGetMode => Sys2Proof.Machine.execDmxGetMode s
  | .dmxReadDiag => Sys2Proof.Machine.execDmxReadDiag s
  | .chSend index code len payload => Sys2Proof.Machine.execChSend index code len payload s
  | .chReadReg index reg => Sys2Proof.Machine.execChReadReg index reg s
  | .chWriteReg index reg width v => Sys2Proof.Machine.execChWriteReg index reg width v s
  | .chEnumerate => Sys2Proof.Machine.execChEnumerate s
  | .chInvalidate => Sys2Proof.Machine.execChInvalidate s
  | .chLookup index => Sys2Proof.Machine.execChLookup index s
  | .chGetState => Sys2Proof.Machine.execChGetState s
  | .chainRead dest reg => Sys2Proof.Machine.execChainRead dest reg s
  | .chainWrite dest reg v => Sys2Proof.Machine.execChainWrite dest reg v s
  | .chainPing dest => Sys2Proof.Machine.execChainPing dest s

end Sys2Proof.Machine
end

