-- ==== Sys2Proof/Machine/Time.lean ====
section
/-! DEFINITION. The time base and the choice of the agent that moves (44_serial_timing.md R260, R266): TC, the line
environments, the reset input (70_reset_and_hazards.md R310, R311), and the delivery of the next host command
(30_encoding.md R90). What plain data in State leaves to choose is log 2 and log 3. -/

namespace Sys2Proof.Machine

/-- An instant that is due now or was due before. -/
def due (s : State) (t : Option Nat) : Bool :=
  match t with
  | some t => decide (t ≤ s.now)
  | none => false

/-- When the next line event comes. -/
def lineDueAt (s : State) : Option Nat := s.lineIn.head?.map LineInput.time

/-- When the next host command comes. -/
def hostDueAt (s : State) : Option Nat := s.port.inputs.head?.map HostInput.time

/-- A line event or an internal step is due now. -/
def otherDue (s : State) : Bool :=
  due s (lineDueAt s) || due s (chainDueAt s) || due s (txDueAt s) || due s (sampleDueAt s) || due s (breakDueAt s)

/-- The pending instants TC must not pass (R260). -/
def pending (s : State) : List Nat :=
  [hostDueAt s, lineDueAt s, chainDueAt s, txDueAt s, sampleDueAt s, breakDueAt s].filterMap id

/-- TC (R17, R260): `now` goes to the earliest pending instant; with none pending, 1 µs on (log 3). The DMX line takes
the level it has at that instant (R143). -/
def advanceTime (s : State) : State :=
  let t := match pending s with
    | [] => s.now + 1
    | p :: ps => ps.foldl min p
  { s with now := t, fr := { s.fr with dmxTx := lineLevel t s.fr } }

/-- The earlier instants of inputs still to come, counted from a reset at `now` (log 17). -/
def rebaseHost (now : Nat) (h : HostInput) : HostInput := { h with time := h.time - now }

/-- The same for line inputs. -/
def rebaseLine (now : Nat) (e : LineInput) : LineInput := { e with time := e.time - now }

/-- The reset input (R310, R311): every field of the block at its value of R56; the parameters (R8), the level the
environment drives on DMX RX, and what the environment will do are not the block's to reset (log 17). A command in
progress gets no response. -/
def resetBlock (s : State) : State :=
  { State.reset with
    cfg := s.cfg
    fr := { State.reset.fr with front := frontRest s.fr.front.level }
    chp :=
      let p := if s.ch.state = .sent then nextDraw s.chp else s.chp
      { State.reset.chp with draws := p.draws, drawCount := p.drawCount }
    port := { State.reset.port with inputs := s.port.inputs.map (rebaseHost s.now) }
    lineIn := s.lineIn.map (rebaseLine s.now) }

/-- One line event. -/
def lineEvent (e : LineEvent) (s : State) : State :=
  match e with
  | .dmxEdge level => dmxEdge level s
  | .chainByte b => chainByteArrives b s
  | .reset => resetBlock s
  | .pass => s

/-- One of the other steps due at this instant went before the waiting command (R266, log 2). -/
def hostWaited (s : State) : State :=
  match s.port.inputs with
  | h :: hs =>
    if h.time ≤ s.now then { s with port := { s.port with inputs := { h with after := h.after - 1 } :: hs } } else s
  | [] => s

/-- The internal step or, with none due, the time step. -/
def internalStep (s : State) : State :=
  if due s (chainDueAt s) then chainStep (hostWaited s)
  else if due s (txDueAt s) then txStep (hostWaited s)
  else if due s (sampleDueAt s) then sampleStep (hostWaited s)
  else if due s (breakDueAt s) then breakStep (hostWaited s)
  else advanceTime s

/-- A step in which no command is accepted: line events first (R205, R266), then internal steps, then time. -/
def background (s : State) : State :=
  match s.lineIn with
  | e :: es =>
    if e.time ≤ s.now then lineEvent e.event { hostWaited s with lineIn := es } else internalStep s
  | [] => internalStep s

/-- The host command to accept in this step, if there is one: its bytes, and the state with the command taken from the
port and its agent noted (R82, R90). -/
def fetch (s : State) : Option (List Byte × State) :=
  match s.port.inputs with
  | h :: hs =>
    if h.time ≤ s.now ∧ (h.after = 0 ∨ otherDue s = false) then
      some (h.bytes, { s with port := { s.port with inputs := hs, agent := h.agent } })
    else none
  | [] => none

/-- Presents a host command of agent 0 to be accepted by the very next step (log 5). -/
def deliverCommand (bytes : List Byte) (s : State) : State :=
  { s with port := { s.port with
      inputs := { time := s.now, after := 0, agent := 0, bytes := bytes } :: s.port.inputs } }

/-- Makes `frame` the frame the chain engine sends in the very next step: a request of agent 0 whose first attempt has
just timed out with a retry left (R208, log 6). -/
def deliverFrame (frame : List Byte) (s : State) : State :=
  { s with
    ch := { s.ch with
      op := .send, issuer := some 0, state := .awaitingResponse, txEn := false
      req := frame, index := frame.getD 0 0x00#8
      attempt := 0, retries := 1, deadline := s.now, rx := [] }
    port := { s.port with inputs := [] }
    lineIn := [] }

end Sys2Proof.Machine
end

