-- ==== Sys2Proof/Machine/Step.lean ====
section
/-! DEFINITION. One step: a host command is accepted where one is to be accepted now, decoded and executed, or answered
`IllegalCommand` (30_encoding.md R91, R95); otherwise one of the other agents moves (44_serial_timing.md R260). -/

namespace Sys2Proof.Machine

/-- One step of the block. -/
def step (s : State) : Host.Outcome State Fault Refusal :=
  match fetch s with
  | some (bytes, t) =>
    match Sys2Proof.decode bytes with
    | .ok i => exec i t
    | .error _ => .next (raiseOutcome .illegalCommand t)
  | none => .next (background s)

/-- `s` with the instruction of the table word placed where the next step fetches it (log 5): a host command is presented
on the host command port; a word that only the chain wire has becomes the frame the engine sends next (log 6). -/
def State.withFetchWord (s : State) (nbits w : Nat) : State :=
  match Sys2Proof.decode (Sys2Proof.tableBytes nbits w), Sys2Proof.decodeTableWord nbits w with
  | .error _, some _ => deliverFrame (Sys2Proof.tableFrame w) s
  | .error _, none => deliverCommand (Sys2Proof.tableBytes nbits w) s
  | .ok _, _ => deliverCommand (Sys2Proof.tableBytes nbits w) s

end Sys2Proof.Machine
end

