-- ==== Sys2Proof/Safety.lean ====
section
/-! DEFINITION. What holds of the block in every state a run can be in, in the terms the statements use: one invariant
per unit, each clause the sentence of spec/ its comment names, and the vocabulary of statements about one step. -/

namespace Sys2Proof.Machine

/-- No host command and no line event is due at this instant. -/
def noInputDue (s : State) : Bool := !due s (hostDueAt s) && !due s (lineDueAt s)

/-- No input is still to come. -/
def noInputs (s : State) : Bool := decide (s.port.inputs = []) && decide (s.lineIn = [])

/-- The line event at the head of the queue is due, and no host command goes before it. -/
def lineEventNext (s : State) (e : LineEvent) (rest : List LineInput) : Bool :=
  !due s (hostDueAt s) && due s (lineDueAt s) &&
    match s.lineIn with
    | h :: hs => decide (h.event = e) && decide (hs = rest)
    | [] => false

/-- The reset input is asserted in this step. -/
def resetNow (s : State) : Bool :=
  due s (lineDueAt s) && decide (s.lineIn.head?.map LineInput.event = some .reset)

/-- The instruction belongs to the framer (40_dmx_framer.md); the others are the chain engine's. -/
def ofFramer : Instr → Bool
  | .dmxWrite _ _ => true
  | .dmxRead _ => true
  | .dmxTransmit => true
  | .dmxSetMode _ => true
  | .dmxGetMode => true
  | .dmxReadDiag => true
  | .chSend _ _ _ _ => false
  | .chReadReg _ _ => false
  | .chWriteReg _ _ _ _ => false
  | .chEnumerate => false
  | .chInvalidate => false
  | .chLookup _ => false
  | .chGetState => false
  | .chainRead _ _ => false
  | .chainWrite _ _ _ => false
  | .chainPing _ => false

/-- The instruction is a call to one unit: `CH_SEND`, `CH_READ_REG` or `CH_WRITE_REG` (R209, R213). -/
def isUnitCall : Instr → Bool
  | .chSend _ _ _ _ => true
  | .chReadReg _ _ => true
  | .chWriteReg _ _ _ _ => true
  | .dmxWrite _ _ => false
  | .dmxRead _ => false
  | .dmxTransmit => false
  | .dmxSetMode _ => false
  | .dmxGetMode => false
  | .dmxReadDiag => false
  | .chEnumerate => false
  | .chInvalidate => false
  | .chLookup _ => false
  | .chGetState => false
  | .chainRead _ _ => false
  | .chainWrite _ _ _ => false
  | .chainPing _ => false

/-- The time from the end of a segment to the end of the frame, by the segments still to come (R262). -/
def segmentsAfter (c : Config) : TxState → Nat
  | .idle => 0
  | .brk => c.txMabUs + 513 * tByte + 512 * c.txInterslotUs
  | .mab => 513 * tByte + 512 * c.txInterslotUs
  | .byte k => (512 - k) * (tByte + c.txInterslotUs)
  | .gap k => (512 - k) * tByte + (511 - k) * c.txInterslotUs

/-- The instant at which the frame being sent ends (R262). -/
def frameEndAt (s : State) : Nat := s.fr.txSegEnd + segmentsAfter s.cfg s.fr.tx

/-- The units of a list stand at rising indices above `lo` and at most `hi`, without a version (R51). -/
def unitsRising (lo hi : Nat) : List ChainUnit → Bool
  | [] => true
  | u :: us =>
    decide (lo < u.index.toNat) && decide (u.index.toNat ≤ hi) && decide (u.version = none) &&
      unitsRising u.index.toNat hi us

/-- The framer's invariant. -/
structure FramerInv (s : State) : Prop where
  /-- The slot space keeps its canonical form (R70, R71). -/
  slots_wf : s.fr.slots.wf = true
  /-- `DMX_TX_EN` is 1 exactly when the mode is `Controller` (R40). -/
  driver : s.fr.dmxTxEn = decide (s.fr.mode = .controller)
  /-- `FR.rx = RxOff` exactly when the mode is `Controller` (R170). -/
  parser_off : s.fr.rx = .off ↔ s.fr.mode = .controller
  /-- A frame is sent only in controller mode (R132, R133). -/
  sending : s.fr.tx ≠ .idle → s.fr.mode = .controller
  /-- An agent waits exactly while a frame is being sent (R132, R145). -/
  waiting : s.fr.tx = .idle ↔ s.fr.txIssuer = none
  /-- The snapshot has 513 bytes, the start code first (R37). -/
  snapshot : s.fr.txSnap.length = 513 ∧ s.fr.txSnap.head? = some startCode
  /-- `TxByte(k)` has `k` in 0..512 (R36). -/
  byte_position : ∀ k, s.fr.tx = .byte k → k ≤ 512
  /-- `TxGap(k)` has `k` in 0..511 (R36). -/
  gap_position : ∀ k, s.fr.tx = .gap k → k ≤ 511
  /-- `now` never passes the end of the segment (R260). -/
  segment : s.fr.tx ≠ .idle → s.now ≤ s.fr.txSegEnd
  /-- A byte occupies 44 µs (R101). -/
  byte_time : ∀ k, s.fr.tx = .byte k → s.fr.txSegEnd ≤ s.now + tByte
  /-- The line idles at `Mark` (R40). -/
  idle_level : s.fr.tx = .idle → s.fr.dmxTx = .mark
  /-- The break is low (R132, R263). -/
  break_level : s.fr.tx = .brk → s.fr.dmxTx = .space
  /-- The mark-after-break is high (R140). -/
  mab_level : s.fr.tx = .mab → s.fr.dmxTx = .mark
  /-- The inter-slot mark is high (R142). -/
  gap_level : ∀ k, s.fr.tx = .gap k → s.fr.dmxTx = .mark
  /-- Inside a byte the line has the level of its bit time (R143). -/
  byte_level : s.fr.dmxTx = lineLevel s.now s.fr
  /-- `FR.rx_buf` has at most 512 bytes (R38, R176). -/
  buffer : s.fr.rxBuf.length ≤ 512
  /-- Slots are buffered only in `RxSlots` (R171 to R177). -/
  buffer_empty : s.fr.rx ≠ .slots → s.fr.rxBuf = []

/-- The receive front end's invariant: what makes the cells of R180 that say "cannot occur" and "edge first" so. -/
structure ReceiverInv (s : State) : Prop where
  /-- The front end does not run in controller mode (R160). -/
  rest : s.fr.mode = .controller → s.fr.front = frontRest s.fr.front.level
  /-- A byte is sampled at most ten times, at instants TC does not pass (R162, R260). -/
  sampling : ∀ b, s.fr.front.sampler = some b → b.bits.length ≤ 9 ∧ b.start ≤ s.now ∧ s.now ≤ sampleAt b
  /-- A run that is not a break is shorter than a break, or just as long, and low (R161, R260). -/
  low_run : ∀ tf d, s.fr.front.run = .low tf d →
    s.fr.front.level = .space ∧ tf ≤ s.now ∧ s.now ≤ tf + s.cfg.rxBreakMinUs
  /-- The byte in progress began no later than the run in progress (R162). -/
  byte_before_run : ∀ tf d b, s.fr.front.run = .low tf d → s.fr.front.sampler = some b → b.start ≤ tf
  /-- During a break the line is low and no byte is sampled (R161, R173). -/
  break_run : ∀ tf, s.fr.front.run = .brk tf → s.fr.front.level = .space ∧ s.fr.front.sampler = none
  /-- The parser is in `RxInBreak` exactly during a break (R171 to R174, R177). -/
  in_break : s.fr.rx = .inBreak ↔ ∃ tf, s.fr.front.run = .brk tf
  /-- During the mark-after-break the line is high, with no run and no byte in progress (R173, R174). -/
  in_mab : s.fr.rx = .mab →
    s.fr.front.level = .mark ∧ s.fr.front.run = .none ∧ s.fr.front.sampler = none
  /-- The parser is off exactly in controller mode (R170). -/
  parser_off : s.fr.rx = .off ↔ s.fr.mode = .controller

/-- The chain engine's invariant. -/
structure ChainInv (s : State) : Prop where
  /-- `CHAIN_TX_EN` is 1 exactly while `CH.state = Sent` (R41). -/
  driver : s.ch.txEn = decide (s.ch.state = .sent)
  /-- `CH.op ≠ None` exactly while a chain command is in progress (R44, R190). -/
  busy : s.ch.op ≠ .none ↔ outstanding s.ch.state = true
  /-- An agent waits exactly while a chain command is in progress (R44). -/
  issuer : s.ch.op = .none ↔ s.ch.issuer = none
  /-- The request is a CommandFrame to `CH.index` (R45, R110). -/
  frame : outstanding s.ch.state = true →
    ∃ code p, p.length ≤ 255 ∧ s.ch.req = build s.ch.index code p
  /-- At most one retry (R45, R208). -/
  attempts : s.ch.attempt ≤ s.ch.retries ∧ s.ch.retries ≤ 1
  /-- The write in progress has begun, and TC does not pass its end (R204, R260). -/
  writing : s.ch.state = .sent → s.chp.writeStart ≤ s.now ∧ s.now ≤ writeEnd s
  /-- The response window is open and no longer than the timeout (R204, R260, R265). -/
  window : s.ch.state = .awaitingResponse →
    s.now ≤ s.ch.deadline ∧ s.ch.deadline ≤ s.now + s.cfg.timeoutMs * 1000
  /-- A frame that is awaited is incomplete (R205, R206). -/
  incomplete : s.ch.state = .awaitingResponse → s.ch.rx.length < 3 ∨ s.ch.rx.length < 4 + frameLen s.ch.rx
  /-- Nothing is received while the request is written (R203, R205). -/
  rx_empty : s.ch.state = .sent → s.ch.rx = []
  /-- `CH.rx` has at most 259 bytes (R46). -/
  rx_length : s.ch.rx.length ≤ 259
  /-- The walk pings its cursor, once, within 1..ENUM_N (R231, R232). -/
  cursor : s.ch.op = .enumerate → 1 ≤ s.ch.enumCursor.toNat ∧ s.ch.enumCursor.toNat ≤ s.cfg.enumN ∧
    s.ch.index = s.ch.enumCursor ∧ s.ch.retries = 0
  /-- The units found so far stand at rising indices below the cursor (R232). -/
  found : s.ch.op = .enumerate → unitsRising 0 (s.ch.enumCursor.toNat - 1) s.ch.enumAcc = true
  /-- The registry stands in ascending index order within 1..ENUM_N, no index twice, no version (R51). -/
  registry : unitsRising 0 s.cfg.enumN s.ch.registry = true
  /-- `CH.to_run` saturates at the threshold (R52). -/
  run_bound : ∀ i, timeoutRun s i ≤ s.cfg.staleThreshold
  /-- An index that is not stale has not reached the threshold (R240). -/
  not_stale : ∀ i, isStale s i = false → timeoutRun s i < s.cfg.staleThreshold
  /-- `CH.last_outcome` is an outcome code or 0xFF (R48, R280). -/
  last_outcome : s.ch.lastOutcome = 0xFF#8 ∨ s.ch.lastOutcome.toNat ≤ 10

/-- What holds of every state a run can be in. -/
structure Inv (s : State) : Prop where
  admissible : s.cfg.admissible = true
  framer : FramerInv s
  receiver : ReceiverInv s
  chain : ChainInv s

end Sys2Proof.Machine
end

