-- ==== Sys2Proof/Certificates/Slice0/Obligations.lean ====
section
/-! DEFINITION. The statements for the provers, in the order of OBLIGATIONS.json: encodings, the step, the framer, the
receiver, the chain engine, enumeration and registry, whole-machine rules, invariants, reset. -/

open Sys2Proof Sys2Proof.Machine

/-- Every well-formed host command decodes from its own bytes (R91 to R94). -/
def Obligations.HostCommandDecodesBack : Prop :=
  ∀ (ping : Byte) (i : Instr), i.WellFormed → i.onWire = false → decode (encode ping i) = .ok i

/-- Every well-formed wire command decodes from its own frame, for every admissible `PING_CODE` (R110, R111, R114). -/
def Obligations.WireFrameDecodesBack : Prop :=
  ∀ (ping : Byte) (i : Instr), ping ≠ readCode → ping ≠ writeCode → i.WellFormed → i.onWire = true →
    decodeFrame ping (encode ping i) = .ok i

/-- A byte sequence the host port decodes is the encoding of what it decodes to, and that is well formed. -/
def Obligations.DecodedCommandHasItsBytes : Prop :=
  ∀ (ping : Byte) (c : List Byte) (i : Instr), decode c = .ok i →
    encode ping i = c ∧ i.WellFormed ∧ i.onWire = false

/-- A frame the wire decoder accepts is the encoding of what it decodes to, and that is well formed. -/
def Obligations.DecodedFrameHasItsBytes : Prop :=
  ∀ (ping : Byte) (f : List Byte) (i : Instr), decodeFrame ping f = .ok i →
    encode ping i = f ∧ i.WellFormed ∧ i.onWire = true

/-- A command decodes exactly where its opcode is assigned and it has the length R91 expects; the assigned opcodes are
the thirteen of R92. -/
def Obligations.CommandDecodesExactlyAtItsLength : Prop :=
  ∀ c : List Byte,
    ((∃ i, decode c = .ok i) ↔ hostLength c = some c.length) ∧
    (hostLength c ≠ none ↔
      (c.getD 0 0x00#8).toNat ∈ [0x01, 0x02, 0x03, 0x04, 0x05, 0x06, 0x10, 0x11, 0x12, 0x13, 0x14, 0x15, 0x16])

/-- Words written out from R93 decode to the instructions they stand for. -/
def Obligations.WrittenOutWordsDecode : Prop :=
  decode [0x01#8, 0x00#8, 0x02#8, 0x07#8] = .ok (.dmxWrite 512#16 0x07#8) ∧
  decode [0x02#8, 0x01#8, 0x02#8] = .ok (.dmxRead 513#16) ∧
  decode [0x10#8, 0x03#8, 0x01#8, 0x01#8, 0x00#8, 0xAA#8] = .ok (.chSend 0x03#8 0x01#8 1#16 [0xAA#8]) ∧
  decode [0x12#8, 0x03#8, 0x05#8, 0x02#8, 0x34#8, 0x12#8] = .ok (.chWriteReg 0x03#8 0x05#8 0x02#8 [0x34#8, 0x12#8]) ∧
  decodeFrame 0x00#8 [0x03#8, 0x02#8, 0x03#8, 0x05#8, 0x34#8, 0x12#8, 0x21#8] =
    .ok (.chainWrite 0x03#8 0x05#8 [0x34#8, 0x12#8])

/-- A step at which a host command is to be accepted and whose bytes decode runs the decoded instruction, on the state
from which the command has been taken and in which its agent is noted. Commands waiting in the port with a time and a
number of steps to let go first are the model's own (log 2, log 5). -/
def Obligations.StepRunsDecodedCommand : Prop :=
  ∀ (s : State) (h : HostInput) (hs : List HostInput) (i : Instr), s.port.inputs = h :: hs → h.time ≤ s.now →
    (h.after = 0 ∨ otherDue s = false) → decode h.bytes = .ok i →
    step s = exec i { s with port := { s.port with inputs := hs, agent := h.agent } }

/-- A command with an unassigned opcode or a wrong length is answered `[0x0A]` to the agent that issued it, and nothing
else changes (R91, R95); that a command waits in the port until it is accepted is the model's own (log 2). -/
def Obligations.IllegalCommandIsRefused : Prop :=
  ∀ (s : State) (h : HostInput) (hs : List HostInput), s.port.inputs = h :: hs → h.time ≤ s.now →
    (h.after = 0 ∨ otherDue s = false) → hostLength h.bytes ≠ some h.bytes.length →
    step s = .next { s with port :=
      { inputs := hs
        agent := h.agent
        responses := s.port.responses ++ [{ agent := h.agent, time := s.now, bytes := [0x0A#8] }] } }

/-- At a deadline with a retry left the step runs the wire command that stands in `CH.req`, with one more attempt
started (R208, R203): the engine's own fetch (log 6). That the engine's step goes first where another internal step is due
at the same instant is the model's choice (log 19). -/
def Obligations.StepResendsWireCommand : Prop :=
  ∀ (s : State) (i : Instr), noInputDue s = true → s.ch.state = .awaitingResponse → frameComplete s.ch.rx = false →
    s.ch.deadline ≤ s.now → (s.ch.rx = [] ∨ s.cfg.partialFrameOutcome = .timeout) → s.ch.attempt < s.ch.retries →
    decodeFrame s.cfg.pingCode s.ch.req = .ok i →
    step s = exec i { s with ch := { s.ch with attempt := s.ch.attempt + 1 } }

/-- No step ends in a fault or a refusal: nothing halts the block (R281, R286). -/
def Obligations.EveryStepAnswersNext : Prop := ∀ s : State, ∃ t, step s = .next t

/-- No step changes a parameter: each is fixed for the life of an instance (R8). -/
def Obligations.ParametersNeverChange : Prop := ∀ s t : State, step s = .next t → t.cfg = s.cfg

/-- Outside a reset `now` never decreases, and where it moves it does not pass a pending instant (R17, R260).
How far it goes in one step is the model's choice (log 3). -/
def Obligations.TimeNeverPassesAPendingInstant : Prop :=
  ∀ s t : State, step s = .next t → resetNow s = false →
    s.now ≤ t.now ∧ (s.now < t.now → ∀ p ∈ pending s, t.now ≤ p)

/-- `DMX_WRITE` (opcode 0x01) to a legal address stores the byte in that slot and in no other, answers `[0x00]`, and
changes nothing else; outside 1..512 it answers `OutOfRange` and changes nothing (R130). The premise on the slots is the
canonical form of the model's list (log 9), which FramerInv holds. -/
def Obligations.DmxWriteStoresTheSlot : Prop :=
  (∀ lo hi v : Byte, decode [0x01#8, lo, hi, v] = .ok (.dmxWrite (half lo hi) v)) ∧
  ∀ (s : State) (addr : Half) (v : Byte),
    ((addr.toNat = 0 ∨ 512 < addr.toNat) → exec (.dmxWrite addr v) s = .next (respond s.port.agent [0x01#8] s)) ∧
    (1 ≤ addr.toNat → addr.toNat ≤ 512 → s.fr.slots.wf = true →
      ∃ m : Memory,
        exec (.dmxWrite addr v) s =
          .next (respond s.port.agent [0x00#8] { s with fr := { s.fr with slots := m } }) ∧
        m.wf = true ∧ slotRead m addr.toNat = v ∧
        ∀ a, a ≠ addr.toNat → slotRead m a = slotRead s.fr.slots a)

/-- `DMX_READ` (opcode 0x02) of a legal address answers `[0x00, value]`, of another `OutOfRange`; it changes nothing; a
slot never written reads 0x00 (R131). -/
def Obligations.DmxReadReturnsTheSlot : Prop :=
  (∀ lo hi : Byte, decode [0x02#8, lo, hi] = .ok (.dmxRead (half lo hi))) ∧
  (∀ a : Nat, slotRead State.reset.fr.slots a = 0x00#8) ∧
  ∀ (s : State) (addr : Half),
    ((addr.toNat = 0 ∨ 512 < addr.toNat) → exec (.dmxRead addr) s = .next (respond s.port.agent [0x01#8] s)) ∧
    (1 ≤ addr.toNat → addr.toNat ≤ 512 →
      exec (.dmxRead addr) s = .next (respond s.port.agent [0x00#8, slotRead s.fr.slots addr.toNat] s))

/-- The end of a frame is fixed when the transmit is accepted, `T_FRAME` later: whatever commands and line events come
meanwhile, every step but a reset keeps it, and the step that ends the frame is taken at that instant and answers the
agent that issued the transmit (R142, R145, R146). -/
def Obligations.TransmitEndIsFixedAtAcceptance : Prop :=
  (∀ s t : State, s.fr.mode = .controller → s.fr.tx = .idle → exec .dmxTransmit s = .next t →
    frameEndAt t = s.now + (s.cfg.txBreakUs + s.cfg.txMabUs + 513 * 44 + 512 * s.cfg.txInterslotUs)) ∧
  ∀ s t : State, FramerInv s → step s = .next t → resetNow s = false → s.fr.tx ≠ .idle →
    (t.fr.tx ≠ .idle → frameEndAt t = frameEndAt s ∧ t.fr.txIssuer = s.fr.txIssuer ∧ t.fr.txSnap = s.fr.txSnap) ∧
    (t.fr.tx = .idle → s.now = frameEndAt s ∧ t.now = s.now ∧ t.fr.dmxTx = .mark ∧
      ∃ a, s.fr.txIssuer = some a ∧
        t.port.responses = s.port.responses ++ [{ agent := a, time := s.now, bytes := [0x00#8] }])

/-- `DMX_TRANSMIT` in controller mode with no frame on the wire takes the snapshot (start code, then the 512 slots),
begins the break and notes who waits; no response yet, nothing else changes (R132). -/
def Obligations.DmxTransmitBeginsTheBreak : Prop :=
  ∀ s : State, s.fr.mode = .controller → s.fr.tx = .idle →
    ∃ snap : List Byte,
      exec .dmxTransmit s = .next { s with fr := { s.fr with
        txSnap := snap, txIssuer := some s.port.agent, tx := .brk,
        txSegEnd := s.now + s.cfg.txBreakUs, dmxTx := .space } } ∧
      snap.length = 513 ∧ snap[0]? = some 0x00#8 ∧
      ∀ k, k < 512 → snap[k + 1]? = some (slotRead s.fr.slots (k + 1))

/-- `DMX_TRANSMIT` answers `ModeError` in receiver mode, else `BusBusy` during a frame; nothing else changes (R132,
R284). -/
def Obligations.DmxTransmitIsRefused : Prop :=
  ∀ s : State,
    (s.fr.mode = .receiver → exec .dmxTransmit s = .next (respond s.port.agent [0x09#8] s)) ∧
    (s.fr.mode = .controller → s.fr.tx ≠ .idle → exec .dmxTransmit s = .next (respond s.port.agent [0x05#8] s))

/-- `DMX_SET_MODE` with no frame on the wire: the mode it has is a no-op; the other is entered with the driver, the
parser and the line as R133 says; the front end restarts (log 11). -/
def Obligations.DmxSetModeSwitches : Prop :=
  ∀ s : State, s.fr.tx = .idle →
    (s.fr.mode = .controller →
      exec (.dmxSetMode 0x00#8) s = .next (respond s.port.agent [0x00#8] s) ∧
      exec (.dmxSetMode 0x01#8) s = .next (respond s.port.agent [0x00#8] { s with fr := { s.fr with
        mode := .receiver, dmxTxEn := false, rx := .waitBreak, rxBuf := [], front := frontRest s.fr.front.level } })) ∧
    (s.fr.mode = .receiver →
      exec (.dmxSetMode 0x01#8) s = .next (respond s.port.agent [0x00#8] s) ∧
      exec (.dmxSetMode 0x00#8) s = .next (respond s.port.agent [0x00#8] { s with fr := { s.fr with
        mode := .controller, dmxTxEn := true, dmxTx := .mark, rx := .off, rxBuf := [],
        front := frontRest s.fr.front.level } }))

/-- `DMX_SET_MODE` answers `OutOfRange` above 1 in every state, else `BusBusy` during a frame (R133, R284). -/
def Obligations.DmxSetModeIsRefused : Prop :=
  ∀ (s : State) (mode : Byte),
    (1 < mode.toNat → exec (.dmxSetMode mode) s = .next (respond s.port.agent [0x01#8] s)) ∧
    (mode.toNat ≤ 1 → s.fr.tx ≠ .idle → exec (.dmxSetMode mode) s = .next (respond s.port.agent [0x05#8] s))

/-- `DMX_GET_MODE` is the byte 0x05, answers OK with the mode in every state, a transmit included, and changes nothing
(R134). -/
def Obligations.DmxGetModeReturnsTheMode : Prop :=
  decode [0x05#8] = .ok .dmxGetMode ∧
  ∀ s : State, exec .dmxGetMode s =
    .next (respond s.port.agent [0x00#8, if s.fr.mode = .controller then 0x00#8 else 0x01#8] s)

/-- `DMX_READ_DIAG` answers OK and the counter as four bytes little-endian, and changes nothing (R135). -/
def Obligations.DmxReadDiagReturnsTheCounter : Prop :=
  ∀ s : State, ∃ b : List Byte, b.length = 4 ∧ leDecode b = s.fr.diagCount.toNat ∧
    exec .dmxReadDiag s = .next (respond s.port.agent (0x00#8 :: b) s)

/-- At the end of each segment the sequencer starts the next one, and after slot 512 it answers the agent that waits and
lets the line idle at Mark (R140, R141, R142, R145). That an engine's step due at the same instant goes first is the
model's choice (log 19). -/
def Obligations.SequencerFollowsTheFrame : Prop :=
  ∀ s : State, noInputDue s = true → due s (chainDueAt s) = false → s.fr.txSegEnd = s.now →
    (s.fr.tx = .brk → step s = .next { s with fr := { s.fr with
      tx := .mab, txSegEnd := s.now + s.cfg.txMabUs, dmxTx := .mark } }) ∧
    (s.fr.tx = .mab → step s = .next { s with fr := { s.fr with
      tx := .byte 0, txSegEnd := s.now + 44, dmxTx := .space } }) ∧
    (∀ k, s.fr.tx = .byte k → k < 512 → s.cfg.txInterslotUs = 0 → step s = .next { s with fr := { s.fr with
      tx := .byte (k + 1), txSegEnd := s.now + 44, dmxTx := .space } }) ∧
    (∀ k, s.fr.tx = .byte k → k < 512 → s.cfg.txInterslotUs ≠ 0 → step s = .next { s with fr := { s.fr with
      tx := .gap k, txSegEnd := s.now + s.cfg.txInterslotUs, dmxTx := .mark } }) ∧
    (∀ k, s.fr.tx = .gap k → step s = .next { s with fr := { s.fr with
      tx := .byte (k + 1), txSegEnd := s.now + 44, dmxTx := .space } }) ∧
    (∀ a, s.fr.tx = .byte 512 → s.fr.txIssuer = some a → step s = .next (respond a [0x00#8]
      { s with fr := { s.fr with tx := .idle, txIssuer := none, dmxTx := .mark } }))

/-- A transmit accepted at `t_a` completes at `t_a + T_FRAME`, and not before: with no other input, the run from its
acceptance reaches that instant with the sequencer idle, the line at Mark, the one response `[0x00]` given then to the
agent that issued it, the slots as they were; until then the sequencer is not idle. With the simulator defaults `T_FRAME`
is 22 676 µs (R146). A frame sent with a chain request outstanding or with inputs to come is not of this run:
TransmitEndIsFixedAtAcceptance says when that one ends. -/
def Obligations.TransmitLastsFrameTime : Prop :=
  (∀ s t : State, noInputs s = true → outstanding s.ch.state = false → s.fr.mode = .controller → s.fr.tx = .idle →
    exec .dmxTransmit s = .next t →
    ∃ (n : Nat) (u : State), Host.Core.run Sys2Proof.core n t = .next u ∧
      u.now = s.now + (s.cfg.txBreakUs + s.cfg.txMabUs + 513 * 44 + 512 * s.cfg.txInterslotUs) ∧
      u.fr.tx = .idle ∧ u.fr.dmxTx = .mark ∧ u.fr.slots = s.fr.slots ∧
      u.port.responses = s.port.responses ++ [{ agent := s.port.agent, time := u.now, bytes := [0x00#8] }] ∧
      ∀ (m : Nat) (v : State), m < n → Host.Core.run Sys2Proof.core m t = .next v → v.fr.tx ≠ .idle) ∧
  (let c : Config := {}
   c.txBreakUs + c.txMabUs + 513 * 44 + 512 * c.txInterslotUs = 22676)

/-- The levels the block sends for a byte, sampled at bit centres, give the byte back (R101, R162), and each sample of the
receiver is taken at its bit centre: a start bit at Mark is a glitch, and the tenth sample, at `t_f + 38`, gives the parser
`BYTE`, or `FRAMING_ERROR`, deferred while the run that began with the byte is still low (R162, R163). The front end's
fields and how they are read are the model's (log 10, log 12, log 13), and so is the order of steps due at one instant
(log 19). -/
def Obligations.BytesAreSampledAndReported : Prop :=
  (∀ b : Byte,
    byteLevel b 0 = .space ∧ byteLevel b 9 = .mark ∧ byteLevel b 10 = .mark ∧
    sampledByte ((List.range 9).map (fun j => decide (byteLevel b j = .mark))) = b) ∧
  (∀ bits : List Bool, bits.length = 9 → ∀ i, i < 8 → some ((sampledByte bits).getLsbD i) = bits[i + 1]?) ∧
  ∀ (s : State) (b : Sampler), noInputDue s = true → due s (chainDueAt s) = false → due s (txDueAt s) = false →
    s.fr.mode = .receiver → s.fr.front.sampler = some b → s.now = b.start + 4 * b.bits.length + 2 →
    let f := s.fr.front
    let front (g : FrontEnd) : State := { s with fr := { s.fr with front := g } }
    (b.bits = [] → f.level = .mark → step s = .next (front { f with sampler := none, guard := 0 })) ∧
    (b.bits.length < 9 → (b.bits ≠ [] ∨ f.level = .space) → step s = .next (front { f with
      sampler := some { start := b.start, bits := b.bits ++ [decide (f.level = .mark)] } })) ∧
    (b.bits.length = 9 → f.level = .mark →
      step s = .next (onSymbol (.byte (sampledByte b.bits)) (front { f with sampler := none }))) ∧
    (b.bits.length = 9 → f.level = .space →
      (∀ d, f.run = .low b.start d → step s = .next (front { f with sampler := none, run := .low b.start true })) ∧
      ((∀ d, f.run ≠ .low b.start d) → step s = .next (onSymbol .framingError (front { f with sampler := none }))))

/-- A `BREAK` in `RxSlots` commits the frame of `n ≥ 1` slots in one step: slots 1..n hold the received bytes, the others
keep theirs, one notification per changed slot in ascending order with its old and new value, and the parser is in
`RxInBreak` with an empty buffer; nothing else changes (R172, R290). -/
def Obligations.ReceiveCommitStoresTheFrame : Prop :=
  ∀ s : State, s.fr.rx = .slots → s.fr.rxBuf ≠ [] → s.fr.rxBuf.length ≤ 512 → s.fr.slots.wf = true →
    ∃ m : Memory,
      onSymbol .brk s = { s with fr := { s.fr with
        slots := m, rx := .inBreak, rxBuf := [],
        notify := s.fr.notify ++ (List.range s.fr.rxBuf.length).filterMap (fun k =>
          if s.fr.rxBuf.getD k 0x00#8 ≠ slotRead s.fr.slots (k + 1) then
            some { addr := k + 1, old := slotRead s.fr.slots (k + 1), new := s.fr.rxBuf.getD k 0x00#8 }
          else none) } } ∧
      m.wf = true ∧
      (∀ k, k < s.fr.rxBuf.length → slotRead m (k + 1) = s.fr.rxBuf.getD k 0x00#8) ∧
      (∀ a, (a = 0 ∨ s.fr.rxBuf.length < a) → slotRead m a = slotRead s.fr.slots a)

/-- Each malformation drops the frame: the buffer is emptied, the counter goes up by one modulo 2^32, and nothing else
changes but the parser's state (R172, R174, R175, R176). -/
def Obligations.MalformedFrameIsDroppedAndCounted : Prop :=
  ∀ s : State,
    let dropTo (st : RxState) : State :=
      { s with fr := { s.fr with rx := st, rxBuf := [], diagCount := s.fr.diagCount + 1#32 } }
    (∀ b, s.fr.rx = .startCode → b ≠ 0x00#8 → onSymbol (.byte b) s = dropTo .discard) ∧
    (∀ t, s.fr.rx = .mab → t - s.fr.rxMarkStart < s.cfg.rxMabMinUs → onSymbol (.mabEnd t) s = dropTo .discard) ∧
    (s.fr.rx = .startCode → onSymbol .brk s = dropTo .inBreak) ∧
    ((s.fr.rx = .startCode ∨ s.fr.rx = .slots) → onSymbol .framingError s = dropTo .discard) ∧
    (∀ b, s.fr.rx = .slots → s.fr.rxBuf.length = 512 → onSymbol (.byte b) s = dropTo .discard) ∧
    (s.fr.rx = .slots → s.fr.rxBuf = [] → s.cfg.acceptZeroSlotFrame = false → onSymbol .brk s = dropTo .inBreak)

/-- The parser's other moves: a valid MAB, the start code 0x00, a slot byte, a break's rise, a break that begins a frame,
and the symbols that are ignored, a byte's falling edge outside `RxMab` among them (R170, R171, R173, R174, R176, R177). -/
def Obligations.ParserFollowsTheTable : Prop :=
  ∀ s : State,
    let goto (st : RxState) : State := { s with fr := { s.fr with rx := st, rxBuf := [] } }
    (∀ y, s.fr.rx = .off → onSymbol y s = s) ∧
    (∀ b t, (s.fr.rx = .waitBreak ∨ s.fr.rx = .discard) →
      onSymbol (.byte b) s = s ∧ onSymbol .framingError s = s ∧ onSymbol (.rise t) s = s ∧
      onSymbol .brk s = goto .inBreak) ∧
    (∀ t, (s.fr.rx = .waitBreak ∨ s.fr.rx = .startCode ∨ s.fr.rx = .slots ∨ s.fr.rx = .discard) →
      onSymbol (.mabEnd t) s = s) ∧
    (∀ t, (s.fr.rx = .mab ∨ s.fr.rx = .startCode ∨ s.fr.rx = .slots) → onSymbol (.rise t) s = s) ∧
    (∀ t, s.fr.rx = .inBreak → onSymbol (.rise t) s = { s with fr := { s.fr with rx := .mab, rxMarkStart := t } }) ∧
    (∀ t, s.fr.rx = .mab → s.cfg.rxMabMinUs ≤ t - s.fr.rxMarkStart →
      onSymbol (.mabEnd t) s = { s with fr := { s.fr with rx := .startCode } }) ∧
    (s.fr.rx = .startCode → onSymbol (.byte 0x00#8) s = goto .slots) ∧
    (∀ b, s.fr.rx = .slots → s.fr.rxBuf.length < 512 →
      onSymbol (.byte b) s = { s with fr := { s.fr with rxBuf := s.fr.rxBuf ++ [b] } }) ∧
    (s.fr.rx = .slots → s.fr.rxBuf = [] → s.cfg.acceptZeroSlotFrame = true → onSymbol .brk s = goto .inBreak)

/-- The low runs of the DMX RX line: one that lasts to its threshold is a break at that instant, and the byte that began
with it is ended; a falling edge ends the mark-after-break and begins a run, and a byte unless one is in progress or the
line is within 40 µs of the last one's start; a rising edge ends the run, by its length; a level the line has is no edge,
and in controller mode no run is measured (R160, R161, R162, R163, R164). The front end's fields and how they are read are
the model's (log 10, log 12, log 13, log 15), and so are the queue of line events (log 2) and the order of steps due at one
instant (log 19). -/
def Obligations.LowRunsAreClassified : Prop :=
  (∀ tf, dropSampler tf none = none ∧
    ∀ b : Sampler, dropSampler tf (some b) = if b.start = tf then none else some b) ∧
  (∀ (s : State) (tf : Nat) (d : Bool), noInputDue s = true → due s (chainDueAt s) = false →
    due s (txDueAt s) = false → due s (sampleDueAt s) = false → s.fr.mode = .receiver →
    s.fr.front.run = .low tf d → s.now = tf + s.cfg.rxBreakMinUs →
    step s = .next (onSymbol .brk { s with fr := { s.fr with front := { s.fr.front with
      run := .brk tf, sampler := dropSampler tf s.fr.front.sampler } } })) ∧
  ∀ (s : State) (level : Level) (rest : List LineInput), lineEventNext s (.dmxEdge level) rest = true →
    let f := s.fr.front
    let front (g : FrontEnd) : State := { s with lineIn := rest, fr := { s.fr with front := g } }
    let up : FrontEnd := { f with level := .mark, run := .none }
    (f.level = level → step s = .next (front f)) ∧
    (f.level ≠ level → s.fr.mode = .controller → step s = .next (front { f with level := level })) ∧
    (f.level = .mark → level = .space → s.fr.mode = .receiver →
      (f.sampler = none → f.guard ≤ s.now → step s = .next (onSymbol (.mabEnd s.now) (front
        { level := .space, run := .low s.now false, sampler := some { start := s.now, bits := [] },
          guard := s.now + 40 }))) ∧
      ((f.sampler ≠ none ∨ s.now < f.guard) → step s = .next (onSymbol (.mabEnd s.now) (front
        { f with level := .space, run := .low s.now false })))) ∧
    (f.level = .space → level = .mark → s.fr.mode = .receiver →
      (f.run = .none → step s = .next (front up)) ∧
      (∀ tf, f.run = .brk tf → step s = .next (onSymbol (.rise s.now) (front up))) ∧
      (∀ tf, f.run = .low tf false → s.now - tf < s.cfg.rxBreakMinUs → step s = .next (front up)) ∧
      (∀ tf, f.run = .low tf true → s.now - tf < s.cfg.rxBreakMinUs →
        step s = .next (onSymbol .framingError (front up))) ∧
      (∀ tf d, f.run = .low tf d → s.cfg.rxBreakMinUs ≤ s.now - tf →
        step s = .next (onSymbol (.rise s.now) (onSymbol .brk (front
          { up with sampler := dropSampler tf f.sampler })))))

/-- `CH_SEND` on a free engine with `len ≤ 255` puts `build(index, code, payload)` on the wire: the port is drained, the
line driven, the request's bookkeeping set; no response yet, nothing else changes (R200, R202, R203). -/
def Obligations.ChSendStartsTheRequest : Prop :=
  ∀ (s : State) (index code : Byte) (len : Half) (payload : List Byte), len.toNat ≤ 255 → s.ch.op = .none →
    exec (.chSend index code len payload) s = .next { s with
      ch := { s.ch with
        op := .send, issuer := some s.port.agent, state := .sent, txEn := true, rx := []
        req := build index code payload, index := index, attempt := 0, retries := s.cfg.retryCount }
      chp := { s.chp with
        unread := [], writeStart := s.now
        written := s.chp.written ++ [{ time := s.now, frame := build index code payload }] } }

/-- `CH_READ_REG` on a free engine to an index that is not stale puts the READ frame on the wire (R235, R114). -/
def Obligations.ChReadRegSendsARead : Prop :=
  ∀ (s : State) (index reg : Byte), s.ch.op = .none → isStale s index = false →
    exec (.chReadReg index reg) s = .next { s with
      ch := { s.ch with
        op := .readReg, issuer := some s.port.agent, state := .sent, txEn := true, rx := []
        req := build index 0x01#8 [reg], index := index, attempt := 0, retries := s.cfg.retryCount }
      chp := { s.chp with
        unread := [], writeStart := s.now
        written := s.chp.written ++ [{ time := s.now, frame := build index 0x01#8 [reg] }] } }

/-- `CH_WRITE_REG` with a width of 1 to 4 on a free engine to an index that is not stale puts the WRITE frame on the wire
(R237, R114). -/
def Obligations.ChWriteRegSendsAWrite : Prop :=
  ∀ (s : State) (index reg width : Byte) (v : List Byte), 1 ≤ width.toNat → width.toNat ≤ 4 → s.ch.op = .none →
    isStale s index = false →
    exec (.chWriteReg index reg width v) s = .next { s with
      ch := { s.ch with
        op := .writeReg, issuer := some s.port.agent, state := .sent, txEn := true, rx := []
        req := build index 0x02#8 (reg :: v), index := index, attempt := 0, retries := s.cfg.retryCount }
      chp := { s.chp with
        unread := [], writeStart := s.now
        written := s.chp.written ++ [{ time := s.now, frame := build index 0x02#8 (reg :: v) }] } }

/-- `CH_ENUMERATE` on a free engine starts the walk at index 1 with a ping that is not retried; the old registry stays
(R230, R231). -/
def Obligations.ChEnumerateStartsTheWalk : Prop :=
  ∀ s : State, s.ch.op = .none →
    exec .chEnumerate s = .next { s with
      ch := { s.ch with
        op := .enumerate, issuer := some s.port.agent, state := .sent, txEn := true, rx := []
        enumAcc := [], enumCursor := 0x01#8
        req := build 0x01#8 s.cfg.pingCode [], index := 0x01#8, attempt := 0, retries := 0 }
      chp := { s.chp with
        unread := [], writeStart := s.now
        written := s.chp.written ++ [{ time := s.now, frame := build 0x01#8 s.cfg.pingCode [] }] } }

/-- The checks of the bus chain commands, in R284's order: `OutOfRange`, then `BusBusy`, then `Stale`; a refused command
changes nothing but the response (R200, R201, R235, R237, R230). -/
def Obligations.ChainChecksComeInOrder : Prop :=
  ∀ (s : State) (index code reg width : Byte) (len : Half) (p : List Byte),
    let refusal (x : Byte) : Out := .next (respond s.port.agent [x] s)
    (255 < len.toNat → exec (.chSend index code len p) s = refusal 0x01#8) ∧
    ((width.toNat = 0 ∨ 4 < width.toNat) → exec (.chWriteReg index reg width p) s = refusal 0x01#8) ∧
    (s.ch.op ≠ .none →
      (len.toNat ≤ 255 → exec (.chSend index code len p) s = refusal 0x05#8) ∧
      exec (.chReadReg index reg) s = refusal 0x05#8 ∧
      (1 ≤ width.toNat → width.toNat ≤ 4 → exec (.chWriteReg index reg width p) s = refusal 0x05#8) ∧
      exec .chEnumerate s = refusal 0x05#8) ∧
    (s.ch.op = .none → isStale s index = true →
      exec (.chReadReg index reg) s = refusal 0x08#8 ∧
      (1 ≤ width.toNat → width.toNat ≤ 4 → exec (.chWriteReg index reg width p) s = refusal 0x08#8))

/-- A wire command becomes `CH.req` and an attempt starts with it; nothing else changes (R110, R114, R203):
the meaning the model gives the table's wire rows (log 6). -/
def Obligations.WireCommandStartsAnAttempt : Prop :=
  ∀ (s : State) (dest reg : Byte) (v : List Byte),
    let sends (f : List Byte) : Out := .next { s with
      ch := { s.ch with req := f, rx := [], state := .sent, txEn := true }
      chp := { s.chp with
        unread := [], writeStart := s.now, written := s.chp.written ++ [{ time := s.now, frame := f }] } }
    exec (.chainRead dest reg) s = sends (build dest 0x01#8 [reg]) ∧
    exec (.chainWrite dest reg v) s = sends (build dest 0x02#8 (reg :: v)) ∧
    exec (.chainPing dest) s = sends (build dest s.cfg.pingCode [])

/-- `CH_INVALIDATE` (opcode 0x14) empties the registry, answers `[0x00]`, and keeps everything else, the stale marks and
runs too, busy or not; an enumeration that ends later replaces the emptied registry (R243). -/
def Obligations.ChInvalidateEmptiesTheRegistry : Prop :=
  decode [0x14#8] = .ok .chInvalidate ∧
  ∀ s : State, exec .chInvalidate s =
      .next (respond s.port.agent [0x00#8] { s with ch := { s.ch with registry := [] } }) ∧
    (finishEnumeration { s with ch := { s.ch with registry := [] } }).ch.registry = s.ch.enumAcc

/-- `CH_LOOKUP` (opcode 0x15) answers presence, the stale mark and the capability of the registry's entry for the index,
busy or not, and changes nothing; index 0 is never present (R244). -/
def Obligations.ChLookupReadsTheRegistry : Prop :=
  (∀ index : Byte, decode [0x15#8, index] = .ok (.chLookup index)) ∧
  (∀ (s : State) (index : Byte),
    let stale : Byte := if isStale s index then 0x01#8 else 0x00#8
    (∀ u us vs, s.ch.registry = us ++ u :: vs → (∀ w ∈ us, w.index ≠ index) → u.index = index →
      (∀ cap, u.capability = some cap →
        exec (.chLookup index) s = .next (respond s.port.agent [0x00#8, 0x01#8, stale, 0x01#8, cap] s)) ∧
      (u.capability = none →
        exec (.chLookup index) s = .next (respond s.port.agent [0x00#8, 0x01#8, stale, 0x00#8, 0x00#8] s))) ∧
    ((∀ w ∈ s.ch.registry, w.index ≠ index) →
      exec (.chLookup index) s = .next (respond s.port.agent [0x00#8, 0x00#8, stale, 0x00#8, 0x00#8] s))) ∧
  (∀ s : State, ChainInv s → ∀ w ∈ s.ch.registry, w.index ≠ 0x00#8)

/-- `CH_GET_STATE` (opcode 0x16) answers the codes of `CH.state` and `CH.op` and the last outcome, busy or not, and
changes nothing; the codes are those of R43 and R44 (R215). -/
def Obligations.ChGetStateReadsTheEngine : Prop :=
  decode [0x16#8] = .ok .chGetState ∧
  (∀ s : State, exec .chGetState s =
    .next (respond s.port.agent [0x00#8, reqStateByte s.ch.state, chainOpByte s.ch.op, s.ch.lastOutcome] s)) ∧
  [ReqState.idle, .sent, .awaitingResponse, .completed, .timedOut, .checksumError, .addressMismatch].map reqStateByte =
    [0#8, 1#8, 2#8, 3#8, 4#8, 5#8, 6#8] ∧
  [ChainOp.none, .send, .readReg, .writeReg, .enumerate].map chainOpByte = [0#8, 1#8, 2#8, 3#8, 4#8]

/-- A built CommandFrame has the layout of R110, and a receiver finds it complete with a checksum that recomputes
(R110, R111, R206). -/
def Obligations.BuiltFrameIsValid : Prop :=
  ∀ (index code : Byte) (p : List Byte), p.length ≤ 255 →
    let f := build index code p
    f.length = 4 + p.length ∧ f[0]? = some index ∧ f[1]? = some code ∧
    (∃ n : Byte, f[2]? = some n ∧ n.toNat = p.length) ∧ (f.drop 3).take p.length = p ∧
    f[3 + p.length]? = some (xorFold (f.take (3 + p.length))) ∧
    frameComplete f = true ∧ checksumValid f = true

/-- When the write is complete the line is released and the response window opens for `TIMEOUT_MS`; nothing else changes
but the port's own count of writes (R204). What the port holds of a write is the model's own (log 4); that the engine's step
goes first where another internal step is due at the same instant is the model's choice (log 19). -/
def Obligations.WriteCompletionOpensTheWindow : Prop :=
  ∀ s : State, noInputDue s = true → s.ch.state = .sent → s.now = writeEnd s →
    ∃ p : ChainPort, p.unread = s.chp.unread ∧ p.written = s.chp.written ∧ p.writeStart = s.chp.writeStart ∧
      step s = .next { s with
        ch := { s.ch with
          txEn := false, state := .awaitingResponse, deadline := s.now + s.cfg.timeoutMs * 1000 }
        chp := p }

/-- A chain byte is discarded while `Sent`, taken into `CH.rx` in an open window (at its deadline too), and otherwise
left unread in the port (R205); a byte that does not complete the frame changes nothing else. Line events waiting in a
queue are the model's own (log 2). -/
def Obligations.ChainByteGoesWhereTheWindowSays : Prop :=
  ∀ (s : State) (b : Byte) (rest : List LineInput), lineEventNext s (.chainByte b) rest = true →
    (s.ch.state = .sent → step s = .next { s with lineIn := rest }) ∧
    (s.ch.state = .awaitingResponse → s.now ≤ s.ch.deadline → frameComplete s.ch.rx = false →
      frameComplete (s.ch.rx ++ [b]) = false →
      step s = .next { s with lineIn := rest, ch := { s.ch with rx := s.ch.rx ++ [b] } }) ∧
    ((s.ch.state ≠ .sent ∧ (s.ch.state ≠ .awaitingResponse ∨ s.ch.deadline < s.now)) →
      step s = .next { s with lineIn := rest, chp := { s.chp with unread := s.chp.unread ++ [b] } })

/-- The byte that completes the frame ends the request at once: checksum first, then the destination echo; a valid frame
becomes `CH.resp`; then the call completes (R206, R207). The queue of line events, and that one of them goes before an
internal step due at the same instant, are the model's (log 2). -/
def Obligations.CompleteFrameIsValidatedAtOnce : Prop :=
  ∀ (s : State) (b : Byte) (rest : List LineInput), lineEventNext s (.chainByte b) rest = true →
    s.ch.state = .awaitingResponse → s.now ≤ s.ch.deadline → frameComplete s.ch.rx = false →
    frameComplete (s.ch.rx ++ [b]) = true →
    let rx := s.ch.rx ++ [b]
    let n := (rx.getD 2 0x00#8).toNat
    let ended (st : ReqState) (r : Option ResponseFrame) : Out := .next (requestEnded
      { s with lineIn := rest, ch := { s.ch with rx := rx, state := st, resp := r } })
    (rx.getD (3 + n) 0x00#8 ≠ xorFold (rx.take (3 + n)) → step s = ended .checksumError s.ch.resp) ∧
    (rx.getD (3 + n) 0x00#8 = xorFold (rx.take (3 + n)) → rx.getD 0 0x00#8 ≠ s.ch.index →
      step s = ended .addressMismatch s.ch.resp) ∧
    (rx.getD (3 + n) 0x00#8 = xorFold (rx.take (3 + n)) → rx.getD 0 0x00#8 = s.ch.index →
      step s = ended .completed
        (some { dest := rx.getD 0 0x00#8, status := rx.getD 1 0x00#8, payload := (rx.drop 3).take n }))

/-- The end of a request of `Send`, `ReadReg` or `WriteReg`: the agent that waits gets the command's response, its final
outcome is kept, the engine is free, and nothing else changes but the run and the mark of the index. A request that ended in
`TimedOut` is answered `[0x02]`, in `ChecksumError` `[0x03]`, in `AddressMismatch` `[0x04]`, a `Send` in `Completed` by the
whole frame after `0x00`, each code in `CH.last_outcome`. A Timeout lengthens the index's run up to the threshold and marks
it stale there, not below; any other end clears the run and keeps the mark (R209, R210, R240). -/
def Obligations.CallCompletionAnswersTheIssuer : Prop :=
  ∀ (s : State) (a : Agent), (s.ch.op = .send ∨ s.ch.op = .readReg ∨ s.ch.op = .writeReg) → s.ch.issuer = some a →
    let t := requestEnded s
    let index := s.ch.index
    let answered (code : Byte) (bytes : List Byte) : Prop := t.ch.lastOutcome = code ∧
      t.port = { s.port with responses := s.port.responses ++ [{ agent := a, time := s.now, bytes := bytes }] }
    (∃ (runs : Vector Nat 256) (marks : Vector Bool 256), t = { s with
      ch := { s.ch with
        toRun := runs, stale := marks, op := .none, issuer := none, lastOutcome := t.ch.lastOutcome }
      port := t.port }) ∧
    answered (outcomeByte (callResult s (outcomeOfState s.ch.state)).1) (callResult s (outcomeOfState s.ch.state)).2 ∧
    (s.ch.state = .timedOut → answered 0x02#8 [0x02#8]) ∧
    (s.ch.state = .checksumError → answered 0x03#8 [0x03#8]) ∧
    (s.ch.state = .addressMismatch → answered 0x04#8 [0x04#8]) ∧
    (s.ch.state = .completed → outcomeOfState s.ch.state = .ok ∧
      (s.ch.op = .send → answered 0x00#8 (0x00#8 :: s.ch.rx))) ∧
    (∀ j, j ≠ index → timeoutRun t j = timeoutRun s j ∧ isStale t j = isStale s j) ∧
    (s.ch.state = .timedOut →
      timeoutRun t index = min (timeoutRun s index + 1) s.cfg.staleThreshold ∧
      (s.cfg.staleThreshold ≤ timeoutRun s index + 1 → isStale t index = true) ∧
      (timeoutRun s index + 1 < s.cfg.staleThreshold → isStale t index = isStale s index)) ∧
    (s.ch.state ≠ .timedOut → timeoutRun t index = 0 ∧ isStale t index = isStale s index)

/-- The results of the three calls: the engine's failures are returned as they are; `CH_SEND` returns the whole frame
whatever its status; the convenience calls return `UnitStatus` unless the status is `ST_SUCCESS`; `CH_READ_REG` returns
the little-endian value of a payload of 1 to 4 bytes widened to four, and `BadPayload` for another length (R210, R211,
R235, R236, R237). The outcome codes are those of R280. -/
def Obligations.CallResultsFollowTheResponse : Prop :=
  [OutcomeCode.ok, .outOfRange, .timeout, .checksumMismatch, .addressMismatch, .busBusy, .unitStatus, .badPayload, .stale,
    .modeError, .illegalCommand].map outcomeByte = [0#8, 1#8, 2#8, 3#8, 4#8, 5#8, 6#8, 7#8, 8#8, 9#8, 10#8] ∧
  ∀ (s : State) (r : ResponseFrame), s.ch.resp = some r →
    (∀ o, o ≠ .ok → callResult s o = (o, [outcomeByte o])) ∧
    (s.ch.op = .send → callResult s .ok = (.ok, 0x00#8 :: s.ch.rx)) ∧
    ((s.ch.op = .readReg ∨ s.ch.op = .writeReg) → r.status ≠ s.cfg.stSuccess →
      callResult s .ok = (.unitStatus, [0x06#8, r.status])) ∧
    (s.ch.op = .writeReg → r.status = s.cfg.stSuccess → callResult s .ok = (.ok, [0x00#8])) ∧
    (s.ch.op = .readReg → r.status = s.cfg.stSuccess → (r.payload = [] ∨ 4 < r.payload.length) →
      callResult s .ok = (.badPayload, [0x07#8])) ∧
    (s.ch.op = .readReg → r.status = s.cfg.stSuccess → r.payload ≠ [] → r.payload.length ≤ 4 →
      ∃ (w : Byte) (v : List Byte), w.toNat = r.payload.length ∧ v.length = 4 ∧ leDecode v = leDecode r.payload ∧
        callResult s .ok = (.ok, 0x00#8 :: w :: v))

/-- The deadline of an incomplete frame: a partial frame is a checksum error where the parameter says so, else the same
bytes are sent again while a retry is left, else the request has timed out (R208, R203). That the engine's step goes first
where another internal step is due at the same instant is the model's choice (log 19). -/
def Obligations.DeadlineRetriesThenTimesOut : Prop :=
  ∀ s : State, noInputDue s = true → s.ch.state = .awaitingResponse → frameComplete s.ch.rx = false →
    s.now = s.ch.deadline →
    let partialError := s.ch.rx ≠ [] ∧ s.cfg.partialFrameOutcome = .checksumMismatch
    let ended (st : ReqState) : Out := .next (requestEnded { s with ch := { s.ch with state := st } })
    (partialError → step s = ended .checksumError) ∧
    (¬ partialError → s.ch.attempt < s.ch.retries → step s = .next { s with
      ch := { s.ch with attempt := s.ch.attempt + 1, rx := [], state := .sent, txEn := true }
      chp := { s.chp with
        unread := [], writeStart := s.now
        written := s.chp.written ++ [{ time := s.now, frame := s.ch.req }] } }) ∧
    (¬ partialError → s.ch.retries ≤ s.ch.attempt → step s = ended .timedOut)

/-- A call to a unit that never answers: accepted at `t_a` with no other input, it ends with `Timeout` at exactly
`t_a + W_0 + TIMEOUT_MS · 1000`, and with `RETRY_COUNT = 1` at `W_1 + TIMEOUT_MS · 1000` after that, whatever the write
durations, which the model draws (log 4); its frame was written once, or twice; until then the engine belongs to the call
(R213, R204, R208). A call made during a transmit or in receiver mode is not of this run. -/
def Obligations.SilentUnitTimesOutAtTheBound : Prop :=
  ∀ (i : Instr) (s t : State), isUnitCall i = true → s.ch.op = .none → exec i s = .next t → t.ch.op ≠ .none →
    noInputs s = true → s.fr.tx = .idle → s.fr.mode = .controller → s.cfg.retryCount ≤ 1 →
    let w0 := writeDuration t
    let w1 := writeDuration { t with chp := nextDraw t.chp }
    let window := s.cfg.timeoutMs * 1000
    let bound := s.now + w0 + window + (if s.cfg.retryCount = 0 then 0 else w1 + window)
    ∃ (n : Nat) (u : State), Host.Core.run Sys2Proof.core n t = .next u ∧
      u.now = bound ∧ u.ch.op = .none ∧ u.ch.state = .timedOut ∧ u.ch.lastOutcome = 0x02#8 ∧
      u.port.responses = s.port.responses ++ [{ agent := s.port.agent, time := bound, bytes := [0x02#8] }] ∧
      u.chp.written = s.chp.written ++ { time := s.now, frame := t.ch.req } ::
        (if s.cfg.retryCount = 0 then [] else [{ time := s.now + w0 + window, frame := t.ch.req }]) ∧
      ∀ (m : Nat) (v : State), m < n → Host.Core.run Sys2Proof.core m t = .next v → v.ch.op = t.ch.op

/-- A ping is `[i, PING_CODE, 0x00, i XOR PING_CODE]`, started with no retry, and a ping that times out is not sent again
(R231). -/
def Obligations.PingIsSentOnce : Prop :=
  (∀ i ping : Byte, build i ping [] = [i, ping, 0x00#8, i ^^^ ping]) ∧
  (∀ (s : State) (i : Byte),
    (startPing i s).ch.req = build i s.cfg.pingCode [] ∧ (startPing i s).ch.attempt = 0 ∧
    (startPing i s).ch.retries = 0 ∧ (startPing i s).ch.index = i ∧ (startPing i s).ch.state = .sent) ∧
  (∀ s : State, ChainInv s → s.ch.op = .enumerate → s.ch.state = .awaitingResponse → (s.ch.rx = [] ∨
    s.cfg.partialFrameOutcome = .timeout) →
    deadlineStep s = requestEnded { s with ch := { s.ch with state := .timedOut } })

/-- The end of a ping: the index joins the units found if it completed with `ST_SUCCESS`, with its first payload byte as
capability; the next index is pinged, or after ENUM_N the walk ends (R232). -/
def Obligations.PingCompletionWalksOn : Prop :=
  ∀ s : State, s.ch.op = .enumerate →
    let found := pingFound s
    (∀ r, s.ch.state = .completed → s.ch.resp = some r → r.status = s.cfg.stSuccess →
      found = s.ch.enumAcc ++ [{ index := s.ch.enumCursor, capability := r.payload.head?, version := none }]) ∧
    (∀ r, s.ch.state = .completed → s.ch.resp = some r → r.status ≠ s.cfg.stSuccess → found = s.ch.enumAcc) ∧
    (s.ch.state ≠ .completed → found = s.ch.enumAcc) ∧
    (s.ch.enumCursor.toNat < s.cfg.enumN →
      requestEnded s = startPing (s.ch.enumCursor + 1#8) { s with ch := { s.ch with enumAcc := found } }) ∧
    (s.cfg.enumN ≤ s.ch.enumCursor.toNat →
      requestEnded s = finishEnumeration { s with ch := { s.ch with enumAcc := found } })

/-- The end of an enumeration: the units found become the registry, every stale mark and run is cleared, the agent that
waits gets the list, and the engine is free; nothing else changes (R233). -/
def Obligations.EnumerationEndReplacesTheRegistry : Prop :=
  ∀ (s : State) (a : Agent), s.ch.issuer = some a →
    ∃ body : List Byte,
      finishEnumeration s = { s with
        ch := { s.ch with
          registry := s.ch.enumAcc, stale := Vector.replicate 256 false, toRun := Vector.replicate 256 0
          lastOutcome := 0x00#8, op := .none, issuer := none }
        port := { s.port with responses := s.port.responses ++
          [{ agent := a, time := s.now, bytes := 0x00#8 :: BitVec.ofNat 8 s.ch.enumAcc.length :: body }] } } ∧
      (∀ i, isStale (finishEnumeration s) i = false ∧ timeoutRun (finishEnumeration s) i = 0) ∧
      body.length = 3 * s.ch.enumAcc.length ∧
      ∀ k u, s.ch.enumAcc[k]? = some u →
        body[3 * k]? = some u.index ∧
        body[3 * k + 1]? = some (match u.capability with | some _ => 0x01#8 | none => 0x00#8) ∧
        body[3 * k + 2]? = some (match u.capability with | some c => c | none => 0x00#8)

/-- Stale counting: a Timeout lengthens the index's run up to the threshold and marks it stale there; any other outcome
ends the run and leaves the mark; no other index changes (R240). -/
def Obligations.StaleCountingFollowsTimeouts : Prop :=
  ∀ (s : State) (i : Byte) (o : OutcomeCode),
    let t := updateStale i o s
    (∀ j, j ≠ i → timeoutRun t j = timeoutRun s j ∧ isStale t j = isStale s j) ∧
    (o = .timeout → timeoutRun t i = min (timeoutRun s i + 1) s.cfg.staleThreshold ∧
      (s.cfg.staleThreshold ≤ timeoutRun s i + 1 → isStale t i = true) ∧
      (timeoutRun s i + 1 < s.cfg.staleThreshold → isStale t i = isStale s i)) ∧
    (o ≠ .timeout → timeoutRun t i = 0 ∧ isStale t i = isStale s i)

/-- A stale index is refused by the convenience calls without bus I/O and still reached by `CH_SEND`, and only the end of
an enumeration and a reset clear the mark (R241). -/
def Obligations.StaleIndexIsExcluded : Prop :=
  (∀ (s : State) (i reg width : Byte) (v : List Byte), s.ch.op = .none → isStale s i = true →
    exec (.chReadReg i reg) s = .next (respond s.port.agent [0x08#8] s) ∧
    (1 ≤ width.toNat → width.toNat ≤ 4 →
      exec (.chWriteReg i reg width v) s = .next (respond s.port.agent [0x08#8] s))) ∧
  (∀ (s : State) (i code : Byte) (len : Half) (p : List Byte), s.ch.op = .none → isStale s i = true →
    len.toNat ≤ 255 → ∃ t, exec (.chSend i code len p) s = .next t ∧
      t.chp.written = s.chp.written ++ [{ time := s.now, frame := build i code p }]) ∧
  (∀ (s t : State) (i : Byte), step s = .next t → isStale s i = true → isStale t i = false →
    (s.ch.op = .enumerate ∧ t.ch.op = .none) ∨ resetNow s = true)

/-- The registry changes only by `CH_INVALIDATE`, which empties it, by the end of an enumeration, which replaces it by the
units found, and by reset, which empties it (R242). -/
def Obligations.RegistryChangesOnlyThreeWays : Prop :=
  ∀ s t : State, step s = .next t → t.ch.registry ≠ s.ch.registry →
    ((∃ u : State, fetch s = some ([0x14#8], u)) ∧ t.ch.registry = []) ∨
    (s.ch.op = .enumerate ∧ t.ch.op = .none ∧ t.ch.registry = t.ch.enumAcc) ∨
    (resetNow s = true ∧ t.ch.registry = [])

/-- No command of one unit changes the other: framer commands leave the chain engine and its port, chain commands leave
the framer; none changes `now`, the parameters or what the lines will do (R82; 92_eei_decisions.md D47). -/
def Obligations.UnitsAreIndependent : Prop :=
  ∀ (i : Instr) (s t : State), exec i s = .next t →
    (ofFramer i = true → t.ch = s.ch ∧ t.chp = s.chp) ∧ (ofFramer i = false → t.fr = s.fr) ∧
    t.now = s.now ∧ t.cfg = s.cfg ∧ t.lineIn = s.lineIn ∧ t.port.inputs = s.port.inputs

/-- No command writes the diagnostic counter, the notifications or the front end's view of the line, and only
`DMX_WRITE` writes a slot (R33, R35, R39, R291). -/
def Obligations.CommandsLeaveReceiverRecords : Prop :=
  ∀ (i : Instr) (s t : State), exec i s = .next t →
    t.fr.diagCount = s.fr.diagCount ∧ t.fr.notify = s.fr.notify ∧ t.fr.rxMarkStart = s.fr.rxMarkStart ∧
    t.fr.front.level = s.fr.front.level ∧
    ((∀ addr v, i ≠ .dmxWrite addr v) → t.fr.slots = s.fr.slots)

/-- Outside a reset, notifications and responses are only appended: none is lost, merged or reordered (R39, R84,
R290). The lists of responses and of frames written are the model's own (log 8). -/
def Obligations.OutputsAreOnlyAppended : Prop :=
  ∀ s t : State, step s = .next t → resetNow s = false →
    (∃ l, t.fr.notify = s.fr.notify ++ l) ∧ (∃ l, t.port.responses = s.port.responses ++ l) ∧
    (∃ l, t.chp.written = s.chp.written ++ l)

/-- Every step keeps the framer's invariant, from every state that has it. That a reset keeps its clause on the snapshot
rests on the zeros the model chose for `FR.tx_snap` (log 7). -/
def Obligations.FramerInvariantIsKept : Prop :=
  ∀ s t : State, FramerInv s → step s = .next t → FramerInv t

/-- Every step keeps the receive front end's invariant, from every state that has it and admissible parameters; the front
end's fields are the model's (log 10). -/
def Obligations.ReceiverInvariantIsKept : Prop :=
  ∀ s t : State, s.cfg.admissible = true → ReceiverInv s → step s = .next t → ReceiverInv t

/-- Every step keeps the chain engine's invariant, from every state that has it and admissible parameters. -/
def Obligations.ChainInvariantIsKept : Prop :=
  ∀ s t : State, s.cfg.admissible = true → ChainInv s → step s = .next t → ChainInv t

/-- The reset state has every invariant. The clause on the snapshot rests on the zeros the model chose for `FR.tx_snap`
(log 7), the one on the parameters on the values it has at reset (log 1, log 24), those on the line at Mark on log 10. -/
def Obligations.ResetMeetsTheInvariants : Prop := Inv State.reset

/-- The values R56 gives for reset (`FR.tx_snap`, which it leaves unspecified, and the model's own fields aside). -/
def Obligations.ResetValuesAreThoseOfTheTable : Prop :=
  let f := State.reset.fr
  let c := State.reset.ch
  (∀ a, slotRead f.slots a = 0x00#8) ∧ f.mode = .controller ∧ f.diagCount = 0#32 ∧
  f.tx = .idle ∧ f.txSegEnd = 0 ∧ f.txIssuer = none ∧ f.rx = .off ∧ f.rxBuf = [] ∧ f.rxMarkStart = 0 ∧
  f.notify = [] ∧ f.dmxTx = .mark ∧ f.dmxTxEn = true ∧ c.txEn = false ∧ c.state = .idle ∧ c.op = .none ∧
  c.issuer = none ∧ c.req = [] ∧ c.index = 0x00#8 ∧ c.attempt = 0 ∧ c.retries = 0 ∧ c.deadline = 0 ∧ c.rx = [] ∧
  c.resp = none ∧ c.lastOutcome = 0xFF#8 ∧ c.enumCursor = 0x00#8 ∧ c.enumAcc = [] ∧ c.registry = [] ∧
  (∀ i, timeoutRun State.reset i = 0 ∧ isStale State.reset i = false) ∧ State.reset.now = 0 ∧
  State.reset.chp.unread = []

/-- The reset input, taken in a step, puts every field that R56 lists at its reset value, keeps the parameters, and gives
no response to a command in progress (R310, R311). What of the environment survives a reset is the model's choice
(log 17), and so are the emptied list of responses (log 8), the zeros of `FR.tx_snap` (log 7), and that the reset goes
before an internal step due at the same instant (log 2). -/
def Obligations.ResetInputRestoresTheTable : Prop :=
  ∀ (s : State) (rest : List LineInput), lineEventNext s .reset rest = true →
    ∃ t, step s = .next t ∧ t.cfg = s.cfg ∧ t.now = 0 ∧ t.ch = State.reset.ch ∧ t.chp.unread = [] ∧
      t.fr = { State.reset.fr with front := t.fr.front } ∧ t.port.responses = []
end

