-- ==== Sys2Proof/Laws/Encoding.lean ====
section
/-! SUPPORT. The operand forms: 16-bit fields from their two bytes and back (30_encoding.md R93, R94), little-endian
values (00_scope.md R13), and the chain frame builder (R110, R111). -/

namespace Sys2Proof.Machine

/-- The two bytes of a 16-bit field give it back. -/
@[simp] theorem half_halfLo_halfHi (h : Half) : half (halfLo h) (halfHi h) = h := by
  apply BitVec.eq_of_toNat_eq
  have := h.isLt
  simp [half, halfLo, halfHi, Nat.shiftRight_eq_div_pow]
  omega

@[simp] theorem halfLo_half (lo hi : Byte) : halfLo (half lo hi) = lo := by
  apply BitVec.eq_of_toNat_eq
  have := lo.isLt
  have := hi.isLt
  simp [half, halfLo]
  omega

@[simp] theorem halfHi_half (lo hi : Byte) : halfHi (half lo hi) = hi := by
  apply BitVec.eq_of_toNat_eq
  have := lo.isLt
  have := hi.isLt
  simp [half, halfHi, Nat.shiftRight_eq_div_pow]
  omega

theorem half_toNat (lo hi : Byte) : (half lo hi).toNat = lo.toNat + 256 * hi.toNat := by
  have := lo.isLt
  have := hi.isLt
  simp [half]
  omega

@[simp] theorem leEncode_length (v w : Nat) : (leEncode v w).length = w := by
  induction w generalizing v with
  | zero => rfl
  | succ w ih => simp [leEncode, ih]

/-- Decoding a little-endian value gives it back, modulo its width (R13). -/
theorem leDecode_leEncode (v w : Nat) : leDecode (leEncode v w) = v % 256 ^ w := by
  induction w generalizing v with
  | zero => simp [leEncode, leDecode, Nat.mod_one]
  | succ w ih =>
    simp only [leEncode, leDecode, ih, BitVec.toNat_ofNat]
    rw [show 256 ^ (w + 1) = 256 * 256 ^ w from Nat.pow_succ', Nat.mod_mul]

/-- A value of at most four bytes fits the four bytes a response carries (R236). -/
theorem leDecode_lt (bs : List Byte) : leDecode bs < 256 ^ bs.length := by
  induction bs with
  | nil => simp [leDecode]
  | cons b bs ih =>
    have := b.isLt
    simp only [leDecode, List.length_cons, Nat.pow_succ']
    omega

@[simp] theorem frameBody_length (index code : Byte) (p : List Byte) : (frameBody index code p).length = 3 + p.length := by
  simp [frameBody]; omega

/-- A CommandFrame has `4 + n` bytes (R110). -/
@[simp] theorem build_length (index code : Byte) (p : List Byte) : (build index code p).length = 4 + p.length := by
  simp [build]; omega

theorem build_eq (index code : Byte) (p : List Byte) :
    build index code p = index :: code :: BitVec.ofNat 8 p.length :: (p ++ [xorFold (frameBody index code p)]) := by
  simp [build, frameBody]

theorem ofNat_length_toNat {p : List Byte} (h : p.length ≤ 255) : (BitVec.ofNat 8 p.length).toNat = p.length := by
  simp; omega

/-- Bit `i` of the samples' number is the `i`-th sample (R162). -/
theorem byteOfBits_testBit (bits : List Bool) : ∀ i, (byteOfBits bits).testBit i = bits.getD i false := by
  induction bits with
  | nil => intro i; simp [byteOfBits]
  | cons b bs ih =>
    intro i
    cases i with
    | zero => cases b <;> simp [byteOfBits]
    | succ i =>
      rw [Nat.testBit_succ, List.getD_cons_succ, ← ih i]
      congr 1
      cases b <;> simp [byteOfBits] <;> omega

end Sys2Proof.Machine
end

