-- ==== Sys2Proof/Laws/State.lean ====
section
/-! SUPPORT. What each named update of the state does to each of its fields, so that no later proof unfolds a record
update: one lemma per field per update. The lemmas about fields inside `fr`, `ch` and `chp` follow from the equations
for the whole unit given here, which simp reads off. -/

namespace Sys2Proof.Machine

variable (s : State)

@[simp] theorem respond_cfg (a : Agent) (bytes : List Byte) : (respond a bytes s).cfg = s.cfg := rfl
@[simp] theorem respond_now (a : Agent) (bytes : List Byte) : (respond a bytes s).now = s.now := rfl
@[simp] theorem respond_fr (a : Agent) (bytes : List Byte) : (respond a bytes s).fr = s.fr := rfl
@[simp] theorem respond_ch (a : Agent) (bytes : List Byte) : (respond a bytes s).ch = s.ch := rfl
@[simp] theorem respond_chp (a : Agent) (bytes : List Byte) : (respond a bytes s).chp = s.chp := rfl
@[simp] theorem respond_port (a : Agent) (bytes : List Byte) :
    (respond a bytes s).port = { s.port with responses := s.port.responses ++ [{ agent := a, time := s.now, bytes := bytes }] } := rfl
@[simp] theorem respond_lineIn (a : Agent) (bytes : List Byte) : (respond a bytes s).lineIn = s.lineIn := rfl

@[simp] theorem raiseOutcome_cfg (o : OutcomeCode) : (raiseOutcome o s).cfg = s.cfg := rfl
@[simp] theorem raiseOutcome_now (o : OutcomeCode) : (raiseOutcome o s).now = s.now := rfl
@[simp] theorem raiseOutcome_fr (o : OutcomeCode) : (raiseOutcome o s).fr = s.fr := rfl
@[simp] theorem raiseOutcome_ch (o : OutcomeCode) : (raiseOutcome o s).ch = s.ch := rfl
@[simp] theorem raiseOutcome_chp (o : OutcomeCode) : (raiseOutcome o s).chp = s.chp := rfl
@[simp] theorem raiseOutcome_port (o : OutcomeCode) :
    (raiseOutcome o s).port = { s.port with responses := s.port.responses ++ [{ agent := s.port.agent, time := s.now, bytes := [outcomeByte o] }] } := rfl
@[simp] theorem raiseOutcome_lineIn (o : OutcomeCode) : (raiseOutcome o s).lineIn = s.lineIn := rfl

@[simp] theorem returnOk_cfg (r : List Byte) : (returnOk r s).cfg = s.cfg := rfl
@[simp] theorem returnOk_now (r : List Byte) : (returnOk r s).now = s.now := rfl
@[simp] theorem returnOk_fr (r : List Byte) : (returnOk r s).fr = s.fr := rfl
@[simp] theorem returnOk_ch (r : List Byte) : (returnOk r s).ch = s.ch := rfl
@[simp] theorem returnOk_chp (r : List Byte) : (returnOk r s).chp = s.chp := rfl
@[simp] theorem returnOk_port (r : List Byte) :
    (returnOk r s).port = { s.port with responses := s.port.responses ++ [{ agent := s.port.agent, time := s.now, bytes := outcomeByte .ok :: r }] } := rfl
@[simp] theorem returnOk_lineIn (r : List Byte) : (returnOk r s).lineIn = s.lineIn := rfl

@[simp] theorem claimEngine_cfg (kind : ChainOp) : (claimEngine kind s).cfg = s.cfg := rfl
@[simp] theorem claimEngine_now (kind : ChainOp) : (claimEngine kind s).now = s.now := rfl
@[simp] theorem claimEngine_fr (kind : ChainOp) : (claimEngine kind s).fr = s.fr := rfl
@[simp] theorem claimEngine_ch (kind : ChainOp) :
    (claimEngine kind s).ch = { s.ch with op := kind, issuer := some s.port.agent } := rfl
@[simp] theorem claimEngine_chp (kind : ChainOp) : (claimEngine kind s).chp = s.chp := rfl
@[simp] theorem claimEngine_port (kind : ChainOp) : (claimEngine kind s).port = s.port := rfl
@[simp] theorem claimEngine_lineIn (kind : ChainOp) : (claimEngine kind s).lineIn = s.lineIn := rfl

@[simp] theorem startAttempt_cfg : (startAttempt s).cfg = s.cfg := rfl
@[simp] theorem startAttempt_now : (startAttempt s).now = s.now := rfl
@[simp] theorem startAttempt_fr : (startAttempt s).fr = s.fr := rfl
@[simp] theorem startAttempt_ch :
    (startAttempt s).ch = { s.ch with rx := [], state := .sent, txEn := true } := rfl
@[simp] theorem startAttempt_chp :
    (startAttempt s).chp = { s.chp with unread := [], writeStart := s.now, written := s.chp.written ++ [{ time := s.now, frame := s.ch.req }] } := rfl
@[simp] theorem startAttempt_port : (startAttempt s).port = s.port := rfl
@[simp] theorem startAttempt_lineIn : (startAttempt s).lineIn = s.lineIn := rfl

@[simp] theorem sendFrame_cfg (dest code : Byte) (p : List Byte) : (sendFrame dest code p s).cfg = s.cfg := rfl
@[simp] theorem sendFrame_now (dest code : Byte) (p : List Byte) : (sendFrame dest code p s).now = s.now := rfl
@[simp] theorem sendFrame_fr (dest code : Byte) (p : List Byte) : (sendFrame dest code p s).fr = s.fr := rfl
@[simp] theorem sendFrame_ch (dest code : Byte) (p : List Byte) :
    (sendFrame dest code p s).ch = { s.ch with req := build dest code p, rx := [], state := .sent, txEn := true } := rfl
@[simp] theorem sendFrame_chp (dest code : Byte) (p : List Byte) :
    (sendFrame dest code p s).chp = { s.chp with unread := [], writeStart := s.now, written := s.chp.written ++ [{ time := s.now, frame := build dest code p }] } := rfl
@[simp] theorem sendFrame_port (dest code : Byte) (p : List Byte) : (sendFrame dest code p s).port = s.port := rfl
@[simp] theorem sendFrame_lineIn (dest code : Byte) (p : List Byte) : (sendFrame dest code p s).lineIn = s.lineIn := rfl

@[simp] theorem prepareRequest_cfg (index : Byte) (retries : Nat) : (prepareRequest index retries s).cfg = s.cfg := rfl
@[simp] theorem prepareRequest_now (index : Byte) (retries : Nat) : (prepareRequest index retries s).now = s.now := rfl
@[simp] theorem prepareRequest_fr (index : Byte) (retries : Nat) : (prepareRequest index retries s).fr = s.fr := rfl
@[simp] theorem prepareRequest_ch (index : Byte) (retries : Nat) :
    (prepareRequest index retries s).ch = { s.ch with state := .idle, index := index, attempt := 0, retries := retries } := rfl
@[simp] theorem prepareRequest_chp (index : Byte) (retries : Nat) : (prepareRequest index retries s).chp = s.chp := rfl
@[simp] theorem prepareRequest_port (index : Byte) (retries : Nat) : (prepareRequest index retries s).port = s.port := rfl
@[simp] theorem prepareRequest_lineIn (index : Byte) (retries : Nat) : (prepareRequest index retries s).lineIn = s.lineIn := rfl

@[simp] theorem startRequest_cfg (index code : Byte) (p : List Byte) (retries : Nat) : (startRequest index code p retries s).cfg = s.cfg := rfl
@[simp] theorem startRequest_now (index code : Byte) (p : List Byte) (retries : Nat) : (startRequest index code p retries s).now = s.now := rfl
@[simp] theorem startRequest_fr (index code : Byte) (p : List Byte) (retries : Nat) : (startRequest index code p retries s).fr = s.fr := rfl
@[simp] theorem startRequest_ch (index code : Byte) (p : List Byte) (retries : Nat) :
    (startRequest index code p retries s).ch = { s.ch with req := build index code p, rx := [], state := .sent, txEn := true, index := index, attempt := 0, retries := retries } := rfl
@[simp] theorem startRequest_chp (index code : Byte) (p : List Byte) (retries : Nat) :
    (startRequest index code p retries s).chp = { s.chp with unread := [], writeStart := s.now, written := s.chp.written ++ [{ time := s.now, frame := build index code p }] } := rfl
@[simp] theorem startRequest_port (index code : Byte) (p : List Byte) (retries : Nat) : (startRequest index code p retries s).port = s.port := rfl
@[simp] theorem startRequest_lineIn (index code : Byte) (p : List Byte) (retries : Nat) : (startRequest index code p retries s).lineIn = s.lineIn := rfl

@[simp] theorem freeEngine_cfg (o : OutcomeCode) : (freeEngine o s).cfg = s.cfg := rfl
@[simp] theorem freeEngine_now (o : OutcomeCode) : (freeEngine o s).now = s.now := rfl
@[simp] theorem freeEngine_fr (o : OutcomeCode) : (freeEngine o s).fr = s.fr := rfl
@[simp] theorem freeEngine_ch (o : OutcomeCode) :
    (freeEngine o s).ch = { s.ch with lastOutcome := outcomeByte o, op := .none, issuer := none } := rfl
@[simp] theorem freeEngine_chp (o : OutcomeCode) : (freeEngine o s).chp = s.chp := rfl
@[simp] theorem freeEngine_port (o : OutcomeCode) : (freeEngine o s).port = s.port := rfl
@[simp] theorem freeEngine_lineIn (o : OutcomeCode) : (freeEngine o s).lineIn = s.lineIn := rfl

@[simp] theorem writeDone_cfg : (writeDone s).cfg = s.cfg := rfl
@[simp] theorem writeDone_now : (writeDone s).now = s.now := rfl
@[simp] theorem writeDone_fr : (writeDone s).fr = s.fr := rfl
@[simp] theorem writeDone_ch :
    (writeDone s).ch = { s.ch with txEn := false, state := .awaitingResponse, deadline := s.now + s.cfg.timeoutMs * 1000 } := rfl
@[simp] theorem writeDone_chp :
    (writeDone s).chp = nextDraw s.chp := rfl
@[simp] theorem writeDone_port : (writeDone s).port = s.port := rfl
@[simp] theorem writeDone_lineIn : (writeDone s).lineIn = s.lineIn := rfl

@[simp] theorem validateFrame_cfg : (validateFrame s).cfg = s.cfg := rfl
@[simp] theorem validateFrame_now : (validateFrame s).now = s.now := rfl
@[simp] theorem validateFrame_fr : (validateFrame s).fr = s.fr := rfl
@[simp] theorem validateFrame_chp : (validateFrame s).chp = s.chp := rfl
@[simp] theorem validateFrame_port : (validateFrame s).port = s.port := rfl
@[simp] theorem validateFrame_lineIn : (validateFrame s).lineIn = s.lineIn := rfl

@[simp] theorem retryRequest_cfg : (retryRequest s).cfg = s.cfg := rfl
@[simp] theorem retryRequest_now : (retryRequest s).now = s.now := rfl
@[simp] theorem retryRequest_fr : (retryRequest s).fr = s.fr := rfl
@[simp] theorem retryRequest_ch :
    (retryRequest s).ch = { s.ch with attempt := s.ch.attempt + 1, rx := [], state := .sent, txEn := true } := rfl
@[simp] theorem retryRequest_chp :
    (retryRequest s).chp = { s.chp with unread := [], writeStart := s.now, written := s.chp.written ++ [{ time := s.now, frame := s.ch.req }] } := rfl
@[simp] theorem retryRequest_port : (retryRequest s).port = s.port := rfl
@[simp] theorem retryRequest_lineIn : (retryRequest s).lineIn = s.lineIn := rfl

@[simp] theorem startPing_cfg (i : Byte) : (startPing i s).cfg = s.cfg := rfl
@[simp] theorem startPing_now (i : Byte) : (startPing i s).now = s.now := rfl
@[simp] theorem startPing_fr (i : Byte) : (startPing i s).fr = s.fr := rfl
@[simp] theorem startPing_ch (i : Byte) :
    (startPing i s).ch = { s.ch with enumCursor := i, req := build i s.cfg.pingCode [], rx := [], state := .sent, txEn := true, index := i, attempt := 0, retries := 0 } := rfl
@[simp] theorem startPing_chp (i : Byte) :
    (startPing i s).chp = { s.chp with unread := [], writeStart := s.now, written := s.chp.written ++ [{ time := s.now, frame := build i s.cfg.pingCode [] }] } := rfl
@[simp] theorem startPing_port (i : Byte) : (startPing i s).port = s.port := rfl
@[simp] theorem startPing_lineIn (i : Byte) : (startPing i s).lineIn = s.lineIn := rfl

@[simp] theorem rxGoto_cfg (st : RxState) : (rxGoto st s).cfg = s.cfg := rfl
@[simp] theorem rxGoto_now (st : RxState) : (rxGoto st s).now = s.now := rfl
@[simp] theorem rxGoto_fr (st : RxState) :
    (rxGoto st s).fr = { s.fr with rx := st, rxBuf := [] } := rfl
@[simp] theorem rxGoto_ch (st : RxState) : (rxGoto st s).ch = s.ch := rfl
@[simp] theorem rxGoto_chp (st : RxState) : (rxGoto st s).chp = s.chp := rfl
@[simp] theorem rxGoto_port (st : RxState) : (rxGoto st s).port = s.port := rfl
@[simp] theorem rxGoto_lineIn (st : RxState) : (rxGoto st s).lineIn = s.lineIn := rfl

@[simp] theorem rxDrop_cfg (st : RxState) : (rxDrop st s).cfg = s.cfg := rfl
@[simp] theorem rxDrop_now (st : RxState) : (rxDrop st s).now = s.now := rfl
@[simp] theorem rxDrop_fr (st : RxState) :
    (rxDrop st s).fr = { s.fr with rx := st, rxBuf := [], diagCount := s.fr.diagCount + 1#32 } := rfl
@[simp] theorem rxDrop_ch (st : RxState) : (rxDrop st s).ch = s.ch := rfl
@[simp] theorem rxDrop_chp (st : RxState) : (rxDrop st s).chp = s.chp := rfl
@[simp] theorem rxDrop_port (st : RxState) : (rxDrop st s).port = s.port := rfl
@[simp] theorem rxDrop_lineIn (st : RxState) : (rxDrop st s).lineIn = s.lineIn := rfl

@[simp] theorem rxCommit_cfg : (rxCommit s).cfg = s.cfg := rfl
@[simp] theorem rxCommit_now : (rxCommit s).now = s.now := rfl
@[simp] theorem rxCommit_ch : (rxCommit s).ch = s.ch := rfl
@[simp] theorem rxCommit_chp : (rxCommit s).chp = s.chp := rfl
@[simp] theorem rxCommit_port : (rxCommit s).port = s.port := rfl
@[simp] theorem rxCommit_lineIn : (rxCommit s).lineIn = s.lineIn := rfl

@[simp] theorem setFront_cfg (f : FrontEnd) : (setFront f s).cfg = s.cfg := rfl
@[simp] theorem setFront_now (f : FrontEnd) : (setFront f s).now = s.now := rfl
@[simp] theorem setFront_fr (f : FrontEnd) :
    (setFront f s).fr = { s.fr with front := f } := rfl
@[simp] theorem setFront_ch (f : FrontEnd) : (setFront f s).ch = s.ch := rfl
@[simp] theorem setFront_chp (f : FrontEnd) : (setFront f s).chp = s.chp := rfl
@[simp] theorem setFront_port (f : FrontEnd) : (setFront f s).port = s.port := rfl
@[simp] theorem setFront_lineIn (f : FrontEnd) : (setFront f s).lineIn = s.lineIn := rfl

@[simp] theorem startSegment_cfg (seg : TxState) (level : Level) (dur : Nat) : (startSegment seg level dur s).cfg = s.cfg := rfl
@[simp] theorem startSegment_now (seg : TxState) (level : Level) (dur : Nat) : (startSegment seg level dur s).now = s.now := rfl
@[simp] theorem startSegment_fr (seg : TxState) (level : Level) (dur : Nat) :
    (startSegment seg level dur s).fr = { s.fr with tx := seg, txSegEnd := s.now + dur, dmxTx := level } := rfl
@[simp] theorem startSegment_ch (seg : TxState) (level : Level) (dur : Nat) : (startSegment seg level dur s).ch = s.ch := rfl
@[simp] theorem startSegment_chp (seg : TxState) (level : Level) (dur : Nat) : (startSegment seg level dur s).chp = s.chp := rfl
@[simp] theorem startSegment_port (seg : TxState) (level : Level) (dur : Nat) : (startSegment seg level dur s).port = s.port := rfl
@[simp] theorem startSegment_lineIn (seg : TxState) (level : Level) (dur : Nat) : (startSegment seg level dur s).lineIn = s.lineIn := rfl

@[simp] theorem startByte_cfg (k : Nat) : (startByte k s).cfg = s.cfg := rfl
@[simp] theorem startByte_now (k : Nat) : (startByte k s).now = s.now := rfl
@[simp] theorem startByte_fr (k : Nat) :
    (startByte k s).fr = { s.fr with tx := .byte k, txSegEnd := s.now + tByte, dmxTx := .space } := rfl
@[simp] theorem startByte_ch (k : Nat) : (startByte k s).ch = s.ch := rfl
@[simp] theorem startByte_chp (k : Nat) : (startByte k s).chp = s.chp := rfl
@[simp] theorem startByte_port (k : Nat) : (startByte k s).port = s.port := rfl
@[simp] theorem startByte_lineIn (k : Nat) : (startByte k s).lineIn = s.lineIn := rfl

@[simp] theorem beginTransmit_cfg : (beginTransmit s).cfg = s.cfg := rfl
@[simp] theorem beginTransmit_now : (beginTransmit s).now = s.now := rfl
@[simp] theorem beginTransmit_fr :
    (beginTransmit s).fr = { s.fr with txSnap := startCode :: slotImage s.fr.slots, txIssuer := some s.port.agent, tx := .brk, txSegEnd := s.now + s.cfg.txBreakUs, dmxTx := .space } := rfl
@[simp] theorem beginTransmit_ch : (beginTransmit s).ch = s.ch := rfl
@[simp] theorem beginTransmit_chp : (beginTransmit s).chp = s.chp := rfl
@[simp] theorem beginTransmit_port : (beginTransmit s).port = s.port := rfl
@[simp] theorem beginTransmit_lineIn : (beginTransmit s).lineIn = s.lineIn := rfl

@[simp] theorem enterReceiver_cfg : (enterReceiver s).cfg = s.cfg := rfl
@[simp] theorem enterReceiver_now : (enterReceiver s).now = s.now := rfl
@[simp] theorem enterReceiver_ch : (enterReceiver s).ch = s.ch := rfl
@[simp] theorem enterReceiver_chp : (enterReceiver s).chp = s.chp := rfl
@[simp] theorem enterReceiver_port : (enterReceiver s).port = s.port := rfl
@[simp] theorem enterReceiver_lineIn : (enterReceiver s).lineIn = s.lineIn := rfl

@[simp] theorem enterController_cfg : (enterController s).cfg = s.cfg := rfl
@[simp] theorem enterController_now : (enterController s).now = s.now := rfl
@[simp] theorem enterController_ch : (enterController s).ch = s.ch := rfl
@[simp] theorem enterController_chp : (enterController s).chp = s.chp := rfl
@[simp] theorem enterController_port : (enterController s).port = s.port := rfl
@[simp] theorem enterController_lineIn : (enterController s).lineIn = s.lineIn := rfl

@[simp] theorem deliverCommand_cfg (bytes : List Byte) : (deliverCommand bytes s).cfg = s.cfg := rfl
@[simp] theorem deliverCommand_now (bytes : List Byte) : (deliverCommand bytes s).now = s.now := rfl
@[simp] theorem deliverCommand_fr (bytes : List Byte) : (deliverCommand bytes s).fr = s.fr := rfl
@[simp] theorem deliverCommand_ch (bytes : List Byte) : (deliverCommand bytes s).ch = s.ch := rfl
@[simp] theorem deliverCommand_chp (bytes : List Byte) : (deliverCommand bytes s).chp = s.chp := rfl
@[simp] theorem deliverCommand_lineIn (bytes : List Byte) : (deliverCommand bytes s).lineIn = s.lineIn := rfl

@[simp] theorem respondTo_cfg (a : Option Agent) (bytes : List Byte) : (respondTo a bytes s).cfg = s.cfg := by cases a <;> rfl
@[simp] theorem respondTo_now (a : Option Agent) (bytes : List Byte) : (respondTo a bytes s).now = s.now := by cases a <;> rfl
@[simp] theorem respondTo_fr (a : Option Agent) (bytes : List Byte) : (respondTo a bytes s).fr = s.fr := by cases a <;> rfl
@[simp] theorem respondTo_ch (a : Option Agent) (bytes : List Byte) : (respondTo a bytes s).ch = s.ch := by cases a <;> rfl
@[simp] theorem respondTo_chp (a : Option Agent) (bytes : List Byte) : (respondTo a bytes s).chp = s.chp := by cases a <;> rfl
@[simp] theorem respondTo_lineIn (a : Option Agent) (bytes : List Byte) : (respondTo a bytes s).lineIn = s.lineIn := by cases a <;> rfl

@[simp] theorem updateStale_cfg (i : Byte) (o : OutcomeCode) : (updateStale i o s).cfg = s.cfg := by unfold updateStale; split <;> rfl
@[simp] theorem updateStale_now (i : Byte) (o : OutcomeCode) : (updateStale i o s).now = s.now := by unfold updateStale; split <;> rfl
@[simp] theorem updateStale_fr (i : Byte) (o : OutcomeCode) : (updateStale i o s).fr = s.fr := by unfold updateStale; split <;> rfl
@[simp] theorem updateStale_chp (i : Byte) (o : OutcomeCode) : (updateStale i o s).chp = s.chp := by unfold updateStale; split <;> rfl
@[simp] theorem updateStale_port (i : Byte) (o : OutcomeCode) : (updateStale i o s).port = s.port := by unfold updateStale; split <;> rfl
@[simp] theorem updateStale_lineIn (i : Byte) (o : OutcomeCode) : (updateStale i o s).lineIn = s.lineIn := by unfold updateStale; split <;> rfl

@[simp] theorem hostWaited_cfg : (hostWaited s).cfg = s.cfg := by unfold hostWaited; split <;> [split <;> rfl; rfl]
@[simp] theorem hostWaited_now : (hostWaited s).now = s.now := by unfold hostWaited; split <;> [split <;> rfl; rfl]
@[simp] theorem hostWaited_fr : (hostWaited s).fr = s.fr := by unfold hostWaited; split <;> [split <;> rfl; rfl]
@[simp] theorem hostWaited_ch : (hostWaited s).ch = s.ch := by unfold hostWaited; split <;> [split <;> rfl; rfl]
@[simp] theorem hostWaited_chp : (hostWaited s).chp = s.chp := by unfold hostWaited; split <;> [split <;> rfl; rfl]
@[simp] theorem hostWaited_lineIn : (hostWaited s).lineIn = s.lineIn := by unfold hostWaited; split <;> [split <;> rfl; rfl]

@[simp] theorem respondTo_some (a : Agent) (bytes : List Byte) : respondTo (some a) bytes s = respond a bytes s := rfl
@[simp] theorem respondTo_none (bytes : List Byte) : respondTo none bytes s = s := rfl

@[simp] theorem respondTo_inputs (a : Option Agent) (bytes : List Byte) :
    (respondTo a bytes s).port.inputs = s.port.inputs := by cases a <;> rfl
@[simp] theorem respondTo_agent (a : Option Agent) (bytes : List Byte) :
    (respondTo a bytes s).port.agent = s.port.agent := by cases a <;> rfl

@[simp] theorem hostWaited_agent : (hostWaited s).port.agent = s.port.agent := by
  unfold hostWaited; split <;> [split <;> rfl; rfl]
@[simp] theorem hostWaited_responses : (hostWaited s).port.responses = s.port.responses := by
  unfold hostWaited; split <;> [split <;> rfl; rfl]

@[simp] theorem validateFrame_state : (validateFrame s).ch.state = validated s.ch.rx s.ch.index := rfl
@[simp] theorem validateFrame_rx : (validateFrame s).ch.rx = s.ch.rx := rfl
@[simp] theorem validateFrame_op : (validateFrame s).ch.op = s.ch.op := rfl
@[simp] theorem validateFrame_index : (validateFrame s).ch.index = s.ch.index := rfl
@[simp] theorem validateFrame_issuer : (validateFrame s).ch.issuer = s.ch.issuer := rfl

@[simp] theorem rxCommit_rx : (rxCommit s).fr.rx = .inBreak := rfl
@[simp] theorem rxCommit_rxBuf : (rxCommit s).fr.rxBuf = [] := rfl
@[simp] theorem rxCommit_slots : (rxCommit s).fr.slots = commitSlots 1 s.fr.rxBuf s.fr.slots := rfl
@[simp] theorem rxCommit_notify :
    (rxCommit s).fr.notify = s.fr.notify ++ commitNotes 1 s.fr.rxBuf s.fr.slots := rfl
@[simp] theorem rxCommit_front : (rxCommit s).fr.front = s.fr.front := rfl
@[simp] theorem rxCommit_mode : (rxCommit s).fr.mode = s.fr.mode := rfl
@[simp] theorem rxCommit_diagCount : (rxCommit s).fr.diagCount = s.fr.diagCount := rfl

@[simp] theorem isStale_congr (i : Byte) (c : Chain) (h : c.stale = s.ch.stale) :
    isStale { s with ch := c } i = isStale s i := by simp [isStale, h]

end Sys2Proof.Machine
end

