-- ==== Sys2Proof/Laws/Step.lean ====
section
/-! SUPPORT. What one step can do, said once: the inversion of `step` and of the choice of the agent that moves
(44_serial_timing.md R260, R266), and what TC does to `now`. -/

namespace Sys2Proof.Machine

/-- A step that answers a next state accepted a command, or answered one that decodes to nothing, or let another agent
move. -/
theorem step_cases {s t : State} (h : step s = .next t) :
    (∃ bytes u i, fetch s = some (bytes, u) ∧ decode bytes = .ok i ∧ exec i u = .next t) ∨
    (∃ bytes u e, fetch s = some (bytes, u) ∧ decode bytes = .error e ∧ t = raiseOutcome .illegalCommand u) ∨
    (fetch s = none ∧ t = background s) := by
  unfold step at h
  cases hf : fetch s with
  | none =>
    rw [hf] at h
    exact .inr (.inr ⟨rfl, by injection h with h; exact h.symm⟩)
  | some p =>
    obtain ⟨bytes, u⟩ := p
    simp only [hf] at h
    cases hd : decode bytes with
    | ok i =>
      simp only [hd] at h
      exact .inl ⟨bytes, u, i, rfl, hd, h⟩
    | error e =>
      simp only [hd] at h
      exact .inr (.inl ⟨bytes, u, e, rfl, hd, by injection h with h; exact h.symm⟩)

/-- What accepting a command does to the state before its meaning: the command leaves the port and its agent is noted. -/
theorem fetch_some {s u : State} {bytes : List Byte} (h : fetch s = some (bytes, u)) :
    ∃ c hs, s.port.inputs = c :: hs ∧ c.time ≤ s.now ∧ (c.after = 0 ∨ otherDue s = false) ∧ bytes = c.bytes ∧
      u = { s with port := { s.port with inputs := hs, agent := c.agent } } := by
  unfold fetch at h
  split at h
  · rename_i c hs heq
    split at h
    · rename_i hc
      simp only [Option.some.injEq, Prod.mk.injEq] at h
      exact ⟨c, hs, heq, hc.1, hc.2, h.1.symm, h.2.symm⟩
    · cases h
  · cases h

/-- Which agent moves in a step without a command. -/
theorem background_cases (s : State) :
    (∃ e es, s.lineIn = e :: es ∧ e.time ≤ s.now ∧ background s = lineEvent e.event { hostWaited s with lineIn := es }) ∨
    (due s (lineDueAt s) = false ∧ background s = internalStep s) := by
  unfold background
  split
  · rename_i e es heq
    by_cases he : e.time ≤ s.now
    · exact .inl ⟨e, es, heq, he, by simp [he]⟩
    · exact .inr ⟨by simp [due, lineDueAt, heq, he], by simp [he]⟩
  · rename_i heq
    exact .inr ⟨by simp [due, lineDueAt, heq], rfl⟩

/-- Which internal step is taken: the engine's, the sequencer's, a sample, a break qualification, else time passes. -/
theorem internalStep_cases (s : State) :
    (due s (chainDueAt s) = true ∧ internalStep s = chainStep (hostWaited s)) ∨
    (due s (chainDueAt s) = false ∧ due s (txDueAt s) = true ∧ internalStep s = txStep (hostWaited s)) ∨
    (due s (chainDueAt s) = false ∧ due s (txDueAt s) = false ∧ due s (sampleDueAt s) = true ∧
      internalStep s = sampleStep (hostWaited s)) ∨
    (due s (chainDueAt s) = false ∧ due s (txDueAt s) = false ∧ due s (sampleDueAt s) = false ∧
      due s (breakDueAt s) = true ∧ internalStep s = breakStep (hostWaited s)) ∨
    (due s (chainDueAt s) = false ∧ due s (txDueAt s) = false ∧ due s (sampleDueAt s) = false ∧
      due s (breakDueAt s) = false ∧ internalStep s = advanceTime s) := by
  unfold internalStep
  cases due s (chainDueAt s) <;> cases due s (txDueAt s) <;> cases due s (sampleDueAt s) <;>
    cases due s (breakDueAt s) <;> simp

theorem foldl_min_le (ps : List Nat) (p : Nat) : ps.foldl min p ≤ p ∧ ∀ q ∈ ps, ps.foldl min p ≤ q := by
  induction ps generalizing p with
  | nil => simp
  | cons q qs ih =>
    simp only [List.foldl_cons]
    have h := ih (min p q)
    refine ⟨by omega, fun r hr => ?_⟩
    rcases List.mem_cons.mp hr with rfl | hr
    · omega
    · exact h.2 r hr

theorem le_foldl_min {n : Nat} (ps : List Nat) (p : Nat) (hp : n ≤ p) (h : ∀ q ∈ ps, n ≤ q) : n ≤ ps.foldl min p := by
  induction ps generalizing p with
  | nil => exact hp
  | cons q qs ih =>
    simp only [List.foldl_cons]
    exact ih _ (by have := h q (by simp); omega) (fun r hr => h r (by simp [hr]))

/-- TC never passes a pending instant (R260). -/
theorem advanceTime_le_pending {s : State} {p : Nat} (hp : p ∈ pending s) : (advanceTime s).now ≤ p := by
  unfold advanceTime
  cases hl : pending s with
  | nil => rw [hl] at hp; cases hp
  | cons q qs =>
    rw [hl] at hp
    simp only
    rcases List.mem_cons.mp hp with rfl | hp
    · exact (foldl_min_le qs _).1
    · exact (foldl_min_le qs _).2 p hp

/-- Where every pending instant lies ahead, TC moves `now` forward (R17). -/
theorem lt_advanceTime {s : State} (h : ∀ p ∈ pending s, s.now < p) : s.now < (advanceTime s).now := by
  unfold advanceTime
  cases hl : pending s with
  | nil => simp
  | cons q qs =>
    rw [hl] at h
    simp only
    exact le_foldl_min qs q (h q (by simp)) (fun r hr => h r (by simp [hr]))

theorem mem_pending {s : State} {p : Nat} :
    p ∈ pending s ↔ hostDueAt s = some p ∨ lineDueAt s = some p ∨ chainDueAt s = some p ∨ txDueAt s = some p ∨
      sampleDueAt s = some p ∨ breakDueAt s = some p := by
  simp [pending, List.mem_filterMap, eq_comm]

/-- Where no input is due, no command is accepted and an internal step, or time, moves. -/
theorem no_input {s : State} (h : noInputDue s = true) :
    fetch s = none ∧ hostWaited s = s ∧ background s = internalStep s := by
  simp only [noInputDue, Bool.and_eq_true, Bool.not_eq_true'] at h
  obtain ⟨h1, h2⟩ := h
  have hf : fetch s = none ∧ hostWaited s = s := by
    cases hp : s.port.inputs with
    | nil => simp [fetch, hostWaited, hp]
    | cons c cs =>
      have : ¬ c.time ≤ s.now := by simpa [due, hostDueAt, hp] using h1
      simp [fetch, hostWaited, hp, this]
  refine ⟨hf.1, hf.2, ?_⟩
  rcases background_cases s with ⟨e, es, he, ht, _⟩ | ⟨_, h⟩
  · simp [due, lineDueAt, he] at h2; omega
  · exact h

theorem step_internal {s : State} (h : noInputDue s = true) : step s = .next (internalStep s) := by
  obtain ⟨h1, _, h3⟩ := no_input h
  simp [step, h1, h3]

/-- A line event that is due, with no command before it, is what the step takes. -/
theorem step_line {s : State} {e : LineEvent} {rest : List LineInput} (h : lineEventNext s e rest = true) :
    step s = .next (lineEvent e { s with lineIn := rest }) := by
  unfold lineEventNext at h
  simp only [Bool.and_eq_true, Bool.not_eq_true'] at h
  obtain ⟨⟨h1, h2⟩, h3⟩ := h
  split at h3
  · rename_i x xs hx
    simp only [Bool.and_eq_true, decide_eq_true_eq] at h3
    obtain ⟨rfl, rfl⟩ := h3
    have ht : x.time ≤ s.now := by simpa [due, lineDueAt, hx] using h2
    have hf : fetch s = none ∧ hostWaited s = s := by
      cases hp : s.port.inputs with
      | nil => simp [fetch, hostWaited, hp]
      | cons c cs =>
        have : ¬ c.time ≤ s.now := by simpa [due, hostDueAt, hp] using h1
        simp [fetch, hostWaited, hp, this]
    simp [step, hf.1, background, hx, ht, hf.2]
  · cases h3

theorem lt_of_not_due {s : State} {o : Option Nat} {p : Nat} (h : due s o = false) (hp : o = some p) : s.now < p := by
  subst hp; simpa [due] using h

/-- Where no agent moves, every pending instant lies ahead: TC moves only then (R260). -/
theorem pending_ahead {s : State} (hf : fetch s = none) (hl : due s (lineDueAt s) = false)
    (h1 : due s (chainDueAt s) = false) (h2 : due s (txDueAt s) = false) (h3 : due s (sampleDueAt s) = false)
    (h4 : due s (breakDueAt s) = false) : ∀ p ∈ pending s, s.now < p := by
  intro p hp
  rcases mem_pending.mp hp with h | h | h | h | h | h
  · unfold fetch at hf
    split at hf
    · rename_i c cs hc
      simp [otherDue, hl, h1, h2, h3, h4] at hf
      simp [hostDueAt, hc] at h; omega
    · rename_i hc; simp [hostDueAt, hc] at h
  · exact lt_of_not_due hl h
  · exact lt_of_not_due h1 h
  · exact lt_of_not_due h2 h
  · exact lt_of_not_due h3 h
  · exact lt_of_not_due h4 h

/-- Time passing changes nothing but `now` and the level of the DMX line (R143). -/
theorem advanceTime_frame (s : State) :
    (advanceTime s).cfg = s.cfg ∧ (advanceTime s).ch = s.ch ∧ (advanceTime s).chp = s.chp ∧
    (advanceTime s).port = s.port ∧ (advanceTime s).lineIn = s.lineIn ∧
    (advanceTime s).fr = { s.fr with dmxTx := lineLevel (advanceTime s).now s.fr } := ⟨rfl, rfl, rfl, rfl, rfl, rfl⟩

/-- A parser step changes nothing outside the framer (R175: no outcome reaches a host command). -/
theorem onSymbol_frame (y : Symbol) (s : State) :
    (onSymbol y s).cfg = s.cfg ∧ (onSymbol y s).now = s.now ∧ (onSymbol y s).ch = s.ch ∧ (onSymbol y s).chp = s.chp ∧
    (onSymbol y s).port = s.port ∧ (onSymbol y s).lineIn = s.lineIn ∧ (onSymbol y s).fr.front = s.fr.front ∧
    (onSymbol y s).fr.mode = s.fr.mode ∧ (onSymbol y s).fr.tx = s.fr.tx := by
  cases y <;> simp only [onSymbol, onBreak, onRise, onByte, onFramingError, onMabEnd] <;> cases s.fr.rx <;>
    simp only <;> (repeat' split) <;> refine ⟨?_, ?_, ?_, ?_, ?_, ?_, ?_, ?_, ?_⟩ <;> first | rfl | trivial

/-- The end of a call frees the engine and keeps everything outside the chain engine but the response (R209). -/
theorem finishCall_frame (s : State) :
    (finishCall s).cfg = s.cfg ∧ (finishCall s).now = s.now ∧ (finishCall s).fr = s.fr ∧ (finishCall s).chp = s.chp ∧
    (finishCall s).lineIn = s.lineIn ∧ (finishCall s).ch.op = .none ∧ (finishCall s).ch.issuer = none ∧
    (finishCall s).ch.state = s.ch.state := by
  simp [finishCall]
  unfold updateStale; split <;> rfl

end Sys2Proof.Machine
end

