-- ==== Sys2Proof/Laws/Frames.lean ====
section
/-! SUPPORT. What each agent's step leaves alone, said once per step (00_scope.md R10): the provers cite these and do not
unfold the steps. -/

namespace Sys2Proof.Machine

/-- `t` differs from `s` only in the framer. -/
structure SameButFramer (s t : State) : Prop where
  cfg : t.cfg = s.cfg
  now : t.now = s.now
  ch : t.ch = s.ch
  chp : t.chp = s.chp
  port : t.port = s.port
  lineIn : t.lineIn = s.lineIn

theorem SameButFramer.refl (s : State) : SameButFramer s s := ⟨rfl, rfl, rfl, rfl, rfl, rfl⟩

theorem SameButFramer.trans {a b c : State} (h : SameButFramer a b) (k : SameButFramer b c) : SameButFramer a c :=
  ⟨k.cfg.trans h.cfg, k.now.trans h.now, k.ch.trans h.ch, k.chp.trans h.chp, k.port.trans h.port,
    k.lineIn.trans h.lineIn⟩

theorem setFront_sameButFramer (f : FrontEnd) (s : State) : SameButFramer s (setFront f s) := ⟨rfl, rfl, rfl, rfl, rfl, rfl⟩

theorem onSymbol_sameButFramer (y : Symbol) (s : State) : SameButFramer s (onSymbol y s) := by
  have h := onSymbol_frame y s
  exact ⟨h.1, h.2.1, h.2.2.1, h.2.2.2.1, h.2.2.2.2.1, h.2.2.2.2.2.1⟩

/-- The parser neither reads nor writes the front end (R170 to R177). -/
theorem onSymbol_setFront (y : Symbol) (f : FrontEnd) (s : State) :
    onSymbol y (setFront f s) = setFront f (onSymbol y s) := by
  have hr : (setFront f s).fr.rx = s.fr.rx := rfl
  cases y <;> simp only [onSymbol, onBreak, onRise, onByte, onFramingError, onMabEnd, hr] <;> cases s.fr.rx <;>
    simp only [apply_ite (setFront f)] <;> rfl

@[simp] theorem setFront_setFront (f g : FrontEnd) (s : State) : setFront f (setFront g s) = setFront f s := rfl

theorem breakQualified_sameButFramer (tf : Nat) (s : State) : SameButFramer s (breakQualified tf s) :=
  (setFront_sameButFramer _ s).trans (onSymbol_sameButFramer _ _)

theorem runEnds_sameButFramer (s : State) : SameButFramer s (runEnds s) := by
  unfold runEnds
  split
  · exact .refl s
  · exact (setFront_sameButFramer _ s).trans (onSymbol_sameButFramer _ _)
  · split
    · exact (breakQualified_sameButFramer _ s).trans ((setFront_sameButFramer _ _).trans (onSymbol_sameButFramer _ _))
    · dsimp only; split
      · exact (setFront_sameButFramer _ s).trans (onSymbol_sameButFramer _ _)
      · exact setFront_sameButFramer _ s

theorem dmxEdge_sameButFramer (level : Level) (s : State) : SameButFramer s (dmxEdge level s) := by
  unfold dmxEdge; (repeat' split)
  · exact .refl s
  · exact setFront_sameButFramer _ s
  · exact (onSymbol_sameButFramer _ s).trans (setFront_sameButFramer _ _)
  · exact (setFront_sameButFramer _ s).trans (runEnds_sameButFramer _)

theorem sampleStep_sameButFramer (s : State) : SameButFramer s (sampleStep s) := by
  unfold sampleStep; split
  · unfold takeSample; dsimp only; (repeat' split)
    · exact setFront_sameButFramer _ s
    · exact setFront_sameButFramer _ s
    · exact (setFront_sameButFramer _ s).trans (onSymbol_sameButFramer _ _)
    · exact setFront_sameButFramer _ s
    · exact (setFront_sameButFramer _ s).trans (onSymbol_sameButFramer _ _)
  · exact .refl s

theorem breakStep_sameButFramer (s : State) : SameButFramer s (breakStep s) := by
  unfold breakStep; split
  · exact breakQualified_sameButFramer _ s
  · exact .refl s
  · exact .refl s

/-- The sequencer touches the framer and gives responses, nothing else (R140 to R145). -/
theorem txStep_frame (s : State) :
    (txStep s).cfg = s.cfg ∧ (txStep s).now = s.now ∧ (txStep s).ch = s.ch ∧ (txStep s).chp = s.chp ∧
    (txStep s).lineIn = s.lineIn ∧ (txStep s).port.inputs = s.port.inputs ∧ (txStep s).fr.front = s.fr.front ∧
    (txStep s).fr.rx = s.fr.rx ∧ (txStep s).fr.mode = s.fr.mode := by
  unfold txStep transmitDone
  cases s.fr.tx <;> simp
  split <;> [split <;> simp; simp]

/-- Stale counting writes the runs and the marks, nothing else (R240). -/
theorem updateStale_frame (i : Byte) (o : OutcomeCode) (s : State) :
    ∃ (runs : Vector Nat 256) (marks : Vector Bool 256),
      updateStale i o s = { s with ch := { s.ch with toRun := runs, stale := marks } } := by
  unfold updateStale; dsimp only; split <;> exact ⟨_, _, rfl⟩

/-- The end of a request touches the chain engine, its port and the responses, nothing else (R209, R232). -/
theorem requestEnded_frame (s : State) :
    (requestEnded s).cfg = s.cfg ∧ (requestEnded s).now = s.now ∧ (requestEnded s).fr = s.fr ∧
    (requestEnded s).lineIn = s.lineIn ∧ (requestEnded s).port.inputs = s.port.inputs := by
  unfold requestEnded
  cases s.ch.op <;> simp [finishCall, pingDone, finishEnumeration]
  split <;> simp

theorem chainStep_frame (s : State) :
    (chainStep s).cfg = s.cfg ∧ (chainStep s).now = s.now ∧ (chainStep s).fr = s.fr ∧
    (chainStep s).lineIn = s.lineIn ∧ (chainStep s).port.inputs = s.port.inputs := by
  unfold chainStep
  cases s.ch.state <;> simp
  unfold deadlineStep endRequest
  have := requestEnded_frame
  (repeat' split) <;> simp [this]

theorem chainByteArrives_frame (b : Byte) (s : State) :
    (chainByteArrives b s).cfg = s.cfg ∧ (chainByteArrives b s).now = s.now ∧ (chainByteArrives b s).fr = s.fr ∧
    (chainByteArrives b s).lineIn = s.lineIn ∧ (chainByteArrives b s).port.inputs = s.port.inputs := by
  unfold chainByteArrives takeByte
  have := requestEnded_frame
  (repeat' split) <;> simp
  split <;> simp [this]

end Sys2Proof.Machine
end

