-- ==== Sys2Proof/Laws/Memory.lean ====
section
/-! SUPPORT. The slot space: a read after a write, the canonical form kept by every operation, and the receive commit
slot by slot (20_memory.md R70, R71; 41_dmx_receiver.md R172). -/

namespace Sys2Proof.Machine

theorem slotRead_above {lo a : Nat} (ha : a ≤ lo) : ∀ {m : Memory}, slotsWfAbove lo m = true → slotRead m a = slotDefault
  | [], _ => rfl
  | (k, v) :: m, h => by
    simp only [slotsWfAbove, Bool.and_eq_true, decide_eq_true_eq] at h
    have hk : k ≠ a := by omega
    simp only [slotRead, if_neg hk]
    exact slotRead_above (by omega) h.2

/-- A write leaves every other slot alone. -/
theorem slotRead_slotWrite_of_ne {a b : Nat} (v : Byte) (hab : a ≠ b) :
    ∀ m : Memory, slotRead (slotWrite m a v) b = slotRead m b
  | [] => by
    unfold slotWrite
    split
    · rfl
    · simp [slotRead, hab]
  | (k, w) :: m => by
    have ih := slotRead_slotWrite_of_ne v hab m
    unfold slotWrite
    by_cases h1 : a < k
    · rw [if_pos h1]
      split
      · rfl
      · simp [slotRead, hab]
    · rw [if_neg h1]
      by_cases h2 : a = k
      · subst h2
        rw [if_pos rfl]
        split <;> simp [slotRead, hab]
      · rw [if_neg h2]
        simp only [slotRead, ih]

theorem slotRead_slotWrite_above {a lo : Nat} (v : Byte) :
    ∀ m : Memory, slotsWfAbove lo m = true → slotRead (slotWrite m a v) a = v
  | [], _ => by
    unfold slotWrite
    split
    · rename_i h; rw [h]; rfl
    · simp [slotRead]
  | (k, w) :: m, h => by
    simp only [slotsWfAbove, Bool.and_eq_true, decide_eq_true_eq] at h
    unfold slotWrite
    by_cases h1 : a < k
    · rw [if_pos h1]
      split
      · rename_i hv
        rw [hv]
        have : k ≠ a := by omega
        simp only [slotRead, if_neg this]
        exact slotRead_above (by omega) h.2
      · simp [slotRead]
    · rw [if_neg h1]
      by_cases h2 : a = k
      · rw [if_pos h2]
        split
        · rename_i hv; rw [hv]; exact slotRead_above (by omega) h.2
        · simp [slotRead]
      · rw [if_neg h2]
        have : k ≠ a := fun e => h2 e.symm
        simp only [slotRead, if_neg this]
        exact slotRead_slotWrite_above v m h.2

/-- A read after a write to the same slot gives the value written. -/
theorem slotRead_slotWrite_self {m : Memory} (hm : m.wf = true) (a : Nat) (v : Byte) :
    slotRead (slotWrite m a v) a = v := slotRead_slotWrite_above v m hm

theorem slotsWfAbove_mono {lo lo' : Nat} (h : lo' ≤ lo) : ∀ {m : Memory}, slotsWfAbove lo m = true → slotsWfAbove lo' m = true
  | [], _ => rfl
  | (k, v) :: m, hm => by
    simp only [slotsWfAbove, Bool.and_eq_true, decide_eq_true_eq] at hm ⊢
    exact ⟨⟨⟨by omega, hm.1.1.2⟩, hm.1.2⟩, hm.2⟩

theorem slotWrite_wfAbove {a lo : Nat} (v : Byte) (hlo : lo < a) (ha : a ≤ nSlots) :
    ∀ m : Memory, slotsWfAbove lo m = true → slotsWfAbove lo (slotWrite m a v) = true
  | [], _ => by
    unfold slotWrite
    split
    · rfl
    · rename_i hv; simp [slotsWfAbove, hlo, ha, hv]
  | (k, w) :: m, h => by
    have h' := h
    simp only [slotsWfAbove, Bool.and_eq_true, decide_eq_true_eq] at h
    unfold slotWrite
    by_cases h1 : a < k
    · rw [if_pos h1]
      split
      · exact h'
      · rename_i hv
        simp only [slotsWfAbove, Bool.and_eq_true, decide_eq_true_eq]
        exact ⟨⟨⟨hlo, ha⟩, hv⟩, ⟨⟨h1, h.1.1.2⟩, h.1.2⟩, h.2⟩
    · rw [if_neg h1]
      by_cases h2 : a = k
      · subst h2
        rw [if_pos rfl]
        split
        · exact slotsWfAbove_mono (by omega) h.2
        · rename_i hv
          simp only [slotsWfAbove, Bool.and_eq_true, decide_eq_true_eq]
          exact ⟨⟨⟨hlo, ha⟩, hv⟩, h.2⟩
      · rw [if_neg h2]
        simp only [slotsWfAbove, Bool.and_eq_true, decide_eq_true_eq]
        exact ⟨⟨⟨h.1.1.1, h.1.1.2⟩, h.1.2⟩, slotWrite_wfAbove v (by omega) ha m h.2⟩

/-- A write to a legal slot keeps the canonical form. -/
theorem slotWrite_wf {m : Memory} (hm : m.wf = true) {a : Nat} (ha : slotLegal a = true) (v : Byte) :
    (slotWrite m a v).wf = true := by
  simp only [slotLegal, Bool.and_eq_true, decide_eq_true_eq] at ha
  exact slotWrite_wfAbove v (by omega) ha.2 m hm

/-- A commit of at most 512 slots keeps the canonical form. -/
theorem commitSlots_wf : ∀ (bs : List Byte) (a : Nat) (m : Memory), m.wf = true → 1 ≤ a → a + bs.length ≤ nSlots + 1 →
    (commitSlots a bs m).wf = true
  | [], _, _, hm, _, _ => hm
  | b :: bs, a, m, hm, h1, h2 => by
    unfold commitSlots
    simp only [List.length_cons] at h2
    refine commitSlots_wf bs (a + 1) _ ?_ (by omega) (by omega)
    split
    · exact slotWrite_wf hm (by simp [slotLegal]; omega) b
    · exact hm

/-- The memory after reset has the canonical form, and every slot reads 0x00 (R56). -/
theorem reset_slots_wf : State.reset.fr.slots.wf = true := rfl

theorem reset_slotRead (a : Nat) : slotRead State.reset.fr.slots a = 0x00#8 := rfl

/-- A commit leaves the slots below its first address alone. -/
theorem slotRead_commitSlots_below : ∀ (bs : List Byte) (a : Nat) (m : Memory) (c : Nat), c < a →
    slotRead (commitSlots a bs m) c = slotRead m c
  | [], _, _, _, _ => rfl
  | b :: bs, a, m, c, h => by
    unfold commitSlots
    rw [slotRead_commitSlots_below bs (a + 1) _ c (by omega)]
    split
    · exact slotRead_slotWrite_of_ne b (by omega) m
    · rfl

/-- What a slot reads after a commit: the received byte where there is one, else what it read before (R172). -/
theorem slotRead_commitSlots : ∀ (bs : List Byte) (a : Nat) (m : Memory) (c : Nat), m.wf = true → 1 ≤ a →
    a + bs.length ≤ nSlots + 1 → a ≤ c →
    slotRead (commitSlots a bs m) c = bs.getD (c - a) (slotRead m c)
  | [], _, _, _, _, _, _, _ => by simp [commitSlots]
  | b :: bs, a, m, c, hm, h1, h2, hc => by
    simp only [List.length_cons] at h2
    unfold commitSlots
    have hw : (if b ≠ slotRead m a then slotWrite m a b else m).wf = true := by
      split
      · exact slotWrite_wf hm (by simp [slotLegal]; omega) b
      · exact hm
    by_cases hca : c = a
    · subst hca
      rw [slotRead_commitSlots_below _ _ _ _ (by omega), Nat.sub_self, List.getD_cons_zero]
      split
      · exact slotRead_slotWrite_self hm c b
      · rename_i h; exact (Decidable.of_not_not h).symm
    · rw [slotRead_commitSlots bs (a + 1) _ c hw (by omega) (by omega) (by omega)]
      have hs : c - a = (c - (a + 1)) + 1 := by omega
      rw [hs, List.getD_cons_succ]
      congr 1
      split
      · exact slotRead_slotWrite_of_ne b (by omega) m
      · rfl

/-- The notifications of a commit: one per slot whose value changes, ascending, with its old and new value (R172). -/
theorem commitNotes_eq (bs : List Byte) : ∀ (a : Nat) (m : Memory),
    commitNotes a bs m = (List.range bs.length).filterMap (fun k =>
      if bs.getD k 0x00#8 ≠ slotRead m (a + k) then
        some { addr := a + k, old := slotRead m (a + k), new := bs.getD k 0x00#8 } else none) := by
  induction bs with
  | nil => intros; rfl
  | cons b bs ih =>
    intro a m
    simp only [commitNotes, List.length_cons, List.range_succ_eq_map, List.filterMap_cons, List.getD_cons_zero,
      Nat.add_zero, List.filterMap_map]
    have key : ∀ m', (∀ c, c ≠ a → slotRead m' c = slotRead m c) → commitNotes (a + 1) bs m' =
        List.filterMap ((fun k => if (b :: bs).getD k 0#8 ≠ slotRead m (a + k) then
          some { addr := a + k, old := slotRead m (a + k), new := (b :: bs).getD k 0#8 } else none) ∘ Nat.succ)
          (List.range bs.length) := by
      intro m' hm'
      rw [ih]
      congr 1; funext k
      simp only [Function.comp, List.getD_cons_succ]
      rw [hm' _ (by omega), show a + 1 + k = a + k.succ by omega]
    by_cases h : b = slotRead m a
    · simp only [ne_eq, ← h, not_true, if_false]; exact key m (fun _ _ => rfl)
    · simp only [ne_eq, h, not_false_eq_true, if_true]
      rw [key _ (fun c hc => slotRead_slotWrite_of_ne b (Ne.symm hc) m)]

end Sys2Proof.Machine
end

