-- ==== Sys2Proof/Laws/PerInstr.lean ====
section
/-! SUPPORT. Facts about every instruction, proved constructor by constructor: the encoding of a well-formed instruction
has exactly the length its own header says (30_encoding.md R91, R110). -/

namespace Sys2Proof.Laws.EncodedLength

open Sys2Proof.Machine

/-- A host command has the length R91 expects of its first bytes; a wire command is a complete frame (R206). -/
def Statement (i : Instr) : Prop :=
  ∀ ping : Byte, i.WellFormed →
    if i.onWire then frameComplete (encode ping i) = true
    else hostLength (encode ping i) = some (encode ping i).length

theorem build_complete (dest code : Byte) {p : List Byte} (h : p.length ≤ 255) :
    frameComplete (build dest code p) = true := by
  have h2 : frameLen (build dest code p) = p.length := by
    rw [build_eq]; simp [frameLen]; omega
  simp [frameComplete, h2]
  omega

theorem dmxWrite (addr : Half) (value : Byte) : Statement (.dmxWrite addr value) := fun _ _ => rfl
theorem dmxRead (addr : Half) : Statement (.dmxRead addr) := fun _ _ => rfl
theorem dmxTransmit : Statement .dmxTransmit := fun _ _ => rfl
theorem dmxSetMode (mode : Byte) : Statement (.dmxSetMode mode) := fun _ _ => rfl
theorem dmxGetMode : Statement .dmxGetMode := fun _ _ => rfl
theorem dmxReadDiag : Statement .dmxReadDiag := fun _ _ => rfl
theorem chSend (index code : Byte) (len : Half) (payload : List Byte) : Statement (.chSend index code len payload) := by
  intro ping h
  have hl : payload.length = len.toNat := by
    simp only [Instr.WellFormed, Instr.check] at h; split at h <;> simp_all
  simp [Instr.onWire, encode, hostLength, hl]; omega
theorem chReadReg (index reg : Byte) : Statement (.chReadReg index reg) := fun _ _ => rfl
theorem chWriteReg (index reg width : Byte) (v : List Byte) : Statement (.chWriteReg index reg width v) := by
  intro ping h
  have hl : v.length = width.toNat := by
    simp only [Instr.WellFormed, Instr.check] at h; split at h <;> simp_all
  simp [Instr.onWire, encode, hostLength, hl]; omega
theorem chEnumerate : Statement .chEnumerate := fun _ _ => rfl
theorem chInvalidate : Statement .chInvalidate := fun _ _ => rfl
theorem chLookup (index : Byte) : Statement (.chLookup index) := fun _ _ => rfl
theorem chGetState : Statement .chGetState := fun _ _ => rfl
theorem chainRead (dest reg : Byte) : Statement (.chainRead dest reg) := fun _ _ =>
  build_complete dest readCode (by simp [readPayload])
theorem chainWrite (dest reg : Byte) (v : List Byte) : Statement (.chainWrite dest reg v) := by
  intro ping h
  have hl : 1 ≤ v.length ∧ v.length ≤ 4 := by
    simp only [Instr.WellFormed, Instr.check] at h; split at h <;> simp_all
  exact build_complete dest writeCode (by simp [writePayload]; omega)
theorem chainPing (dest : Byte) : Statement (.chainPing dest) := fun ping _ =>
  build_complete dest ping (by simp)

end Sys2Proof.Laws.EncodedLength
end

