-- ==== Sys2Proof/Laws/Run.lean ====
section
/-! SUPPORT. Runs of the machine behind Host.Core: one step in front, and one run after another. -/

namespace Sys2Proof.Machine

theorem run_succ {s u : State} (n : Nat) (h : step s = .next u) :
    Host.Core.run Sys2Proof.core (n + 1) s = Host.Core.run Sys2Proof.core n u := by
  have : Sys2Proof.core.step s = .next u := h
  simp only [Host.Core.run, this]

/-- A run of `m + n` steps is a run of `n` steps from where `m` steps end. -/
theorem run_add {u : State} (n : Nat) : ∀ (m : Nat) (s : State), Host.Core.run Sys2Proof.core m s = .next u →
    Host.Core.run Sys2Proof.core (m + n) s = Host.Core.run Sys2Proof.core n u
  | 0, s, h => by
    have : s = u := by injection h
    rw [this, Nat.zero_add]
  | m + 1, s, h => by
    cases hs : step s with
    | next x =>
      rw [show m + 1 + n = m + n + 1 by omega, run_succ (m + n) hs]
      exact run_add n m x (by rw [← run_succ m hs]; exact h)
    | fault r =>
      have hc : Sys2Proof.core.step s = .fault r := hs
      simp [Host.Core.run, hc] at h
    | refused r =>
      have hc : Sys2Proof.core.step s = .refused r := hs
      simp [Host.Core.run, hc] at h

end Sys2Proof.Machine
end

