-- ==== Sys2Proof/Tests/Slice0.lean ====
section
/-! SUPPORT. The model's own tests: well-formedness, decoding from words written out by hand, one-step tests whose
expected results are spec/95_test_vectors.md's (named beside each), and a witness that meets the hypotheses of each
statement of Sys2Proof/Certificates/Slice0/Obligations.lean. -/

namespace Sys2Proof.Tests

open Sys2Proof Sys2Proof.Machine

/-! ## Well-formedness: an ill-formed term for each check -/

theorem test_wellFormed_sendLength :
    (Instr.chSend 3#8 1#8 2#16 [0xAA#8]).check = some .sendLength ∧ (Instr.chSend 3#8 1#8 1#16 [0xAA#8]).check = none := by
  decide

theorem test_wellFormed_writeWidth :
    (Instr.chWriteReg 3#8 5#8 2#8 [0x34#8]).check = some .writeWidth ∧
    (Instr.chWriteReg 3#8 5#8 1#8 [0x34#8]).check = none := by
  decide

theorem test_wellFormed_wireWriteWidth :
    (Instr.chainWrite 3#8 5#8 []).check = some .wireWriteWidth ∧
    (Instr.chainWrite 3#8 5#8 [1#8, 2#8, 3#8, 4#8, 5#8]).check = some .wireWriteWidth ∧
    (Instr.chainWrite 3#8 5#8 [1#8, 2#8, 3#8, 4#8]).check = none := by
  decide

/-! ## Decoding: one word written out from R92, R93 and R110 for every constructor -/

theorem test_decode_dmxWrite : decode [0x01#8, 0x00#8, 0x02#8, 0x07#8] = .ok (.dmxWrite 512#16 7#8) := by decide
theorem test_decode_dmxRead : decode [0x02#8, 0xFF#8, 0x01#8] = .ok (.dmxRead 511#16) := by decide
theorem test_decode_dmxTransmit : decode [0x03#8] = .ok .dmxTransmit := by decide
theorem test_decode_dmxSetMode : decode [0x04#8, 0x01#8] = .ok (.dmxSetMode 1#8) := by decide
theorem test_decode_dmxGetMode : decode [0x05#8] = .ok .dmxGetMode := by decide
theorem test_decode_dmxReadDiag : decode [0x06#8] = .ok .dmxReadDiag := by decide
theorem test_decode_chSend :
    decode [0x10#8, 0x03#8, 0x01#8, 0x02#8, 0x00#8, 0xAA#8, 0xBB#8] = .ok (.chSend 3#8 1#8 2#16 [0xAA#8, 0xBB#8]) := by
  decide
theorem test_decode_chReadReg : decode [0x11#8, 0x03#8, 0x09#8] = .ok (.chReadReg 3#8 9#8) := by decide
theorem test_decode_chWriteReg :
    decode [0x12#8, 0x03#8, 0x05#8, 0x02#8, 0x34#8, 0x12#8] = .ok (.chWriteReg 3#8 5#8 2#8 [0x34#8, 0x12#8]) := by
  decide
theorem test_decode_chEnumerate : decode [0x13#8] = .ok .chEnumerate := by decide
theorem test_decode_chInvalidate : decode [0x14#8] = .ok .chInvalidate := by decide
theorem test_decode_chLookup : decode [0x15#8, 0x03#8] = .ok (.chLookup 3#8) := by decide
theorem test_decode_chGetState : decode [0x16#8] = .ok .chGetState := by decide

/-- CK1: the READ frame of `ch.read 3, 0x00`. -/
theorem test_decode_chainRead :
    decodeFrame 0#8 [0x03#8, 0x01#8, 0x01#8, 0x00#8, 0x03#8] = .ok (.chainRead 3#8 0#8) := by decide

/-- CK6: the WRITE frame of `ch.write 3, 0x05, 0x1234, 2`. -/
theorem test_decode_chainWrite :
    decodeFrame 0#8 [0x03#8, 0x02#8, 0x03#8, 0x05#8, 0x34#8, 0x12#8, 0x21#8] = .ok (.chainWrite 3#8 5#8 [0x34#8, 0x12#8]) := by
  decide

/-- CK2: ping 1. -/
theorem test_decode_chainPing : decodeFrame 0#8 [0x01#8, 0x00#8, 0x00#8, 0x01#8] = .ok (.chainPing 1#8) := by decide

/-- E1 to E9: no command, each by name. -/
theorem test_decode_refuses :
    decode [] = .error .empty ∧ decode [0x00#8] = .error (.unassigned 0#8) ∧
    decode [0x07#8] = .error (.unassigned 7#8) ∧ decode [0x17#8] = .error (.unassigned 0x17#8) ∧
    decode [0xFF#8, 1#8, 2#8] = .error (.unassigned 0xFF#8) ∧
    decode [0x01#8, 0x01#8, 0x00#8] = .error (.wrongLength 1#8) ∧ decode [0x03#8, 0#8] = .error (.wrongLength 3#8) ∧
    decode [0x10#8, 3#8, 1#8, 2#8, 0#8, 0xAA#8] = .error (.wrongLength 0x10#8) ∧
    decode [0x12#8, 3#8, 5#8, 2#8, 0x34#8] = .error (.wrongLength 0x12#8) := by
  decide

/-- A frame whose checksum does not recompute, and one that is cut short. -/
theorem test_decodeFrame_refuses :
    decodeFrame 0#8 [0x03#8, 0x01#8, 0x01#8, 0x00#8, 0x02#8] = .error .frameChecksum ∧
    decodeFrame 0#8 [0x03#8, 0x01#8, 0x01#8, 0x00#8] = .error .frameLength := by
  decide

/-- The table's one-byte words, operand bytes zero. -/
theorem test_decodeTableWord :
    decodeTableWord 8 0x01 = some (.dmxWrite 0#16 0#8) ∧ decodeTableWord 8 0x10 = some (.chSend 0#8 0#8 0#16 []) ∧
    decodeTableWord 8 0x16 = some .chGetState ∧ decodeTableWord 8 0x00 = some (.chainPing 0#8) ∧
    decodeTableWord 8 0x17 = none := by
  decide

/-! ## One step on a small state -/

/-- The response bytes a step or a meaning leaves. -/
def answers : Out → List (List Byte)
  | .next s => s.port.responses.map Response.bytes
  | .fault _ => []
  | .refused _ => []

/-- A field of the state a step or a meaning leaves. -/
def after {α : Type} (f : State → α) (d : α) : Out → α
  | .next s => f s
  | .fault _ => d
  | .refused _ => d

/-- The state after reset, in receiver mode with the parser in `rx`, `buf` received and the line at `level`. -/
def receiving (rx : RxState) (buf : List Byte) (level : Level) : State :=
  { State.reset with fr := { State.reset.fr with
      mode := .receiver, dmxTxEn := false, rx := rx, rxBuf := buf, front := frontRest level } }

theorem receiving_rxBuf (rx : RxState) (buf : List Byte) (level : Level) : (receiving rx buf level).fr.rxBuf = buf := rfl

/-- The state after reset, sending segment `tx` of a frame of agent 7, at the segment's end. -/
def sending (tx : TxState) : State :=
  { State.reset with fr := { State.reset.fr with tx := tx, txIssuer := some 7 } }

/-- The state after reset with a request of agent 7 in state `st`, `rx` received, its deadline at 50 000 = `now`. -/
def requesting (op : ChainOp) (st : ReqState) (rx : List Byte) : State :=
  { State.reset with
    now := 50000
    ch := { State.reset.ch with
      op := op, issuer := some 7, state := st, txEn := decide (st = .sent), req := build 3#8 1#8 [0#8], index := 3#8
      retries := 1, deadline := 50000, rx := rx } }

/-- `s` with one line event due now. -/
def withLine (e : LineEvent) (s : State) : State := { s with lineIn := [{ time := s.now, event := e }] }

/-- E1, E2: the port answers `0A`. -/
theorem test_step_illegal : answers (step (deliverCommand [] State.reset)) = [[0x0A#8]] ∧
    answers (step (deliverCommand [0#8] State.reset)) = [[0x0A#8]] := by decide

/-- F1, F4. -/
theorem test_dmxWrite :
    after (fun s => s.fr.slots) [] (step (deliverCommand [1#8, 1#8, 0#8, 0xFF#8] State.reset)) = [(1, 0xFF#8)] ∧
    answers (exec (.dmxWrite 513#16 1#8) State.reset) = [[1#8]] := by decide

/-- F2: the value an unlisted slot reads as leaves no entry. -/
theorem test_dmxWrite_zero :
    after (fun s => s.fr.slots) [] (exec (.dmxWrite 512#16 0#8)
      { State.reset with fr := { State.reset.fr with slots := [(512, 5#8)] } }) = [] := by decide

/-- F6, F7. -/
theorem test_dmxRead : answers (step (deliverCommand [2#8, 1#8, 0#8] State.reset)) = [[0#8, 0#8]] ∧
    answers (exec (.dmxRead 0#16) State.reset) = [[1#8]] := by decide

/-- T1: the break begins at acceptance and lasts 92 µs. -/
theorem test_dmxTransmit :
    after (fun s => (s.fr.tx, s.fr.txSegEnd, s.fr.dmxTx, s.fr.txIssuer)) (.idle, 0, .mark, none)
      (step (deliverCommand [3#8] State.reset)) = (.brk, 92, .space, some 0) := by decide

/-- T8. -/
theorem test_dmxTransmit_receiver : answers (exec .dmxTransmit (receiving .waitBreak [] .mark)) = [[9#8]] := by decide

/-- F10. -/
theorem test_dmxSetMode :
    after (fun s => (s.fr.mode, s.fr.rx, s.fr.dmxTxEn)) (.controller, .off, true)
      (exec (.dmxSetMode 1#8) State.reset) = (.receiver, .waitBreak, false) := by decide

/-- F12. -/
theorem test_dmxSetMode_back :
    after (fun s => (s.fr.mode, s.fr.rx, s.fr.rxBuf, s.fr.dmxTxEn, s.fr.dmxTx)) (.receiver, .slots, [], false, .space)
      (exec (.dmxSetMode 0#8) (receiving .slots [1#8, 2#8, 3#8] .mark)) = (.controller, .off, [], true, .mark) := by decide

/-- F9. -/
theorem test_dmxGetMode : answers (exec .dmxGetMode State.reset) = [[0#8, 0#8]] := by decide

/-- F14. -/
theorem test_dmxReadDiag :
    answers (exec .dmxReadDiag { State.reset with fr := { State.reset.fr with diagCount := 0x01020304#32 } }) =
      [[0#8, 4#8, 3#8, 2#8, 1#8]] := by decide

/-- F15: the counter wraps. -/
theorem test_diag_wraps :
    (onSymbol .brk { receiving .startCode [] .space with fr :=
      { (receiving .startCode [] .space).fr with diagCount := 0xFFFFFFFF#32 } }).fr.diagCount = 0#32 := by decide

/-- S3: the bytes `ch.send 3, 0x01, [0x00]` puts on the wire. -/
theorem test_chSend :
    after (fun s => s.chp.written) [] (step (deliverCommand [0x10#8, 3#8, 1#8, 1#8, 0#8, 0#8] State.reset)) =
      [{ time := 0, frame := [3#8, 1#8, 1#8, 0#8, 3#8] }] := by decide

/-- The frame of `ch.read 3, 0x00` (R235's example). -/
theorem test_chReadReg :
    after (fun s => (s.ch.req, s.ch.op)) ([], .none) (exec (.chReadReg 3#8 0#8) State.reset) =
      ([3#8, 1#8, 1#8, 0#8, 3#8], .readReg) := by decide

/-- The frame of `ch.write 3, 0x05, 0x1234, 2` (RG12), and E10. -/
theorem test_chWriteReg :
    after (fun s => (s.ch.req, s.ch.op)) ([], .none) (exec (.chWriteReg 3#8 5#8 2#8 [0x34#8, 0x12#8]) State.reset) =
      ([3#8, 2#8, 3#8, 5#8, 0x34#8, 0x12#8, 0x21#8], .writeReg) ∧
    answers (exec (.chWriteReg 3#8 5#8 0#8 []) State.reset) = [[1#8]] := by decide

/-- CK2: the first ping. -/
theorem test_chEnumerate :
    after (fun s => (s.ch.req, s.ch.enumCursor, s.ch.retries)) ([], 0#8, 9) (exec .chEnumerate State.reset) =
      ([1#8, 0#8, 0#8, 1#8], 1#8, 0) := by decide

/-- RG21. -/
theorem test_chInvalidate :
    after (fun s => s.ch.registry) [{ index := 9#8, capability := none, version := none }]
      (exec .chInvalidate { State.reset with ch := { State.reset.ch with
        registry := [{ index := 2#8, capability := some 0x20#8, version := none }] } }) = [] := by decide

/-- RG3, RG4. -/
theorem test_chLookup :
    let s := { State.reset with ch := { State.reset.ch with
      registry := [{ index := 2#8, capability := some 0x20#8, version := none }] } }
    answers (exec (.chLookup 2#8) s) = [[0#8, 1#8, 0#8, 1#8, 0x20#8]] ∧
    answers (exec (.chLookup 3#8) s) = [[0#8, 0#8, 0#8, 0#8, 0#8]] := by decide

/-- CE16. -/
theorem test_chGetState : answers (exec .chGetState State.reset) = [[0#8, 0#8, 0#8, 0xFF#8]] := by decide

/-- CK1, CK6, CK2: each wire command puts its frame on the wire. -/
theorem test_wire :
    after (fun s => s.ch.req) [] (exec (.chainRead 3#8 0#8) State.reset) = [3#8, 1#8, 1#8, 0#8, 3#8] ∧
    after (fun s => s.ch.req) [] (exec (.chainWrite 3#8 5#8 [0x34#8, 0x12#8]) State.reset) =
      [3#8, 2#8, 3#8, 5#8, 0x34#8, 0x12#8, 0x21#8] ∧
    after (fun s => s.ch.req) [] (exec (.chainPing 1#8) State.reset) = [1#8, 0#8, 0#8, 1#8] := by decide

/-- The table's word 0x00 is fetched from the engine's own retry (log 6). -/
theorem test_fetch_wire :
    after (fun s => s.chp.written) [] (step (State.reset.withFetchWord 8 0x00)) =
      [{ time := 0, frame := [0#8, 0#8, 0#8, 0#8] }] := by decide

/-- CE1, CE9, CE10: the byte that completes the frame. -/
theorem test_response :
    answers (step (withLine (.chainByte 0x28#8) (requesting .send .awaitingResponse [3#8, 0#8, 1#8, 0x2A#8]))) =
      [[0#8, 3#8, 0#8, 1#8, 0x2A#8, 0x28#8]] ∧
    answers (step (withLine (.chainByte 0x28#8) (requesting .send .awaitingResponse [3#8, 0#8, 1#8, 0x2B#8]))) = [[3#8]] ∧
    answers (step (withLine (.chainByte 0x2F#8) (requesting .send .awaitingResponse [4#8, 0#8, 1#8, 0x2A#8]))) = [[4#8]] := by
  decide

/-- RG7, RG9, RG11: what a register read makes of the response. -/
theorem test_readReg_response :
    answers (step (withLine (.chainByte 0x27#8)
      (requesting .readReg .awaitingResponse [3#8, 0#8, 2#8, 0x34#8, 0x12#8]))) = [[0#8, 2#8, 0x34#8, 0x12#8, 0#8, 0#8]] ∧
    answers (step (withLine (.chainByte 3#8) (requesting .readReg .awaitingResponse [3#8, 0#8, 0#8]))) = [[7#8]] ∧
    answers (step (withLine (.chainByte 2#8) (requesting .readReg .awaitingResponse [3#8, 1#8, 0#8]))) = [[6#8, 1#8]] := by
  decide

/-- X5, X14: a mark-after-break of 11 µs drops the frame, one of 12 µs does not. -/
theorem test_mab :
    ((onSymbol (.mabEnd 11) (receiving .mab [] .mark)).fr.rx, (onSymbol (.mabEnd 12) (receiving .mab [] .mark)).fr.rx) =
      (RxState.discard, RxState.startCode) := by decide

/-- X1: the commit and its two notifications. -/
theorem test_commit :
    (onSymbol .brk (receiving .slots [0x0A#8, 0x14#8] .space)).fr.slots = [(1, 0x0A#8), (2, 0x14#8)] ∧
    (onSymbol .brk (receiving .slots [0x0A#8, 0x14#8] .space)).fr.notify =
      [{ addr := 1, old := 0#8, new := 0x0A#8 }, { addr := 2, old := 0#8, new := 0x14#8 }] := by decide

/-! ## Witnesses: concrete terms that meet the hypotheses of each statement, clause by clause at its boundaries -/

/-- A command due now, to be accepted after `n` of the other steps. -/
def presenting (n : Nat) (bytes : List Byte) : State :=
  { State.reset with port := { State.reset.port with inputs := [{ time := 0, after := n, agent := 1, bytes := bytes }] } }

theorem witness_HostCommandDecodesBack :
    (Instr.chSend 0#8 0#8 0#16 []).WellFormed ∧ (Instr.chSend 0#8 0#8 0#16 []).onWire = false ∧
    (Instr.chWriteReg 3#8 5#8 2#8 [0x34#8, 0x12#8]).WellFormed ∧
    (Instr.chWriteReg 3#8 5#8 2#8 [0x34#8, 0x12#8]).onWire = false ∧ Instr.dmxTransmit.WellFormed := by decide

theorem witness_WireFrameDecodesBack :
    (0#8 : Byte) ≠ readCode ∧ (0#8 : Byte) ≠ writeCode ∧ (Instr.chainWrite 3#8 5#8 [1#8]).WellFormed ∧
    (Instr.chainWrite 3#8 5#8 [1#8, 2#8, 3#8, 4#8]).WellFormed ∧ (Instr.chainPing 255#8).WellFormed ∧
    (Instr.chainPing 255#8).onWire = true ∧ (Instr.chainWrite 3#8 5#8 [1#8]).onWire = true := by decide

theorem witness_DecodedCommandHasItsBytes : decode [0x15#8, 3#8] = .ok (.chLookup 3#8) := by decide

theorem witness_DecodedFrameHasItsBytes :
    decodeFrame 0#8 [3#8, 1#8, 1#8, 0#8, 3#8] = .ok (.chainRead 3#8 0#8) := by decide

theorem witness_StepRunsDecodedCommand :
    (∀ n ∈ [0, 4], (presenting n [5#8]).port.inputs = [{ time := 0, after := n, agent := 1, bytes := [5#8] }] ∧
      0 ≤ (presenting n [5#8]).now ∧ (n = 0 ∨ otherDue (presenting n [5#8]) = false)) ∧
    decode [5#8] = .ok .dmxGetMode := by decide

theorem witness_IllegalCommandIsRefused :
    (presenting 1 [3#8, 0#8]).port.inputs = [{ time := 0, after := 1, agent := 1, bytes := [3#8, 0#8] }] ∧
    0 ≤ (presenting 1 [3#8, 0#8]).now ∧ otherDue (presenting 1 [3#8, 0#8]) = false ∧ hostLength [3#8, 0#8] ≠ some [3#8, 0#8].length ∧
    hostLength [] ≠ some ([] : List Byte).length := by decide

theorem witness_StepResendsWireCommand :
    let s := requesting .send .awaitingResponse []
    noInputDue s = true ∧ s.ch.state = .awaitingResponse ∧ frameComplete s.ch.rx = false ∧ s.ch.deadline ≤ s.now ∧
    s.ch.rx = [] ∧ s.ch.attempt < s.ch.retries ∧ decodeFrame s.cfg.pingCode s.ch.req = .ok (.chainRead 3#8 0#8) := by decide

theorem witness_ParametersNeverChange : step State.reset = .next (advanceTime State.reset) := rfl

/-- A step that moves `now` to a pending instant, in no reset. -/
theorem witness_TimeNeverPassesAPendingInstant :
    let s := { State.reset with lineIn := [{ time := 9, event := .pass }] }
    resetNow s = false ∧ after (fun t => t.now) 0 (step s) = 9 ∧ 9 ∈ pending s := by decide

/-- Both ends of the legal addresses, and the two illegal ones beside them. -/
theorem witness_DmxWriteStoresTheSlot :
    (1 ≤ (1#16 : Half).toNat ∧ (1#16 : Half).toNat ≤ 512) ∧ (1 ≤ (512#16 : Half).toNat ∧ (512#16 : Half).toNat ≤ 512) ∧
    State.reset.fr.slots.wf = true ∧ (0#16 : Half).toNat = 0 ∧ 512 < (513#16 : Half).toNat := by decide

theorem witness_DmxReadReturnsTheSlot :
    (1 ≤ (1#16 : Half).toNat ∧ (1#16 : Half).toNat ≤ 512) ∧ (1 ≤ (512#16 : Half).toNat ∧ (512#16 : Half).toNat ≤ 512) ∧
    (0#16 : Half).toNat = 0 ∧ 512 < (513#16 : Half).toNat := by decide

theorem witness_DmxTransmitBeginsTheBreak : State.reset.fr.mode = .controller ∧ State.reset.fr.tx = .idle := by decide

theorem witness_DmxTransmitIsRefused :
    (receiving .waitBreak [] .mark).fr.mode = .receiver ∧ (sending .brk).fr.mode = .controller ∧
    (sending .brk).fr.tx ≠ .idle := by decide

theorem witness_DmxSetModeSwitches :
    State.reset.fr.tx = .idle ∧ State.reset.fr.mode = .controller ∧ (receiving .waitBreak [] .mark).fr.tx = .idle ∧
    (receiving .waitBreak [] .mark).fr.mode = .receiver := by decide

theorem witness_DmxSetModeIsRefused :
    1 < (2#8 : Byte).toNat ∧ (1#8 : Byte).toNat ≤ 1 ∧ (sending .mab).fr.tx ≠ .idle := by decide

theorem witness_SequencerFollowsTheFrame :
    (∀ tx ∈ [TxState.brk, .mab, .byte 0, .byte 511, .gap 511, .byte 512],
      noInputDue (sending tx) = true ∧ due (sending tx) (chainDueAt (sending tx)) = false ∧
      (sending tx).fr.txSegEnd = (sending tx).now ∧ (sending tx).fr.tx = tx) ∧
    (sending (.byte 512)).fr.txIssuer = some 7 ∧ (sending (.byte 0)).cfg.txInterslotUs = 0 ∧
    ({ sending (.byte 0) with cfg := { txInterslotUs := 2 } } : State).cfg.txInterslotUs ≠ 0 := by decide

theorem witness_TransmitLastsFrameTime :
    noInputs State.reset = true ∧ outstanding State.reset.ch.state = false ∧ State.reset.fr.mode = .controller ∧
    State.reset.fr.tx = .idle ∧ exec .dmxTransmit State.reset = .next (beginTransmit State.reset) :=
  ⟨by decide, by decide, rfl, rfl, rfl⟩

theorem witness_ReceiveCommitStoresTheFrame :
    (let s := receiving .slots [0x0A#8, 0x14#8] .space
     s.fr.rx = .slots ∧ s.fr.rxBuf ≠ [] ∧ s.fr.rxBuf.length ≤ 512 ∧ s.fr.slots.wf = true) ∧
    (receiving .slots (List.replicate 512 1#8) .space).fr.rxBuf.length = 512 := ⟨by decide, by rw [receiving_rxBuf, List.length_replicate]⟩

theorem witness_MalformedFrameIsDroppedAndCounted :
    ((receiving .startCode [] .mark).fr.rx = .startCode ∧ (1#8 : Byte) ≠ 0#8) ∧
    ((receiving .mab [] .mark).fr.rx = .mab ∧
      11 - (receiving .mab [] .mark).fr.rxMarkStart < (receiving .mab [] .mark).cfg.rxMabMinUs) ∧
    ((receiving .slots (List.replicate 512 1#8) .mark).fr.rx = .slots ∧
      (receiving .slots (List.replicate 512 1#8) .mark).fr.rxBuf.length = 512) ∧
    ((receiving .slots [] .space).fr.rx = .slots ∧ (receiving .slots [] .space).fr.rxBuf = [] ∧
      (receiving .slots [] .space).cfg.acceptZeroSlotFrame = false) :=
  ⟨by decide, by decide, ⟨rfl, by rw [receiving_rxBuf, List.length_replicate]⟩, by decide⟩

theorem witness_ParserFollowsTheTable :
    (∀ rx ∈ [RxState.off, .waitBreak, .inBreak, .mab, .startCode, .slots, .discard], (receiving rx [] .mark).fr.rx = rx) ∧
    (receiving .mab [] .mark).cfg.rxMabMinUs ≤ 12 - (receiving .mab [] .mark).fr.rxMarkStart ∧
    (receiving .slots (List.replicate 511 1#8) .mark).fr.rxBuf.length < 512 ∧
    (let s : State := { receiving .slots [] .space with cfg := { acceptZeroSlotFrame := true } }
     s.fr.rx = .slots ∧ s.fr.rxBuf = [] ∧ s.cfg.acceptZeroSlotFrame = true) :=
  ⟨by decide, by decide, by rw [receiving_rxBuf, List.length_replicate]; decide, by decide⟩

/-- A receiver at `now` with front end `f`. -/
def fronted (now : Nat) (f : FrontEnd) : State := { setFront f (receiving .waitBreak [] f.level) with now := now }

/-- A run at its threshold; then, for an edge each: no edge, controller mode, a fall that starts a byte and one that does
not, and a rise after no run, a break, a short run (deferred and not) and a run of just the threshold. -/
theorem witness_LowRunsAreClassified :
    (let s := fronted 92 { level := .space, run := .low 0 false, sampler := none, guard := 0 }
     noInputDue s = true ∧ due s (chainDueAt s) = false ∧ due s (txDueAt s) = false ∧ due s (sampleDueAt s) = false ∧
     s.fr.mode = .receiver ∧ s.fr.front.run = .low 0 false ∧ s.now = 0 + s.cfg.rxBreakMinUs) ∧
    (let edge (now : Nat) (level : Level) (f : FrontEnd) : Bool :=
       lineEventNext (withLine (.dmxEdge level) (fronted now f)) (.dmxEdge level) []
     lineEventNext (withLine (.dmxEdge .mark) State.reset) (.dmxEdge .mark) [] = true ∧
     lineEventNext (withLine (.dmxEdge .space) State.reset) (.dmxEdge .space) [] = true ∧
     edge 40 .space { level := .mark, run := .none, sampler := none, guard := 40 } = true ∧
     edge 39 .space { level := .mark, run := .none, sampler := none, guard := 40 } = true ∧
     edge 8 .space { level := .mark, run := .none, sampler := some { start := 0, bits := [false] }, guard := 40 } = true ∧
     edge 5 .mark { level := .space, run := .none, sampler := none, guard := 0 } = true ∧
     edge 99 .mark { level := .space, run := .brk 0, sampler := none, guard := 40 } = true ∧
     edge 91 .mark { level := .space, run := .low 0 true, sampler := none, guard := 40 } = true ∧
     edge 91 .mark { level := .space, run := .low 0 false, sampler := none, guard := 40 } = true ∧
     edge 92 .mark { level := .space, run := .low 0 false, sampler := none, guard := 40 } = true ∧
     (fronted 92 { level := .space, run := .low 0 false, sampler := none, guard := 40 }).cfg.rxBreakMinUs ≤ 92 - 0) := by
  decide

/-- The first sample of a byte (glitch and start bit), its ninth, and its tenth at `t_f + 38`: Mark, low since the start
edge, low since a later edge. -/
theorem witness_BytesAreSampledAndReported :
    let s (level : Level) (run : LowRun) (bits : List Bool) :=
      fronted (4 * bits.length + 2) { level := level, run := run, sampler := some { start := 0, bits := bits }, guard := 40 }
    let meets (t : State) : Prop := noInputDue t = true ∧ due t (chainDueAt t) = false ∧ due t (txDueAt t) = false ∧
      t.fr.mode = .receiver ∧ sampleDueAt t = some t.now
    let nine := [false, true, false, true, false, true, false, true, false]
    meets (s .mark .none []) ∧ meets (s .space (.low 0 false) []) ∧ meets (s .space (.low 0 false) (nine.take 8)) ∧
    meets (s .mark .none nine) ∧ (s .mark .none nine).now = 38 ∧ meets (s .space (.low 0 false) nine) ∧
    meets (s .space (.low 30 false) nine) ∧ LowRun.low 30 false ≠ .low 0 false ∧ nine.length = 9 := by decide

theorem witness_ChSendStartsTheRequest : (255#16 : Half).toNat ≤ 255 ∧ State.reset.ch.op = .none := by decide

theorem witness_ChReadRegSendsARead : State.reset.ch.op = .none ∧ isStale State.reset 255#8 = false := by decide

theorem witness_ChEnumerateStartsTheWalk : State.reset.ch.op = .none := by decide

theorem witness_ChWriteRegSendsAWrite :
    (1 ≤ (1#8 : Byte).toNat ∧ (1#8 : Byte).toNat ≤ 4) ∧ (1 ≤ (4#8 : Byte).toNat ∧ (4#8 : Byte).toNat ≤ 4) ∧ State.reset.ch.op = .none ∧ isStale State.reset 3#8 = false := by
  decide

/-- The state after reset, index 4 stale. -/
def stale4 : State := { State.reset with ch := { State.reset.ch with stale := State.reset.ch.stale.set 4 true } }

theorem witness_ChainChecksComeInOrder :
    255 < (256#16 : Half).toNat ∧ (0#8 : Byte).toNat = 0 ∧ 4 < (5#8 : Byte).toNat ∧
    (requesting .send .sent []).ch.op ≠ .none ∧ stale4.ch.op = .none ∧ isStale stale4 4#8 = true := by decide

theorem witness_StaleIndexIsExcluded :
    stale4.ch.op = .none ∧ isStale stale4 4#8 = true ∧ (1 ≤ (4#8 : Byte).toNat ∧ (4#8 : Byte).toNat ≤ 4) ∧
    (255#16 : Half).toNat ≤ 255 := by decide

theorem witness_StaleIndexIsExcluded_cleared :
    let s := { stale4 with lineIn := [{ time := 0, event := .reset }] }
    resetNow s = true ∧ isStale s 4#8 = true ∧ after (fun t => isStale t 4#8) true (step s) = false := by decide

theorem witness_BuiltFrameIsValid : ([] : List Byte).length ≤ 255 ∧ (List.replicate 255 0#8).length ≤ 255 :=
  ⟨by decide, Nat.le_of_eq List.length_replicate⟩

theorem witness_WriteCompletionOpensTheWindow :
    let s := { requesting .send .sent [] with chp := { State.reset.chp with draws := [200], writeStart := 49800 } }
    noInputDue s = true ∧ s.ch.state = .sent ∧ s.now = writeEnd s := by decide

/-- A byte at the deadline, one while the request is written, one outside a window. -/
theorem witness_ChainByteGoesWhereTheWindowSays :
    let s (rx : List Byte) := withLine (.chainByte 3#8) (requesting .send .awaitingResponse rx)
    lineEventNext (s []) (.chainByte 3#8) [] = true ∧ (s []).ch.state = .awaitingResponse ∧ (s []).now ≤ (s []).ch.deadline ∧
    frameComplete (s []).ch.rx = false ∧ frameComplete ((s []).ch.rx ++ [3#8]) = false ∧
    lineEventNext (withLine (.chainByte 3#8) (requesting .send .sent [])) (.chainByte 3#8) [] = true ∧
    (requesting .send .sent []).ch.state = .sent ∧
    lineEventNext (withLine (.chainByte 3#8) State.reset) (.chainByte 3#8) [] = true ∧
    State.reset.ch.state ≠ .sent ∧ State.reset.ch.state ≠ .awaitingResponse := by decide

/-- One byte that completes the frame for each of its ends: checksum wrong; checksum right, echo wrong; valid. -/
theorem witness_CompleteFrameIsValidatedAtOnce :
    let s (b : Byte) (rx : List Byte) := withLine (.chainByte b) (requesting .send .awaitingResponse rx)
    let meets (b : Byte) (rx : List Byte) := lineEventNext (s b rx) (.chainByte b) [] = true ∧
      (s b rx).ch.state = .awaitingResponse ∧ (s b rx).now ≤ (s b rx).ch.deadline ∧
      frameComplete (s b rx).ch.rx = false ∧ frameComplete ((s b rx).ch.rx ++ [b]) = true
    meets 3#8 [3#8, 1#8, 0#8] ∧ (3#8 : Byte) ≠ xorFold [3#8, 1#8, 0#8] ∧
    meets 4#8 [4#8, 0#8, 0#8] ∧ (4#8 : Byte) = xorFold [4#8, 0#8, 0#8] ∧ (4#8 : Byte) ≠ (s 4#8 []).ch.index ∧
    meets 3#8 [3#8, 0#8, 0#8] ∧ (3#8 : Byte) = xorFold [3#8, 0#8, 0#8] ∧ (3#8 : Byte) = (s 3#8 []).ch.index := by decide

/-- Each end of a request; a run at which the threshold 3 is reached, and one below it. -/
theorem witness_CallCompletionAnswersTheIssuer :
    let s (st : ReqState) (n : Nat) : State := { requesting .send st [] with ch :=
      { (requesting .send st []).ch with toRun := State.reset.ch.toRun.set 3 n } }
    (∀ st ∈ [ReqState.timedOut, .checksumError, .addressMismatch, .completed],
      (s st 0).ch.op = .send ∧ (s st 0).ch.issuer = some 7 ∧ (s st 0).ch.state = st) ∧
    (requesting .readReg .completed []).ch.issuer = some 7 ∧ (4#8 : Byte) ≠ (s .timedOut 0).ch.index ∧
    (s .timedOut 2).cfg.staleThreshold ≤ timeoutRun (s .timedOut 2) 3#8 + 1 ∧
    timeoutRun (s .timedOut 1) 3#8 + 1 < (s .timedOut 1).cfg.staleThreshold := by decide

/-- Payloads of 0, 1, 4 and 5 bytes, and a status that is not `ST_SUCCESS`. -/
theorem witness_CallResultsFollowTheResponse :
    let s (p : List Byte) := { requesting .readReg .completed [] with ch :=
      { (requesting .readReg .completed []).ch with resp := some { dest := 3#8, status := 0#8, payload := p } } }
    (s [1#8]).ch.op = .readReg ∧ (s [1#8]).ch.resp = some { dest := 3#8, status := 0#8, payload := [1#8] } ∧
    (0#8 : Byte) = (s [1#8]).cfg.stSuccess ∧ OutcomeCode.timeout ≠ .ok ∧ (1#8 : Byte) ≠ (s []).cfg.stSuccess ∧
    ([1#8] : List Byte) ≠ [] ∧ [1#8, 2#8, 3#8, 4#8].length ≤ 4 ∧ 4 < [1#8, 2#8, 3#8, 4#8, 5#8].length := by decide

theorem witness_DeadlineRetriesThenTimesOut :
    let s (rx : List Byte) (n : Nat) (o : PartialFrameOutcome) : State :=
      { requesting .send .awaitingResponse rx with
        cfg := { partialFrameOutcome := o }
        ch := { (requesting .send .awaitingResponse rx).ch with attempt := n } }
    noInputDue (s [3#8] 0 .timeout) = true ∧ (s [3#8] 0 .timeout).ch.state = .awaitingResponse ∧ frameComplete (s [3#8] 0 .timeout).ch.rx = false ∧
    (s [3#8] 0 .timeout).now = (s [3#8] 0 .timeout).ch.deadline ∧
    ((s [3#8] 0 .checksumMismatch).ch.rx ≠ [] ∧ (s [3#8] 0 .checksumMismatch).cfg.partialFrameOutcome = .checksumMismatch) ∧
    (s [3#8] 0 .timeout).ch.attempt < (s [3#8] 0 .timeout).ch.retries ∧
    (s [] 1 .timeout).ch.retries ≤ (s [] 1 .timeout).ch.attempt := by decide

theorem witness_SilentUnitTimesOutAtTheBound :
    isUnitCall (.chReadReg 3#8 0#8) = true ∧ State.reset.ch.op = .none ∧ noInputs State.reset = true ∧
    State.reset.fr.tx = .idle ∧ State.reset.fr.mode = .controller ∧ State.reset.cfg.retryCount ≤ 1 ∧
    after (fun t => t.ch.op) .none (exec (.chReadReg 3#8 0#8) State.reset) = .readReg := by decide

/-- The state an enumeration is in while it awaits the answer to its first ping. -/
def pinging : State := writeDone (beginEnumeration (claimEngine .enumerate State.reset))

theorem pinging_chainInv : ChainInv pinging where
  driver := by decide
  busy := by decide
  issuer := by decide
  frame := fun _ => ⟨0#8, [], by decide, by decide⟩
  attempts := by decide
  writing := fun h => absurd h (by decide)
  window := fun _ => by decide
  incomplete := fun _ => .inl (by decide)
  rx_empty := fun h => absurd h (by decide)
  rx_length := by decide
  cursor := fun _ => by decide
  found := fun _ => rfl
  registry := rfl
  run_bound := by intro i; simp [pinging, timeoutRun, beginEnumeration, State.reset, Chain.reset]
  not_stale := by intro i; simp [pinging, timeoutRun, beginEnumeration, State.reset, Chain.reset]
  last_outcome := .inl rfl

theorem witness_ChLookupReadsTheRegistry :
    let u : ChainUnit := { index := 2#8, capability := some 0x20#8, version := none }
    let w : ChainUnit := { index := 1#8, capability := none, version := none }
    [w, u] = [w] ++ u :: [] ∧ (∀ x ∈ [w], x.index ≠ 2#8) ∧ [w, u] = [] ++ w :: [u] ∧ (∀ x ∈ [w, u], x.index ≠ 3#8) ∧
    ChainInv pinging := ⟨rfl, by decide, rfl, by decide, pinging_chainInv⟩

theorem witness_PingIsSentOnce :
    ChainInv pinging ∧ pinging.ch.op = .enumerate ∧ pinging.ch.state = .awaitingResponse ∧ pinging.ch.rx = [] :=
  ⟨pinging_chainInv, by decide, by decide, by decide⟩

/-- A ping acknowledged, one refused by the unit, one timed out; the cursor before and at `ENUM_N`. -/
theorem witness_PingCompletionWalksOn :
    let s (st : ReqState) (status : Byte) (i : Byte) : State := { State.reset with ch := { State.reset.ch with
      op := .enumerate, state := st, enumCursor := i, resp := some { dest := i, status := status, payload := [] } } }
    (s .completed 0#8 7#8).ch.op = .enumerate ∧ (0#8 : Byte) = (s .completed 0#8 7#8).cfg.stSuccess ∧
    (1#8 : Byte) ≠ (s .completed 1#8 7#8).cfg.stSuccess ∧ (s .timedOut 0#8 7#8).ch.state ≠ .completed ∧
    (s .completed 0#8 7#8).ch.enumCursor.toNat < (s .completed 0#8 7#8).cfg.enumN ∧
    (s .timedOut 0#8 8#8).cfg.enumN ≤ (s .timedOut 0#8 8#8).ch.enumCursor.toNat := by decide

theorem witness_EnumerationEndReplacesTheRegistry :
    pinging.ch.issuer = some 0 ∧ ([{ index := 1#8, capability := none, version := none }] : List ChainUnit)[0]? ≠ none := by
  decide

/-- The run just below the threshold, and one step before that. -/
theorem witness_StaleCountingFollowsTimeouts :
    let s (n : Nat) : State := { State.reset with ch := { State.reset.ch with toRun := State.reset.ch.toRun.set 4 n } }
    (s 2).cfg.staleThreshold ≤ timeoutRun (s 2) 4#8 + 1 ∧ timeoutRun (s 1) 4#8 + 1 < (s 1).cfg.staleThreshold ∧
    (5#8 : Byte) ≠ 4#8 ∧ OutcomeCode.checksumMismatch ≠ .timeout := by decide

/-- A step that empties the registry. -/
theorem witness_RegistryChangesOnlyThreeWays :
    let s := { presenting 0 [0x14#8] with ch := { State.reset.ch with
      registry := [{ index := 2#8, capability := none, version := none }] } }
    after (fun t => t.ch.registry) s.ch.registry (step s) = [] ∧ s.ch.registry ≠ [] := by decide

/-- A command of each unit that answers a next state. -/
theorem witness_UnitsAreIndependent :
    exec .dmxGetMode State.reset = .next (returnOk [0#8] State.reset) ∧ ofFramer .dmxGetMode = true ∧
    exec .chGetState State.reset = .next (returnOk [0#8, 0#8, 0xFF#8] State.reset) ∧ ofFramer .chGetState = false :=
  ⟨rfl, rfl, rfl, rfl⟩

theorem witness_CommandsLeaveReceiverRecords :
    exec (.dmxSetMode 1#8) State.reset = .next (returnOk [] (enterReceiver State.reset)) ∧
    ∀ addr v, Instr.dmxSetMode 1#8 ≠ .dmxWrite addr v := ⟨rfl, fun _ _ h => by cases h⟩

theorem witness_OutputsAreOnlyAppended :
    resetNow (sending (.byte 512)) = false ∧ step (sending (.byte 512)) = .next (background (sending (.byte 512))) :=
  ⟨by decide, rfl⟩

/-- The engine's invariant kept by a step that moves the engine: the enumeration's first write completes. -/
theorem witness_ChainInvariantIsKept :
    pinging.cfg.admissible = true ∧ ChainInv pinging ∧ step pinging = .next (background pinging) :=
  ⟨by decide, pinging_chainInv, rfl⟩

/-- A receiver in a break, as the front end and the parser hold it. -/
def inBreak : State :=
  setFront { level := .space, run := .brk 0, sampler := none, guard := 40 } (receiving .inBreak [] .space)

theorem witness_ReceiverInvariantIsKept :
    inBreak.cfg.admissible = true ∧ ReceiverInv inBreak ∧ step inBreak = .next (background inBreak) := by
  refine ⟨by decide, ?_, rfl⟩
  constructor <;> simp [inBreak, receiving, setFront]

theorem witness_FramerInvariantIsKept :
    FramerInv (beginTransmit State.reset) ∧ step (beginTransmit State.reset) = .next (background (beginTransmit State.reset)) := by
  refine ⟨?_, rfl⟩
  constructor <;> simp only [beginTransmit_fr, beginTransmit_now]
  case slots_wf => rfl
  case snapshot => exact ⟨by simp [slotImage], rfl⟩
  case parser_off => decide
  case byte_position => exact fun k h => nomatch h
  case gap_position => exact fun k h => nomatch h
  case byte_time => exact fun k h => nomatch h
  case gap_level => exact fun k h => nomatch h
  all_goals first | rfl | decide

/-- A frame just accepted; and the step that ends one, whose premises beside the invariant these are. -/
theorem witness_TransmitEndIsFixedAtAcceptance :
    exec .dmxTransmit State.reset = .next (beginTransmit State.reset) ∧ State.reset.fr.mode = .controller ∧
    State.reset.fr.tx = .idle ∧ FramerInv (beginTransmit State.reset) ∧
    step (beginTransmit State.reset) = .next (background (beginTransmit State.reset)) ∧
    resetNow (beginTransmit State.reset) = false ∧ (beginTransmit State.reset).fr.tx ≠ .idle ∧
    (background (beginTransmit State.reset)).fr.tx ≠ .idle ∧
    after (fun t => t.fr.tx) .brk (step (sending (.byte 512))) = .idle :=
  ⟨rfl, rfl, rfl, witness_FramerInvariantIsKept.1, rfl, by decide, by decide, by decide, by decide⟩

theorem witness_ResetInputRestoresTheTable :
    lineEventNext (withLine .reset (requesting .send .awaitingResponse [])) .reset [] = true := by decide

end Sys2Proof.Tests
end

section
/-! PROOFS. The framer commands on one slot and on the mode: DMX_WRITE, DMX_READ and DMX_GET_MODE
(40_dmx_framer.md R130, R131, R134). -/

namespace Sys2Proof.Machine

/-- The legal channel addresses are 1..512 (R71). -/
theorem slotLegal_iff {a : Nat} : slotLegal a = true ↔ 1 ≤ a ∧ a ≤ 512 := by
  simp [slotLegal, nSlots]

/-- The illegal ones are those the statements on `OutOfRange` name. -/
theorem slotLegal_ne_true_iff {a : Nat} : slotLegal a ≠ true ↔ a = 0 ∨ 512 < a := by
  rw [ne_eq, slotLegal_iff]
  omega

theorem exec_dmxWrite (addr : Half) (v : Byte) (s : State) : exec (.dmxWrite addr v) s = execDmxWrite addr v s := rfl

theorem exec_dmxRead (addr : Half) (s : State) : exec (.dmxRead addr) s = execDmxRead addr s := rfl

theorem exec_dmxGetMode (s : State) : exec .dmxGetMode s = .next (returnOk [modeByte s.fr.mode] s) := rfl

theorem exec_dmxWrite_of_legal {addr : Half} (h : slotLegal addr.toNat = true) (v : Byte) (s : State) :
    exec (.dmxWrite addr v) s =
      .next (returnOk [] { s with fr := { s.fr with slots := slotWrite s.fr.slots addr.toNat v } }) := by
  rw [exec_dmxWrite, execDmxWrite, if_pos h]

theorem exec_dmxWrite_of_illegal {addr : Half} (h : slotLegal addr.toNat ≠ true) (v : Byte) (s : State) :
    exec (.dmxWrite addr v) s = .next (raiseOutcome .outOfRange s) := by
  rw [exec_dmxWrite, execDmxWrite, if_neg h]

theorem exec_dmxRead_of_legal {addr : Half} (h : slotLegal addr.toNat = true) (s : State) :
    exec (.dmxRead addr) s = .next (returnOk [slotRead s.fr.slots addr.toNat] s) := by
  rw [exec_dmxRead, execDmxRead, if_pos h]

theorem exec_dmxRead_of_illegal {addr : Half} (h : slotLegal addr.toNat ≠ true) (s : State) :
    exec (.dmxRead addr) s = .next (raiseOutcome .outOfRange s) := by
  rw [exec_dmxRead, execDmxRead, if_neg h]

/-- The answer code of a mode, as R134's pseudocode writes it. -/
theorem modeByte_eq_ite (m : Mode) : modeByte m = if m = .controller then 0x00#8 else 0x01#8 := by
  cases m <;> rfl

end Sys2Proof.Machine

namespace Sys2Proof.Proofs

open Sys2Proof.Machine

/-- Settles O13: the memory after the command is the slot written in the one before, so the laws of `slotWrite` say
what each address reads. -/
theorem dmxWriteStoresTheSlot : Obligations.DmxWriteStoresTheSlot := by
  refine ⟨fun _ _ _ => rfl, fun s addr v => ⟨fun hout => ?_, fun hlow hhigh hwf => ?_⟩⟩
  · exact exec_dmxWrite_of_illegal (slotLegal_ne_true_iff.mpr hout) v s
  · have hlegal : slotLegal addr.toNat = true := slotLegal_iff.mpr ⟨hlow, hhigh⟩
    exact ⟨slotWrite s.fr.slots addr.toNat v, exec_dmxWrite_of_legal hlegal v s, slotWrite_wf hwf hlegal v,
      slotRead_slotWrite_self hwf addr.toNat v, fun _ ha => slotRead_slotWrite_of_ne v ha.symm s.fr.slots⟩

/-- Settles O14, by whether the address is legal. -/
theorem dmxReadReturnsTheSlot : Obligations.DmxReadReturnsTheSlot := by
  refine ⟨fun _ _ => rfl, reset_slotRead, fun s addr => ⟨fun hout => ?_, fun hlow hhigh => ?_⟩⟩
  · exact exec_dmxRead_of_illegal (slotLegal_ne_true_iff.mpr hout) s
  · exact exec_dmxRead_of_legal (slotLegal_iff.mpr ⟨hlow, hhigh⟩) s

/-- Settles O20: the command returns the byte of the mode, and that byte is R134's. -/
theorem dmxGetModeReturnsTheMode : Obligations.DmxGetModeReturnsTheMode := by
  refine ⟨rfl, fun s => ?_⟩
  rw [exec_dmxGetMode, modeByte_eq_ite]
  rfl

end Sys2Proof.Proofs
end

section
/-! PROOFS. The state read-back of the chain engine: CH_GET_STATE (42_chain_transaction.md R215). -/

namespace Sys2Proof.Machine

theorem exec_chGetState (s : State) :
    exec .chGetState s = .next (returnOk [reqStateByte s.ch.state, chainOpByte s.ch.op, s.ch.lastOutcome] s) := rfl

/-- The answer of `return OK(r)` is the code 0x00 of `OK` (R280) before the result bytes. -/
theorem returnOk_eq_respond (r : List Byte) (s : State) : returnOk r s = respond s.port.agent (0x00#8 :: r) s := rfl

/-- The codes of the request states, in R43's order. -/
theorem map_reqStateByte :
    [ReqState.idle, .sent, .awaitingResponse, .completed, .timedOut, .checksumError, .addressMismatch].map reqStateByte =
      [0#8, 1#8, 2#8, 3#8, 4#8, 5#8, 6#8] := rfl

/-- The codes of the owning commands, in R44's order. -/
theorem map_chainOpByte :
    [ChainOp.none, .send, .readReg, .writeReg, .enumerate].map chainOpByte = [0#8, 1#8, 2#8, 3#8, 4#8] := rfl

end Sys2Proof.Machine

namespace Sys2Proof.Proofs

open Sys2Proof.Machine

/-- Settles O37: the command has no arbiter, so on every state, busy or not, it is `return OK` of the two codes and the
last outcome, and `return OK` only appends the answer. -/
theorem chGetStateReadsTheEngine : Obligations.ChGetStateReadsTheEngine := by
  refine ⟨rfl, fun s => ?_, map_reqStateByte, map_chainOpByte⟩
  rw [exec_chGetState, returnOk_eq_respond]

end Sys2Proof.Proofs
end

section
/-! PROOFS. The registry read and emptied by the host, and the ping of an enumeration: CH_INVALIDATE, CH_LOOKUP and the
one attempt of a ping (43_chain_registry.md R231, R233, R243, R244). -/

namespace Sys2Proof.Machine

theorem exec_chInvalidate (s : State) :
    exec .chInvalidate s = .next (returnOk [] { s with ch := { s.ch with registry := [] } }) := rfl

theorem exec_chLookup (index : Byte) (s : State) :
    exec (.chLookup index) s = .next (returnOk (lookupBytes index s) s) := rfl

/-- What the end of an enumeration writes in the engine (R233). -/
@[simp] theorem finishEnumeration_ch (s : State) :
    (finishEnumeration s).ch = { s.ch with
      registry := s.ch.enumAcc, stale := Vector.replicate 256 false, toRun := Vector.replicate 256 0
      lastOutcome := outcomeByte .ok, op := .none, issuer := none } := by
  simp [finishEnumeration]

/-- The entry of an index is the first one that has it. -/
theorem registryFind_eq_some {us vs : List ChainUnit} {u : ChainUnit} {index : Byte}
    (hfirst : ∀ w ∈ us, w.index ≠ index) (hu : u.index = index) : registryFind (us ++ u :: vs) index = some u :=
  List.find?_eq_some_iff_append.mpr ⟨by simp [hu], us, vs, rfl, by simpa using hfirst⟩

theorem registryFind_eq_none {registry : List ChainUnit} {index : Byte} :
    registryFind registry index = none ↔ ∀ w ∈ registry, w.index ≠ index := by
  simp [registryFind]

/-- The stale mark as R244 answers it, present or not. -/
def staleByte (index : Byte) (s : State) : Byte := if isStale s index then 0x01#8 else 0x00#8

theorem lookupBytes_of_some {index : Byte} {s : State} {u : ChainUnit} (h : registryFind s.ch.registry index = some u) :
    lookupBytes index s = [0x01#8, staleByte index s, capValid u.capability, capByte u.capability] := by
  simp [lookupBytes, staleByte, h]

theorem lookupBytes_of_none {index : Byte} {s : State} (h : registryFind s.ch.registry index = none) :
    lookupBytes index s = [0x00#8, staleByte index s, 0x00#8, 0x00#8] := by
  simp [lookupBytes, staleByte, h]

/-- Units at rising indices above `lo` all stand above `lo`. -/
theorem lt_index_of_unitsRising {hi : Nat} {us : List ChainUnit} :
    ∀ {lo : Nat}, unitsRising lo hi us = true → ∀ w ∈ us, lo < w.index.toNat := by
  induction us with
  | nil => intro lo _ w hw; cases hw
  | cons u us ih =>
    intro lo h w hw
    simp only [unitsRising, Bool.and_eq_true, decide_eq_true_eq] at h
    obtain ⟨⟨⟨hlo, -⟩, -⟩, hrest⟩ := h
    rcases List.mem_cons.mp hw with rfl | hw
    · exact hlo
    · exact hlo.trans (ih hrest w hw)

/-- A frame without payload: its checksum is the XOR of index and code (R110, R111). -/
theorem build_nil (index code : Byte) : build index code [] = [index, code, 0x00#8, index ^^^ code] := by
  simp [build_eq, frameBody, xorFold]

/-- At its deadline a request with no retry left times out, unless a partial frame is a checksum error (R208). -/
theorem deadlineStep_of_no_retry {s : State} (hpartial : s.ch.rx = [] ∨ s.cfg.partialFrameOutcome = .timeout)
    (hretries : s.ch.retries = 0) : deadlineStep s = endRequest .timedOut s := by
  have hnot : ¬ (s.ch.rx ≠ [] ∧ s.cfg.partialFrameOutcome = .checksumMismatch) := by
    rintro ⟨hrx, hmis⟩
    rcases hpartial with hempty | htimeout
    · exact hrx hempty
    · rw [htimeout] at hmis; cases hmis
  rw [deadlineStep, if_neg hnot, if_neg (by omega)]

end Sys2Proof.Machine

namespace Sys2Proof.Proofs

open Sys2Proof.Machine

/-- Settles O35: the command has no arbiter, and the walk's end writes the units found whatever the registry holds. -/
theorem chInvalidateEmptiesTheRegistry : Obligations.ChInvalidateEmptiesTheRegistry := by
  refine ⟨rfl, fun s => ⟨?_, ?_⟩⟩
  · rw [exec_chInvalidate, returnOk_eq_respond]
  · rw [finishEnumeration_ch]

/-- Settles O36, by what the registry holds for the index; that index 0 is never there is the invariant's clause that
the registry rises above 0. -/
theorem chLookupReadsTheRegistry : Obligations.ChLookupReadsTheRegistry := by
  refine ⟨fun _ => rfl, fun s index => ⟨fun u us vs hreg hfirst hu => ?_, fun habsent => ?_⟩,
    fun s hinv w hw hzero => ?_⟩
  · have hfind : registryFind s.ch.registry index = some u := hreg ▸ registryFind_eq_some hfirst hu
    rw [exec_chLookup, returnOk_eq_respond, lookupBytes_of_some hfind]
    exact ⟨fun cap hcap => by rw [hcap]; rfl, fun hcap => by rw [hcap]; rfl⟩
  · rw [exec_chLookup, returnOk_eq_respond, lookupBytes_of_none (registryFind_eq_none.mpr habsent)]
    rfl
  · have hpos : 0 < w.index.toNat := lt_index_of_unitsRising hinv.registry w hw
    simp [hzero] at hpos

/-- Settles O46: the invariant's clause on the cursor says that a ping has no retry, so its deadline ends it. -/
theorem pingIsSentOnce : Obligations.PingIsSentOnce := by
  refine ⟨build_nil, fun s i => ?_, fun s hinv hop _ hpartial => ?_⟩
  · simp
  · obtain ⟨-, -, -, hretries⟩ := hinv.cursor hop
    rw [deadlineStep_of_no_retry hpartial hretries, endRequest]

end Sys2Proof.Proofs
end

section
/-! PROOFS. The exclusion of a stale index (43_chain_registry.md R241): what the calls to one unit do with it, and which
steps can clear a mark. -/

namespace Sys2Proof.Machine

theorem chainBusy_of_free {s : State} (h : s.ch.op = .none) : chainBusy s = false := by simp [chainBusy, h]

theorem exec_chReadReg_of_stale {s : State} {index : Byte} (hfree : s.ch.op = .none) (hstale : isStale s index = true)
    (reg : Byte) : exec (.chReadReg index reg) s = .next (raiseOutcome .stale s) := by
  simp [exec, execChReadReg, chainBusy_of_free hfree, hstale]

theorem exec_chWriteReg_of_stale {s : State} {index width : Byte} (hfree : s.ch.op = .none)
    (hstale : isStale s index = true) (hlow : 1 ≤ width.toNat) (hhigh : width.toNat ≤ 4) (reg : Byte) (v : List Byte) :
    exec (.chWriteReg index reg width v) s = .next (raiseOutcome .stale s) := by
  have hwidth : ¬ (width.toNat < 1 ∨ 4 < width.toNat) := by omega
  rw [exec, execChWriteReg, if_neg hwidth]
  simp [chainBusy_of_free hfree, hstale]

/-- On a free engine `CH_SEND` starts its request and does not ask for the stale mark (R200). -/
theorem exec_chSend_of_free {s : State} {len : Half} (hfree : s.ch.op = .none) (hlen : len.toNat ≤ 255)
    (index code : Byte) (p : List Byte) :
    exec (.chSend index code len p) s =
      .next (startRequest index code p s.cfg.retryCount (claimEngine .send s)) := by
  simp [exec, execChSend, chainBusy_of_free hfree, hlen]

/-- Taking a command from the port leaves the chain engine as it is (R90). -/
theorem fetch_ch {s u : State} {bytes : List Byte} (h : fetch s = some (bytes, u)) : u.ch = s.ch := by
  obtain ⟨c, hs, -, -, -, -, rfl⟩ := fetch_some h
  rfl

/-- The framer's commands do not touch the chain engine. -/
theorem exec_framer_ch {i : Instr} {s t : State} (hi : ofFramer i = true) (h : exec i s = .next t) : t.ch = s.ch := by
  cases i with
  | dmxWrite addr v => simp only [exec, execDmxWrite] at h; split at h <;> cases h <;> rfl
  | dmxRead addr => simp only [exec, execDmxRead] at h; split at h <;> cases h <;> rfl
  | dmxTransmit => simp only [exec, execDmxTransmit] at h; (repeat' split at h) <;> cases h <;> rfl
  | dmxSetMode mode => simp only [exec, execDmxSetMode] at h; (repeat' split at h) <;> cases h <;> rfl
  | dmxGetMode | dmxReadDiag => cases h; rfl
  | chSend | chReadReg | chWriteReg | chEnumerate | chInvalidate | chLookup | chGetState | chainRead | chainWrite
    | chainPing => cases hi

/-- No command writes a stale mark (R241). -/
theorem exec_stale {i : Instr} {s t : State} (h : exec i s = .next t) : t.ch.stale = s.ch.stale := by
  cases i with
  | dmxWrite | dmxRead | dmxTransmit | dmxSetMode | dmxGetMode | dmxReadDiag => rw [exec_framer_ch rfl h]
  | chSend index code len p => simp only [exec, execChSend] at h; (repeat' split at h) <;> cases h <;> rfl
  | chReadReg index reg => simp only [exec, execChReadReg] at h; (repeat' split at h) <;> cases h <;> rfl
  | chWriteReg index reg width v => simp only [exec, execChWriteReg] at h; (repeat' split at h) <;> cases h <;> rfl
  | chEnumerate => simp only [exec, execChEnumerate] at h; split at h <;> cases h <;> rfl
  | chInvalidate | chLookup | chGetState | chainRead | chainWrite | chainPing => cases h; rfl

/-- Every mark that stands in `s` stands in `t`, unless an enumeration ends between them (R241). -/
def MarksStay (s t : State) : Prop :=
  (∀ i, isStale s i = true → isStale t i = true) ∨ (s.ch.op = .enumerate ∧ t.ch.op = .none)

theorem MarksStay.of_stale_eq {s t : State} (h : t.ch.stale = s.ch.stale) : MarksStay s t :=
  .inl fun i hi => by simpa [isStale, h] using hi

theorem MarksStay.of_ch_eq {s t : State} (h : t.ch = s.ch) : MarksStay s t := .of_stale_eq (by rw [h])

/-- Only the owner and the marks of the state before count. -/
theorem MarksStay.congr_left {s s' t : State} (h : MarksStay s' t) (hop : s'.ch.op = s.ch.op)
    (hstale : s'.ch.stale = s.ch.stale) : MarksStay s t := by
  simpa only [MarksStay, isStale, hop, hstale] using h

/-- Stale counting sets marks and clears none (R240). -/
theorem isStale_updateStale {s : State} {j : Byte} (i : Byte) (o : OutcomeCode) (h : isStale s j = true) :
    isStale (updateStale i o s) j = true := by
  unfold updateStale
  dsimp only
  split
  · split
    · simp only [isStale, Vector.getElem_set]
      split
      · rfl
      · exact h
    · exact h
  · exact h

theorem finishCall_marksStay (s : State) : MarksStay s (finishCall s) :=
  .inl fun i hi => by
    simpa [finishCall, isStale] using isStale_updateStale s.ch.index (outcomeOfState s.ch.state) hi

/-- A ping's end goes on with the walk, marks and all, or ends it (R232). -/
theorem pingDone_marksStay {s : State} (h : s.ch.op = .enumerate) : MarksStay s (pingDone s) := by
  unfold pingDone
  dsimp only
  split
  · exact .of_stale_eq (by simp)
  · exact .inr ⟨h, by simp⟩

/-- The end of a request, by the command that owns the engine. -/
theorem requestEnded_marksStay (s : State) : MarksStay s (requestEnded s) := by
  unfold requestEnded
  cases hop : s.ch.op with
  | none => exact .of_ch_eq rfl
  | send | readReg | writeReg => exact finishCall_marksStay s
  | enumerate => exact pingDone_marksStay hop

theorem endRequest_marksStay (st : ReqState) (s : State) : MarksStay s (endRequest st s) :=
  (requestEnded_marksStay _).congr_left rfl rfl

theorem chainByteArrives_marksStay (b : Byte) (s : State) : MarksStay s (chainByteArrives b s) := by
  unfold chainByteArrives takeByte
  dsimp only
  (repeat' split)
  · exact .of_ch_eq rfl
  · exact (requestEnded_marksStay _).congr_left rfl rfl
  · exact .of_stale_eq rfl
  · exact .of_ch_eq rfl

theorem deadlineStep_marksStay (s : State) : MarksStay s (deadlineStep s) := by
  unfold deadlineStep
  (repeat' split)
  · exact endRequest_marksStay _ s
  · exact .of_stale_eq rfl
  · exact endRequest_marksStay _ s

theorem chainStep_marksStay (s : State) : MarksStay s (chainStep s) := by
  unfold chainStep
  cases s.ch.state with
  | sent => exact .of_stale_eq rfl
  | awaitingResponse => exact deadlineStep_marksStay s
  | idle | completed | timedOut | checksumError | addressMismatch => exact .of_ch_eq rfl

theorem internalStep_marksStay (s : State) : MarksStay s (internalStep s) := by
  obtain ⟨-, h⟩ | ⟨-, -, h⟩ | ⟨-, -, -, h⟩ | ⟨-, -, -, -, h⟩ | ⟨-, -, -, -, h⟩ := internalStep_cases s <;> rw [h]
  · exact (chainStep_marksStay _).congr_left (by simp) (by simp)
  · obtain ⟨-, -, hch, -⟩ := txStep_frame (hostWaited s)
    exact .of_ch_eq (by simp [hch])
  · exact .of_ch_eq (by simp [(sampleStep_sameButFramer (hostWaited s)).ch])
  · exact .of_ch_eq (by simp [(breakStep_sameButFramer (hostWaited s)).ch])
  · exact .of_ch_eq rfl

theorem lineEvent_marksStay {e : LineEvent} (he : e ≠ .reset) (s : State) : MarksStay s (lineEvent e s) := by
  cases e with
  | dmxEdge level => exact .of_ch_eq (dmxEdge_sameButFramer level s).ch
  | chainByte b => exact chainByteArrives_marksStay b s
  | reset => exact absurd rfl he
  | pass => exact .of_ch_eq rfl

theorem background_marksStay {s : State} (h : resetNow s = false) : MarksStay s (background s) := by
  obtain ⟨e, es, hline, htime, hb⟩ | ⟨-, hb⟩ := background_cases s <;> rw [hb]
  · have he : e.event ≠ .reset := by simpa [resetNow, due, lineDueAt, hline, htime] using h
    exact (lineEvent_marksStay he _).congr_left (by simp) (by simp)
  · exact internalStep_marksStay s

/-- A step clears a mark only by the end of a walk or by a reset (R241). -/
theorem step_marksStay {s t : State} (h : step s = .next t) (hreset : resetNow s = false) : MarksStay s t := by
  obtain ⟨_, u, i, hfetch, -, hexec⟩ | ⟨_, u, -, hfetch, -, rfl⟩ | ⟨-, rfl⟩ := step_cases h
  · exact .of_stale_eq (by rw [exec_stale hexec, fetch_ch hfetch])
  · exact .of_ch_eq ((raiseOutcome_ch u _).trans (fetch_ch hfetch))
  · exact background_marksStay hreset

end Sys2Proof.Machine

namespace Sys2Proof.Proofs

open Sys2Proof.Machine

/-- Settles O50: the arbiter finds the engine free, so the stale mark decides for the convenience calls and not for
`CH_SEND`; that a mark goes only by a walk's end or a reset is `step_marksStay`. -/
theorem staleIndexIsExcluded : Obligations.StaleIndexIsExcluded := by
  refine ⟨fun s i reg width v hfree hstale => ⟨?_, fun hlow hhigh => ?_⟩,
    fun s i code len p hfree _ hlen => ⟨_, exec_chSend_of_free hfree hlen i code p, by simp⟩,
    fun s t i hstep hbefore hafter => ?_⟩
  · exact exec_chReadReg_of_stale hfree hstale reg
  · exact exec_chWriteReg_of_stale hfree hstale hlow hhigh reg v
  · cases hreset : resetNow s with
    | true => exact .inr rfl
    | false =>
      obtain hkeep | hwalk := step_marksStay hstep hreset
      · rw [hkeep i hbefore] at hafter; cases hafter
      · exact .inl hwalk

end Sys2Proof.Proofs
end

section
/-! PROOFS. The decoders and the encoder (30_encoding.md R91 to R95, R110, R111, R114): the host command port and the
CommandFrames the block builds, each direction. -/

namespace Sys2Proof.Machine

theorem byte_eq_ofNat_of_toNat {op : Byte} {n : Nat} (h : op.toNat = n) : op = BitVec.ofNat 8 n := by
  subst h; simp

theorem wellFormed_chSend_iff {index code : Byte} {len : Half} {p : List Byte} :
    (Instr.chSend index code len p).WellFormed ↔ p.length = len.toNat := by
  simp [Instr.WellFormed, Instr.check]

theorem wellFormed_chWriteReg_iff {index reg width : Byte} {v : List Byte} :
    (Instr.chWriteReg index reg width v).WellFormed ↔ v.length = width.toNat := by
  simp [Instr.WellFormed, Instr.check]

theorem wellFormed_chainWrite_iff {dest reg : Byte} {v : List Byte} :
    (Instr.chainWrite dest reg v).WellFormed ↔ 1 ≤ v.length ∧ v.length ≤ 4 := by
  simp [Instr.WellFormed, Instr.check]

/-! ## The host command port -/

theorem decode_chSend {index code l0 l1 : Byte} {p : List Byte} (h : p.length = (half l0 l1).toNat) :
    decode (0x10#8 :: index :: code :: l0 :: l1 :: p) = .ok (.chSend index code (half l0 l1) p) := by
  simp [decode, h]

theorem decode_chWriteReg {index reg width : Byte} {v : List Byte} (h : v.length = width.toNat) :
    decode (0x12#8 :: index :: reg :: width :: v) = .ok (.chWriteReg index reg width v) := by
  simp [decode, h]

/-- A well-formed host command decodes from its own bytes. -/
theorem decode_encode (ping : Byte) {i : Instr} (hwf : i.WellFormed) (hhost : i.onWire = false) :
    decode (encode ping i) = .ok i := by
  cases i with
  | dmxWrite addr value =>
    have h : decode [0x01#8, halfLo addr, halfHi addr, value] = .ok (.dmxWrite (half (halfLo addr) (halfHi addr)) value) :=
      rfl
    rwa [half_halfLo_halfHi] at h
  | dmxRead addr =>
    have h : decode [0x02#8, halfLo addr, halfHi addr] = .ok (.dmxRead (half (halfLo addr) (halfHi addr))) := rfl
    rwa [half_halfLo_halfHi] at h
  | chSend index code len p =>
    have hlen : p.length = (half (halfLo len) (halfHi len)).toNat := by
      rw [half_halfLo_halfHi]; exact wellFormed_chSend_iff.mp hwf
    rw [encode, decode_chSend hlen, half_halfLo_halfHi]
  | chWriteReg index reg width v => exact decode_chWriteReg (wellFormed_chWriteReg_iff.mp hwf)
  | dmxTransmit | dmxSetMode | dmxGetMode | dmxReadDiag | chReadReg | chEnumerate | chInvalidate | chLookup | chGetState =>
    rfl
  | chainRead | chainWrite | chainPing => cases hhost

/-- What the host port decodes to has the bytes it was decoded from, is well formed, and is a host command. -/
theorem encode_of_decode (ping : Byte) {c : List Byte} {i : Instr} (h : decode c = .ok i) :
    encode ping i = c ∧ i.WellFormed ∧ i.onWire = false := by
  cases c with
  | nil => cases h
  | cons op args =>
    simp only [decode] at h
    split at h <;> rename_i hop <;> (repeat' split at h) <;> cases h
    -- the accepted commands are left, one per opcode
    all_goals obtain rfl := byte_eq_ofNat_of_toNat hop
    all_goals exact ⟨by simp [encode], by simp [Instr.WellFormed, Instr.check, *], rfl⟩

/-- Where the length is the expected one, the host port accepts. -/
theorem decode_of_hostLength {c : List Byte} (h : hostLength c = some c.length) : ∃ i, decode c = .ok i := by
  cases c with
  | nil => cases h
  | cons op args =>
    simp only [hostLength, List.getD_cons_zero] at h
    split at h <;> rename_i hop
    case h_14 => cases h
    all_goals obtain rfl := byte_eq_ofNat_of_toNat hop
    case h_7 =>
      rcases args with _ | ⟨index, _ | ⟨code, _ | ⟨l0, _ | ⟨l1, p⟩⟩⟩⟩ <;> simp at h <;> try omega
      exact ⟨_, decode_chSend (by omega)⟩
    case h_9 =>
      rcases args with _ | ⟨index, _ | ⟨reg, _ | ⟨width, v⟩⟩⟩ <;> simp at h
      exact ⟨_, decode_chWriteReg (by omega)⟩
    all_goals rcases args with _ | ⟨a, _ | ⟨b, _ | ⟨c, _ | ⟨d, rest⟩⟩⟩⟩ <;> simp [decode] at h ⊢

theorem hostLength_ne_none_iff (c : List Byte) : hostLength c ≠ none ↔
    (c.getD 0 0x00#8).toNat ∈
      [0x01, 0x02, 0x03, 0x04, 0x05, 0x06, 0x10, 0x11, 0x12, 0x13, 0x14, 0x15, 0x16] := by
  simp only [hostLength]
  split <;> simp_all

/-- Every well-formed instruction's encoding has the length its own header says, the per-constructor laws together. -/
theorem encodedLength (i : Instr) : Laws.EncodedLength.Statement i := by
  cases i with
  | dmxWrite addr v => exact Laws.EncodedLength.dmxWrite addr v
  | dmxRead addr => exact Laws.EncodedLength.dmxRead addr
  | dmxTransmit => exact Laws.EncodedLength.dmxTransmit
  | dmxSetMode mode => exact Laws.EncodedLength.dmxSetMode mode
  | dmxGetMode => exact Laws.EncodedLength.dmxGetMode
  | dmxReadDiag => exact Laws.EncodedLength.dmxReadDiag
  | chSend index code len p => exact Laws.EncodedLength.chSend index code len p
  | chReadReg index reg => exact Laws.EncodedLength.chReadReg index reg
  | chWriteReg index reg width v => exact Laws.EncodedLength.chWriteReg index reg width v
  | chEnumerate => exact Laws.EncodedLength.chEnumerate
  | chInvalidate => exact Laws.EncodedLength.chInvalidate
  | chLookup index => exact Laws.EncodedLength.chLookup index
  | chGetState => exact Laws.EncodedLength.chGetState
  | chainRead dest reg => exact Laws.EncodedLength.chainRead dest reg
  | chainWrite dest reg v => exact Laws.EncodedLength.chainWrite dest reg v
  | chainPing dest => exact Laws.EncodedLength.chainPing dest

/-- The host port accepts exactly the commands of the expected length (R91). -/
theorem decode_isOk_iff (c : List Byte) : (∃ i, decode c = .ok i) ↔ hostLength c = some c.length := by
  refine ⟨fun ⟨i, hi⟩ => ?_, decode_of_hostLength⟩
  obtain ⟨rfl, hwf, hhost⟩ := encode_of_decode 0x00#8 hi
  simpa [hhost] using encodedLength i 0x00#8 hwf

/-! ## The chain frames -/

/-- The frame decoder on a built frame: length and checksum pass, the code and the payload decide (R110, R111). -/
theorem decodeFrame_build (ping dest code : Byte) {p : List Byte} (h : p.length ≤ 255) :
    decodeFrame ping (build dest code p) = classifyFrame ping dest code p := by
  have hn : (BitVec.ofNat 8 p.length).toNat = p.length := ofNat_length_toNat h
  have hb := build_eq dest code p
  rw [hb, decodeFrame, ← hb, hn]
  simp

/-- What the frame decoder accepts is a built frame of the code and payload it classified. -/
theorem build_of_decodeFrame {ping : Byte} {f : List Byte} {i : Instr} (h : decodeFrame ping f = .ok i) :
    ∃ dest code p, f = build dest code p ∧ classifyFrame ping dest code p = .ok i := by
  unfold decodeFrame at h
  split at h
  · rename_i dest code n rest
    split at h
    · cases h
    · split at h
      · cases h
      · rename_i hbuild
        exact ⟨dest, code, _, not_not.mp hbuild, h⟩
  · cases h

theorem classifyFrame_chainRead (ping dest reg : Byte) :
    classifyFrame ping dest readCode (readPayload reg) = .ok (.chainRead dest reg) := rfl

theorem classifyFrame_chainWrite (ping dest reg : Byte) {v : List Byte} (h : 1 ≤ v.length ∧ v.length ≤ 4) :
    classifyFrame ping dest writeCode (writePayload reg v) = .ok (.chainWrite dest reg v) := by
  have hcode : writeCode ≠ readCode := by decide
  simp [classifyFrame, writePayload, h, hcode]

theorem classifyFrame_chainPing {ping : Byte} (hread : ping ≠ readCode) (hwrite : ping ≠ writeCode) (dest : Byte) :
    classifyFrame ping dest ping [] = .ok (.chainPing dest) := by
  simp [classifyFrame, hread, hwrite]

/-- A well-formed wire command decodes from its own frame. -/
theorem decodeFrame_encode {ping : Byte} (hread : ping ≠ readCode) (hwrite : ping ≠ writeCode) {i : Instr}
    (hwf : i.WellFormed) (hwire : i.onWire = true) : decodeFrame ping (encode ping i) = .ok i := by
  cases i with
  | chainRead dest reg =>
    rw [encode, decodeFrame_build ping dest readCode (by simp [readPayload]), classifyFrame_chainRead]
  | chainWrite dest reg v =>
    have hv := wellFormed_chainWrite_iff.mp hwf
    rw [encode, decodeFrame_build ping dest writeCode (by simp [writePayload]; omega), classifyFrame_chainWrite _ _ _ hv]
  | chainPing dest =>
    rw [encode, decodeFrame_build ping dest ping (by simp), classifyFrame_chainPing hread hwrite]
  | dmxWrite | dmxRead | dmxTransmit | dmxSetMode | dmxGetMode | dmxReadDiag | chSend | chReadReg | chWriteReg
    | chEnumerate | chInvalidate | chLookup | chGetState => cases hwire

/-- What a code and a payload are classified as has them in its frame. -/
theorem encode_of_classifyFrame {ping dest code : Byte} {p : List Byte} {i : Instr}
    (h : classifyFrame ping dest code p = .ok i) :
    encode ping i = build dest code p ∧ i.WellFormed ∧ i.onWire = true := by
  unfold classifyFrame at h
  (repeat' split at h) <;> cases h
  · exact ⟨by rw [‹code = readCode›]; rfl, rfl, rfl⟩
  · exact ⟨by rw [‹code = writeCode›]; rfl, wellFormed_chainWrite_iff.mpr ‹_ ∧ _›, rfl⟩
  · exact ⟨by rw [‹code = ping›]; rfl, rfl, rfl⟩

/-- A built frame, field by field (R110, R111, R206). -/
theorem build_fields (index code : Byte) {p : List Byte} (h : p.length ≤ 255) :
    let f := build index code p
    frameLen f = p.length ∧ (f.drop 3).take p.length = p ∧ f.take (3 + p.length) = frameBody index code p ∧
      f[3 + p.length]? = some (xorFold (frameBody index code p)) := by
  have hn : (BitVec.ofNat 8 p.length).toNat = p.length := ofNat_length_toNat h
  refine ⟨?_, ?_, ?_, ?_⟩
  · rw [build_eq]; exact hn
  · rw [build_eq]; simp
  · exact List.take_left' (frameBody_length index code p)
  · rw [build, ← frameBody_length index code p]; simp

end Sys2Proof.Machine

namespace Sys2Proof.Proofs

open Sys2Proof.Machine

/-- Settles O1, constructor by constructor in `decode_encode`. -/
theorem hostCommandDecodesBack : Obligations.HostCommandDecodesBack :=
  fun ping _ hwf hhost => decode_encode ping hwf hhost

/-- Settles O2: a frame within the length field is classified by its code and payload, and the three codes differ. -/
theorem wireFrameDecodesBack : Obligations.WireFrameDecodesBack :=
  fun _ _ hread hwrite hwf hwire => decodeFrame_encode hread hwrite hwf hwire

/-- Settles O3, opcode by opcode in `encode_of_decode`. -/
theorem decodedCommandHasItsBytes : Obligations.DecodedCommandHasItsBytes :=
  fun ping _ _ h => encode_of_decode ping h

/-- Settles O4: the accepted frame is a built one, and its classification keeps code and payload. -/
theorem decodedFrameHasItsBytes : Obligations.DecodedFrameHasItsBytes := by
  intro ping f i h
  obtain ⟨dest, code, p, rfl, hclass⟩ := build_of_decodeFrame h
  exact encode_of_classifyFrame hclass

/-- Settles O5: what decodes has its encoding's length, and at that length every opcode's row accepts. -/
theorem commandDecodesExactlyAtItsLength : Obligations.CommandDecodesExactlyAtItsLength :=
  fun c => ⟨decode_isOk_iff c, hostLength_ne_none_iff c⟩

/-- Settles O6 on the five sequences themselves. -/
theorem writtenOutWordsDecode : Obligations.WrittenOutWordsDecode := by
  refine ⟨?_, ?_, ?_, ?_, ?_⟩ <;> decide

/-- Settles O38: the fields of `build` are those a receiver reads, so its length and checksum tests pass. -/
theorem builtFrameIsValid : Obligations.BuiltFrameIsValid := by
  intro index code p hp
  obtain ⟨hlen, hpayload, htake, hsum⟩ := build_fields index code hp
  refine ⟨build_length index code p, rfl, rfl, ⟨BitVec.ofNat 8 p.length, rfl, ofNat_length_toNat hp⟩, hpayload, ?_,
    Laws.EncodedLength.build_complete index code hp, ?_⟩
  · rw [htake]; exact hsum
  · rw [checksumValid, hlen, htake, List.getD_eq_getElem?_getD, hsum]
    simp

end Sys2Proof.Proofs
end

section
/-! PROOFS. What a command can do and which move a step is, said once: later proofs about all steps go through
`CommandEffect` and `Move` (30_encoding.md R90, 44_serial_timing.md R260, R266). -/

namespace Sys2Proof.Machine

/-- What the acceptance of `i` in `s` can do: answer at once, or change one unit as its rule says. -/
inductive CommandEffect (s : State) (i : Instr) : State → Prop where
  /-- A result or a refusal, nothing else. -/
  | answer (bytes : List Byte) : CommandEffect s i (respond s.port.agent bytes s)
  /-- `DMX_WRITE` of a legal slot (R130). -/
  | store {addr : Half} {v : Byte} (hi : i = .dmxWrite addr v) (hlegal : slotLegal addr.toNat = true) :
      CommandEffect s i (returnOk [] { s with fr := { s.fr with slots := slotWrite s.fr.slots addr.toNat v } })
  /-- The acceptance of a transmit (R132). -/
  | transmit (hi : i = .dmxTransmit) (hmode : s.fr.mode = .controller) (hidle : s.fr.tx = .idle) :
      CommandEffect s i (beginTransmit s)
  /-- The change to receiver mode (R133). -/
  | toReceiver {m : Byte} (hi : i = .dmxSetMode m) (hidle : s.fr.tx = .idle) :
      CommandEffect s i (returnOk [] (enterReceiver s))
  /-- The change to controller mode (R133). -/
  | toController {m : Byte} (hi : i = .dmxSetMode m) (hidle : s.fr.tx = .idle) :
      CommandEffect s i (returnOk [] (enterController s))
  /-- `CH_INVALIDATE` (R243). -/
  | invalidate (hi : i = .chInvalidate) : CommandEffect s i (returnOk [] { s with ch := { s.ch with registry := [] } })
  /-- The acceptance of a call to one unit (R200, R235, R237). -/
  | call {kind : ChainOp} {index code : Byte} {p : List Byte} (hi : ofFramer i = false)
      (hkind : kind = .send ∨ kind = .readReg ∨ kind = .writeReg) (hfree : s.ch.op = .none)
      (hlen : i.WellFormed → p.length ≤ 255) :
      CommandEffect s i (startRequest index code p s.cfg.retryCount (claimEngine kind s))
  /-- The acceptance of an enumeration (R230). -/
  | enumerate (hi : i = .chEnumerate) (hfree : s.ch.op = .none) :
      CommandEffect s i (beginEnumeration (claimEngine .enumerate s))
  /-- A wire command (R110, R114): no host command. -/
  | wire {dest code : Byte} {p : List Byte} (hi : i.onWire = true) : CommandEffect s i (sendFrame dest code p s)

theorem not_chainBusy_iff {s : State} : ¬ chainBusy s = true ↔ s.ch.op = .none := by simp [chainBusy]

/-- The inversion of `exec`, instruction by instruction. -/
theorem exec_effect {i : Instr} {s t : State} (h : exec i s = .next t) : CommandEffect s i t := by
  cases i with
  | dmxWrite addr v =>
    simp only [exec, execDmxWrite] at h
    split at h <;> cases h
    · exact .store rfl ‹_›
    · exact .answer _
  | dmxRead addr => simp only [exec, execDmxRead] at h; split at h <;> cases h <;> exact .answer _
  | dmxTransmit =>
    simp only [exec, execDmxTransmit] at h
    (repeat' split at h) <;> cases h
    · exact .answer _
    · exact .answer _
    · refine .transmit rfl ?_ (not_not.mp ‹_›)
      cases hm : s.fr.mode with
      | controller => rfl
      | receiver => exact absurd hm ‹_›
  | dmxSetMode mode =>
    simp only [exec, execDmxSetMode] at h
    (repeat' split at h) <;> cases h
    · exact .answer _
    · exact .answer _
    · exact .answer _
    · exact .toReceiver rfl (not_not.mp ‹_›)
    · exact .toController rfl (not_not.mp ‹_›)
  | dmxGetMode | dmxReadDiag | chLookup | chGetState => cases h; exact .answer _
  | chSend index code len p =>
    simp only [exec, execChSend] at h
    (repeat' split at h) <;> cases h
    · exact .answer _
    · exact .answer _
    · refine .call rfl (.inl rfl) (not_chainBusy_iff.mp ‹_›) fun hwf => ?_
      have hlen := wellFormed_chSend_iff.mp hwf
      omega
  | chReadReg index reg =>
    simp only [exec, execChReadReg] at h
    (repeat' split at h) <;> cases h
    · exact .answer _
    · exact .answer _
    · exact .call rfl (.inr (.inl rfl)) (not_chainBusy_iff.mp ‹_›) fun _ => by simp [readPayload]
  | chWriteReg index reg width v =>
    simp only [exec, execChWriteReg] at h
    (repeat' split at h) <;> cases h
    · exact .answer _
    · exact .answer _
    · exact .answer _
    · refine .call rfl (.inr (.inr rfl)) (not_chainBusy_iff.mp ‹_›) fun hwf => ?_
      have hlen := wellFormed_chWriteReg_iff.mp hwf
      simp only [writePayload, List.length_cons]
      omega
  | chEnumerate =>
    simp only [exec, execChEnumerate] at h
    split at h <;> cases h
    · exact .answer _
    · exact .enumerate rfl (not_chainBusy_iff.mp ‹_›)
  | chInvalidate => cases h; exact .invalidate rfl
  | chainRead | chainWrite | chainPing => cases h; exact .wire rfl

/-- No command is refused by the model, and none faults. -/
theorem exec_next (i : Instr) (s : State) : ∃ t, exec i s = .next t := by
  cases i with
  | dmxWrite addr v => simp only [exec, execDmxWrite]; split <;> exact ⟨_, rfl⟩
  | dmxRead addr => simp only [exec, execDmxRead]; split <;> exact ⟨_, rfl⟩
  | dmxTransmit => simp only [exec, execDmxTransmit]; (repeat' split) <;> exact ⟨_, rfl⟩
  | dmxSetMode mode => simp only [exec, execDmxSetMode]; (repeat' split) <;> exact ⟨_, rfl⟩
  | chSend index code len p => simp only [exec, execChSend]; (repeat' split) <;> exact ⟨_, rfl⟩
  | chReadReg index reg => simp only [exec, execChReadReg]; (repeat' split) <;> exact ⟨_, rfl⟩
  | chWriteReg index reg width v => simp only [exec, execChWriteReg]; (repeat' split) <;> exact ⟨_, rfl⟩
  | chEnumerate => simp only [exec, execChEnumerate]; split <;> exact ⟨_, rfl⟩
  | dmxGetMode | dmxReadDiag | chInvalidate | chLookup | chGetState | chainRead | chainWrite | chainPing => exact ⟨_, rfl⟩

@[simp] theorem beginEnumeration_cfg (s : State) : (beginEnumeration s).cfg = s.cfg := rfl
@[simp] theorem beginEnumeration_now (s : State) : (beginEnumeration s).now = s.now := rfl
@[simp] theorem beginEnumeration_fr (s : State) : (beginEnumeration s).fr = s.fr := rfl
@[simp] theorem beginEnumeration_port (s : State) : (beginEnumeration s).port = s.port := rfl
@[simp] theorem beginEnumeration_lineIn (s : State) : (beginEnumeration s).lineIn = s.lineIn := rfl
@[simp] theorem beginEnumeration_ch (s : State) : (beginEnumeration s).ch = { s.ch with
    enumAcc := [], enumCursor := 0x01#8, req := build 0x01#8 s.cfg.pingCode [], rx := [], state := .sent, txEn := true
    index := 0x01#8, attempt := 0, retries := 0 } := rfl
@[simp] theorem beginEnumeration_chp (s : State) : (beginEnumeration s).chp = { s.chp with
    unread := [], writeStart := s.now
    written := s.chp.written ++ [{ time := s.now, frame := build 0x01#8 s.cfg.pingCode [] }] } := rfl
@[simp] theorem enterReceiver_fr (s : State) : (enterReceiver s).fr = { s.fr with
    mode := .receiver, dmxTxEn := false, rx := .waitBreak, rxBuf := [], front := frontRest s.fr.front.level } := rfl
@[simp] theorem enterController_fr (s : State) : (enterController s).fr = { s.fr with
    mode := .controller, rx := .off, rxBuf := [], dmxTxEn := true, dmxTx := .mark
    front := frontRest s.fr.front.level } := rfl

/-- A command changes neither the time, the parameters, nor what is still to come. -/
theorem CommandEffect.frame {s t : State} {i : Instr} (h : CommandEffect s i t) :
    t.now = s.now ∧ t.cfg = s.cfg ∧ t.lineIn = s.lineIn ∧ t.port.inputs = s.port.inputs := by
  cases h <;> simp

/-! ## The moves of a step -/

/-- The block itself is the same; what is still to come, and the agent noted, may differ. -/
structure SameBlock (s t : State) : Prop where
  cfg : t.cfg = s.cfg
  now : t.now = s.now
  fr : t.fr = s.fr
  ch : t.ch = s.ch
  chp : t.chp = s.chp
  responses : t.port.responses = s.port.responses

theorem fetch_sameBlock {s u : State} {bytes : List Byte} (h : fetch s = some (bytes, u)) : SameBlock s u := by
  obtain ⟨c, hs, -, -, -, -, rfl⟩ := fetch_some h
  exact ⟨rfl, rfl, rfl, rfl, rfl, rfl⟩

theorem hostWaited_sameBlock (s : State) : SameBlock s (hostWaited s) :=
  ⟨hostWaited_cfg s, hostWaited_now s, hostWaited_fr s, hostWaited_ch s, hostWaited_chp s, hostWaited_responses s⟩

theorem SameBlock.setLineIn {s t : State} (h : SameBlock s t) (l : List LineInput) : SameBlock s { t with lineIn := l } :=
  ⟨h.cfg, h.now, h.fr, h.ch, h.chp, h.responses⟩

/-- The state in which the line event at the head of the queue is taken. -/
def lineTaken (s : State) (rest : List LineInput) : State := { hostWaited s with lineIn := rest }

theorem lineTaken_sameBlock (s : State) (rest : List LineInput) : SameBlock s (lineTaken s rest) :=
  (hostWaited_sameBlock s).setLineIn rest

/-- What a step can be: the agents of R10 one by one, each with the reason it moves. -/
inductive Move (s : State) : State → Prop where
  | command {bytes : List Byte} {u t : State} {i : Instr} (hfetch : fetch s = some (bytes, u))
      (hdecode : decode bytes = .ok i) (heffect : CommandEffect u i t) : Move s t
  | illegal {bytes : List Byte} {u : State} (hfetch : fetch s = some (bytes, u)) :
      Move s (raiseOutcome .illegalCommand u)
  | line {e : LineInput} {rest : List LineInput} (hline : s.lineIn = e :: rest) (htime : e.time ≤ s.now) :
      Move s (lineEvent e.event (lineTaken s rest))
  | engine (hdue : due s (chainDueAt s) = true) : Move s (chainStep (hostWaited s))
  | sequencer (hdue : due s (txDueAt s) = true) : Move s (txStep (hostWaited s))
  | sample (hdue : due s (sampleDueAt s) = true) : Move s (sampleStep (hostWaited s))
  | breakRun (hdue : due s (breakDueAt s) = true) : Move s (breakStep (hostWaited s))
  | time (hahead : ∀ p ∈ pending s, s.now < p) : Move s (advanceTime s)

/-- Every step is one of the moves. -/
theorem step_move {s t : State} (h : step s = .next t) : Move s t := by
  obtain ⟨bytes, u, i, hfetch, hdecode, hexec⟩ | ⟨_, u, -, hfetch, -, rfl⟩ | ⟨hnone, rfl⟩ := step_cases h
  · exact .command hfetch hdecode (exec_effect hexec)
  · exact .illegal hfetch
  · obtain ⟨e, es, hline, htime, hb⟩ | ⟨hline, hb⟩ := background_cases s <;> rw [hb]
    · exact .line hline htime
    · obtain ⟨h1, hi⟩ | ⟨-, h2, hi⟩ | ⟨-, -, h3, hi⟩ | ⟨-, -, -, h4, hi⟩ | ⟨h1, h2, h3, h4, hi⟩ :=
        internalStep_cases s <;> rw [hi]
      · exact .engine h1
      · exact .sequencer h2
      · exact .sample h3
      · exact .breakRun h4
      · exact .time (pending_ahead hnone hline h1 h2 h3 h4)

/-- Where no reset is asserted, the line event taken is no reset. -/
theorem event_ne_reset {s : State} {e : LineInput} {rest : List LineInput} (hreset : resetNow s = false)
    (hline : s.lineIn = e :: rest) (htime : e.time ≤ s.now) : e.event ≠ .reset := by
  simpa [resetNow, due, lineDueAt, hline, htime] using hreset

theorem resetNow_of_event {s : State} {e : LineInput} {rest : List LineInput} (hline : s.lineIn = e :: rest)
    (htime : e.time ≤ s.now) (he : e.event = .reset) : resetNow s = true := by
  simp [resetNow, due, lineDueAt, hline, htime, he]

theorem due_eq_true_iff {s : State} {o : Option Nat} : due s o = true ↔ ∃ p, o = some p ∧ p ≤ s.now := by
  cases o <;> simp [due]

/-- The receiver's own steps and the edges of its line are made of parser symbols and updates of the front end, so what
both keep, they keep. -/
theorem receiver_keeps (P : State → Prop) (hfront : ∀ f s, P s → P (setFront f s))
    (hsymbol : ∀ y s, P s → P (onSymbol y s)) (s : State) (h : P s) :
    P (sampleStep s) ∧ P (breakStep s) ∧ ∀ level, P (dmxEdge level s) := by
  have hbreak : ∀ tf s, P s → P (breakQualified tf s) := fun tf s h => hsymbol _ _ (hfront _ _ h)
  have hends : ∀ s, P s → P (runEnds s) := by
    intro s h
    unfold runEnds
    split
    · exact h
    · exact hsymbol _ _ (hfront _ _ h)
    · split
      · exact hsymbol _ _ (hfront _ _ (hbreak _ _ h))
      · dsimp only
        split
        · exact hsymbol _ _ (hfront _ _ h)
        · exact hfront _ _ h
  refine ⟨?_, ?_, fun level => ?_⟩
  · unfold sampleStep
    split
    · unfold takeSample
      dsimp only
      (repeat' split)
      · exact hfront _ _ h
      · exact hfront _ _ h
      · exact hsymbol _ _ (hfront _ _ h)
      · exact hfront _ _ h
      · exact hsymbol _ _ (hfront _ _ h)
    · exact h
  · unfold breakStep
    split
    · exact hbreak _ _ h
    · exact h
    · exact h
  · unfold dmxEdge
    (repeat' split)
    · exact h
    · exact hfront _ _ h
    · exact hfront _ _ (hsymbol _ _ h)
    · exact hends _ (hfront _ _ h)

/-- What a parser symbol can do: the cells of R180 that move it. -/
inductive ParserMove (s : State) : State → Prop where
  | stay : ParserMove s s
  | goto {st : RxState} (hon : s.fr.rx ≠ .off) (hst : st = .inBreak ∨ st = .slots) : ParserMove s (rxGoto st s)
  | drop {st : RxState} (hon : s.fr.rx ≠ .off) (hst : st = .inBreak ∨ st = .discard) : ParserMove s (rxDrop st s)
  | commit (hrx : s.fr.rx = .slots) : ParserMove s (rxCommit s)
  | rise {t : Nat} (hrx : s.fr.rx = .inBreak) : ParserMove s { s with fr := { s.fr with rx := .mab, rxMarkStart := t } }
  | mabEnd (hrx : s.fr.rx = .mab) : ParserMove s { s with fr := { s.fr with rx := .startCode } }
  | slot {b : Byte} (hrx : s.fr.rx = .slots) (hlen : s.fr.rxBuf.length < 512) :
      ParserMove s { s with fr := { s.fr with rx := .slots, rxBuf := s.fr.rxBuf ++ [b] } }

theorem onSymbol_move (y : Symbol) (s : State) : ParserMove s (onSymbol y s) := by
  cases y with
  | brk =>
    simp only [onSymbol, onBreak]
    cases hrx : s.fr.rx with
    | off | inBreak | mab => exact .stay
    | waitBreak | discard => exact .goto (by simp [hrx]) (.inl rfl)
    | startCode => exact .drop (by simp [hrx]) (.inl rfl)
    | slots =>
      dsimp only
      split
      · exact .commit hrx
      · exact .drop (by simp [hrx]) (.inl rfl)
  | rise t =>
    simp only [onSymbol, onRise]
    cases hrx : s.fr.rx with
    | inBreak => exact .rise hrx
    | off | waitBreak | mab | startCode | slots | discard => exact .stay
  | byte b =>
    simp only [onSymbol, onByte]
    cases hrx : s.fr.rx with
    | startCode =>
      dsimp only
      split
      · exact .goto (by simp [hrx]) (.inr rfl)
      · exact .drop (by simp [hrx]) (.inr rfl)
    | slots =>
      dsimp only
      split
      · exact .slot hrx ‹_›
      · exact .drop (by simp [hrx]) (.inr rfl)
    | off | waitBreak | inBreak | mab | discard => exact .stay
  | framingError =>
    simp only [onSymbol, onFramingError]
    cases hrx : s.fr.rx with
    | startCode | slots => exact .drop (by simp [hrx]) (.inr rfl)
    | off | waitBreak | inBreak | mab | discard => exact .stay
  | mabEnd t =>
    simp only [onSymbol, onMabEnd]
    cases hrx : s.fr.rx with
    | mab =>
      dsimp only
      split
      · exact .drop (by simp [hrx]) (.inr rfl)
      · exact .mabEnd hrx
    | off | waitBreak | inBreak | startCode | slots | discard => exact .stay

/-- The parser is switched off and on by the mode alone (R170). -/
theorem ParserMove.off_iff {s t : State} (h : ParserMove s t) : t.fr.rx = .off ↔ s.fr.rx = .off := by
  cases h with
  | stay => rfl
  | goto hon hst | drop hon hst => rcases hst with rfl | rfl <;> simp [hon]
  | commit hrx | rise hrx | mabEnd hrx | slot hrx => simp [hrx]

/-! ## What the engine's step and a chain byte can do -/

/-- The engine's own step (R204, R208): the write is complete, or the window closes on a retry or on the end. -/
inductive EngineMove (s : State) : State → Prop where
  | rest : EngineMove s s
  | written (hsent : s.ch.state = .sent) : EngineMove s (writeDone s)
  | retry (hawaiting : s.ch.state = .awaitingResponse) (hretry : s.ch.attempt < s.ch.retries) :
      EngineMove s (retryRequest s)
  | ended {st : ReqState} (hawaiting : s.ch.state = .awaitingResponse) (hended : outstanding st = false) :
      EngineMove s (endRequest st s)

theorem chainStep_move (s : State) : EngineMove s (chainStep s) := by
  unfold chainStep
  cases hstate : s.ch.state with
  | sent => exact .written hstate
  | awaitingResponse =>
    dsimp only
    unfold deadlineStep
    (repeat' split)
    · exact .ended hstate rfl
    · exact .retry hstate ‹_›
    · exact .ended hstate rfl
  | idle | completed | timedOut | checksumError | addressMismatch => exact .rest

theorem windowOpen_iff {s : State} : windowOpen s = true ↔
    s.ch.state = .awaitingResponse ∧ s.now ≤ s.ch.deadline ∧ frameComplete s.ch.rx = false := by
  simp [windowOpen, and_assoc]

/-- A byte on the chain line (R205, R206): not taken, taken, or taken as the last one of the frame. -/
inductive ByteMove (b : Byte) (s : State) : State → Prop where
  | left (unread : List Byte) : ByteMove b s { s with chp := { s.chp with unread := unread } }
  | taken (hopen : windowOpen s = true) (hmore : frameComplete (s.ch.rx ++ [b]) = false) :
      ByteMove b s { s with ch := { s.ch with rx := s.ch.rx ++ [b] } }
  | completed (hopen : windowOpen s = true) (hcomplete : frameComplete (s.ch.rx ++ [b]) = true) :
      ByteMove b s (requestEnded (validateFrame { s with ch := { s.ch with rx := s.ch.rx ++ [b] } }))

theorem chainByteArrives_move (b : Byte) (s : State) : ByteMove b s (chainByteArrives b s) := by
  unfold chainByteArrives takeByte
  dsimp only
  (repeat' split)
  · exact .left s.chp.unread
  · exact .completed ‹_› ‹_›
  · exact .taken ‹_› (Bool.eq_false_iff.mpr ‹_›)
  · exact .left _

end Sys2Proof.Machine
end

section
/-! PROOFS. The framer's invariant: what every operation on the framer keeps of it, and so every step
(10_state.md R33 to R40, 40_dmx_framer.md, 41_dmx_receiver.md section 2). -/

namespace Sys2Proof.Machine

/-- The invariant speaks of the framer and of `now` only. -/
theorem FramerInv.congr {s t : State} (h : FramerInv s) (hfr : t.fr = s.fr) (hnow : t.now = s.now) : FramerInv t := by
  obtain ⟨cfg, now, fr, ch, chp, port, lineIn⟩ := s
  obtain ⟨cfg', now', fr', ch', chp', port', lineIn'⟩ := t
  dsimp only at hfr hnow
  subst hfr hnow
  exact { h with }

theorem FramerInv.sameBlock {s t : State} (h : FramerInv s) (hst : SameBlock s t) : FramerInv t :=
  h.congr hst.fr hst.now

/-! ## The receiver -/

theorem setFront_framerInv {s : State} (h : FramerInv s) (f : FrontEnd) : FramerInv (setFront f s) := { h with }

theorem FramerInv.parserMove {s t : State} (h : FramerInv s) (hmove : ParserMove s t) : FramerInv t := by
  have hoff := hmove.off_iff.trans h.parser_off
  cases hmove with
  | stay => exact h
  | goto | drop => exact { h with parser_off := hoff, buffer := Nat.zero_le _, buffer_empty := fun _ => rfl }
  | commit hrx =>
    have hlen : 1 + s.fr.rxBuf.length ≤ nSlots + 1 := by have := h.buffer; simp only [nSlots]; omega
    exact { h with
      slots_wf := commitSlots_wf _ _ _ h.slots_wf le_rfl hlen
      parser_off := hoff, buffer := Nat.zero_le _, buffer_empty := fun _ => rfl }
  | rise hrx | mabEnd hrx =>
    exact { h with parser_off := hoff, buffer_empty := fun _ => h.buffer_empty (by simp [hrx]) }
  | slot hrx hlen =>
    exact { h with parser_off := hoff, buffer := by simp; omega, buffer_empty := fun hne => absurd rfl hne }

theorem onSymbol_framerInv {s : State} (h : FramerInv s) (y : Symbol) : FramerInv (onSymbol y s) :=
  h.parserMove (onSymbol_move y s)

/-- The receiver's own steps and the edges of its line. -/
theorem FramerInv.receiver {s : State} (h : FramerInv s) :
    FramerInv (sampleStep s) ∧ FramerInv (breakStep s) ∧ ∀ level, FramerInv (dmxEdge level s) :=
  receiver_keeps FramerInv (fun f _ hx => setFront_framerInv hx f) (fun y _ hx => onSymbol_framerInv hx y) s h

/-! ## The sequencer and the framer commands -/

/-- What a segment of the sequencer must be started with (R101, R140 to R142). -/
def segmentOk (level : Level) (dur : Nat) : TxState → Prop
  | .idle => False
  | .brk => level = .space
  | .mab => level = .mark
  | .byte k => k ≤ 512 ∧ level = .space ∧ dur = tByte
  | .gap k => k ≤ 511 ∧ level = .mark

/-- Any segment started as it must be, in controller mode and for an agent that waits, gives the invariant: what it was
of the sequencer before does not count. -/
theorem startSegment_framerInv {s : State} (h : FramerInv s) (hmode : s.fr.mode = .controller) {seg : TxState}
    {level : Level} {dur : Nat} {a : Agent} {snap : List Byte} (hseg : segmentOk level dur seg)
    (hsnap : snap.length = 513 ∧ snap.head? = some startCode) :
    FramerInv (startSegment seg level dur { s with fr := { s.fr with txSnap := snap, txIssuer := some a } }) := by
  have hlevel : level =
      lineLevel s.now { s.fr with tx := seg, txSegEnd := s.now + dur, dmxTx := level, txSnap := snap } := by
    cases seg with
    | byte k =>
      obtain ⟨-, rfl, rfl⟩ := hseg
      simp [lineLevel, byteLevel]
    | idle | brk | mab | gap => rfl
  exact { h with
    sending := fun _ => hmode
    waiting := ⟨fun hk => by cases hk; exact hseg.elim, fun hi => nomatch hi⟩
    snapshot := hsnap
    byte_position := fun k hk => by cases hk; exact hseg.1
    gap_position := fun k hk => by cases hk; exact hseg.1
    segment := fun _ => Nat.le_add_right _ _
    byte_time := fun k hk => by cases hk; exact (hseg.2.2 ▸ le_rfl)
    idle_level := fun hk => by cases hk; exact hseg.elim
    break_level := fun hk => by cases hk; exact hseg
    mab_level := fun hk => by cases hk; exact hseg
    gap_level := fun k hk => by cases hk; exact hseg.2
    byte_level := hlevel }

theorem transmitDone_framerInv {s : State} (h : FramerInv s) : FramerInv (transmitDone s) := by
  have hidle : FramerInv { s with fr := { s.fr with dmxTx := .mark, tx := .idle, txIssuer := none } } :=
    { h with
      sending := fun hn => absurd rfl hn
      waiting := by simp
      byte_position := fun _ hk => nomatch hk
      gap_position := fun _ hk => nomatch hk
      segment := fun hn => absurd rfl hn
      byte_time := fun _ hk => nomatch hk
      idle_level := fun _ => rfl
      break_level := fun hk => nomatch hk
      mab_level := fun _ => rfl
      gap_level := fun _ _ => rfl
      byte_level := rfl }
  exact hidle.congr (respondTo_fr _ _ _) (respondTo_now _ _ _)

theorem txStep_of_brk {s : State} (h : s.fr.tx = .brk) : txStep s = startSegment .mab .mark s.cfg.txMabUs s := by
  simp [txStep, h]

theorem txStep_of_mab {s : State} (h : s.fr.tx = .mab) : txStep s = startSegment (.byte 0) .space tByte s := by
  simp only [txStep, h]; rfl

theorem txStep_of_byte {s : State} {k : Nat} (h : s.fr.tx = .byte k) (hk : k < 512) (hgap : s.cfg.txInterslotUs = 0) :
    txStep s = startSegment (.byte (k + 1)) .space tByte s := by
  simp only [txStep, h, hk, hgap, if_true]; rfl

theorem txStep_of_byte_gap {s : State} {k : Nat} (h : s.fr.tx = .byte k) (hk : k < 512) (hgap : s.cfg.txInterslotUs ≠ 0) :
    txStep s = startSegment (.gap k) .mark s.cfg.txInterslotUs s := by
  simp only [txStep, h, hk, hgap, if_true, if_false]

theorem txStep_of_gap {s : State} {k : Nat} (h : s.fr.tx = .gap k) :
    txStep s = startSegment (.byte (k + 1)) .space tByte s := by
  simp only [txStep, h]; rfl

theorem txStep_of_last {s : State} (h : s.fr.tx = .byte 512) : txStep s = transmitDone s := by
  simp [txStep, h]

/-- The sequencer's step at the end of a segment: the next segment, or the end of the frame. -/
theorem txStep_framerInv {s : State} (h : FramerInv s) : FramerInv (txStep s) := by
  by_cases hidle : s.fr.tx = .idle
  · rw [txStep, hidle]; exact h
  have hmode := h.sending hidle
  obtain ⟨a, ha⟩ : ∃ a, s.fr.txIssuer = some a := Option.ne_none_iff_exists'.mp fun hn => hidle (h.waiting.mpr hn)
  have hnext : ∀ {seg level dur}, segmentOk level dur seg → FramerInv (startSegment seg level dur s) :=
    fun hseg => (startSegment_framerInv h hmode hseg h.snapshot).congr (by simp [ha]; rfl) rfl
  cases htx : s.fr.tx with
  | idle => exact absurd htx hidle
  | brk => rw [txStep_of_brk htx]; exact hnext rfl
  | mab => rw [txStep_of_mab htx]; exact hnext ⟨by omega, rfl, rfl⟩
  | byte k =>
    rcases Nat.lt_or_eq_of_le (h.byte_position k htx) with hk | rfl
    · by_cases hgap : s.cfg.txInterslotUs = 0
      · rw [txStep_of_byte htx hk hgap]; exact hnext ⟨by omega, rfl, rfl⟩
      · rw [txStep_of_byte_gap htx hk hgap]; exact hnext ⟨by omega, rfl⟩
    · rw [txStep_of_last htx]; exact transmitDone_framerInv h
  | gap k =>
    have hk := h.gap_position k htx
    rw [txStep_of_gap htx]
    exact hnext ⟨by omega, rfl, rfl⟩

theorem enterReceiver_framerInv {s : State} (h : FramerInv s) (hidle : s.fr.tx = .idle) : FramerInv (enterReceiver s) :=
  { h with
    driver := rfl
    parser_off := by simp
    sending := fun hn => absurd hidle hn
    buffer := Nat.zero_le _
    buffer_empty := fun _ => rfl }

theorem enterController_framerInv {s : State} (h : FramerInv s) (hidle : s.fr.tx = .idle) :
    FramerInv (enterController s) :=
  { h with
    driver := rfl
    parser_off := by simp
    sending := fun _ => rfl
    idle_level := fun _ => rfl
    break_level := fun hk => absurd (hidle.symm.trans hk) (by decide)
    mab_level := fun _ => rfl
    gap_level := fun _ _ => rfl
    byte_level := by simp [lineLevel, hidle]
    buffer := Nat.zero_le _
    buffer_empty := fun _ => rfl }

theorem slotImage_length (m : Memory) : (slotImage m).length = 512 := by simp [slotImage]

theorem FramerInv.setSlots {s : State} (h : FramerInv s) {m : Memory} (hm : m.wf = true) :
    FramerInv { s with fr := { s.fr with slots := m } } := { h with slots_wf := hm }

/-- What a command does to the framer keeps its invariant. -/
theorem FramerInv.command {s t : State} {i : Instr} (h : FramerInv s) (heffect : CommandEffect s i t) : FramerInv t := by
  cases heffect with
  | store _ hlegal => exact (h.setSlots (slotWrite_wf h.slots_wf hlegal _)).congr rfl rfl
  | transmit _ hmode _ =>
    exact startSegment_framerInv h hmode rfl ⟨by simp [slotImage_length], rfl⟩
  | toReceiver _ hidle => exact (enterReceiver_framerInv h hidle).congr rfl rfl
  | toController _ hidle => exact (enterController_framerInv h hidle).congr rfl rfl
  | answer | invalidate | call | enumerate | wire => exact h.congr rfl rfl

/-! ## Time and reset -/

theorem txDueAt_of_sending {s : State} (h : s.fr.tx ≠ .idle) : txDueAt s = some s.fr.txSegEnd := by
  unfold txDueAt
  cases htx : s.fr.tx with
  | idle => exact absurd htx h
  | brk | mab | byte | gap => rfl

theorem txDueAt_of_idle {s : State} (h : s.fr.tx = .idle) : txDueAt s = none := by simp [txDueAt, h]

theorem txDueAt_eq_some {s : State} {p : Nat} (h : txDueAt s = some p) : s.fr.tx ≠ .idle ∧ p = s.fr.txSegEnd := by
  have hne : s.fr.tx ≠ .idle := fun hi => by rw [txDueAt_of_idle hi] at h; cases h
  rw [txDueAt_of_sending hne] at h
  exact ⟨hne, (Option.some.inj h).symm⟩

/-- Outside a byte the line keeps the level that was driven last (R143). -/
theorem lineLevel_of_not_byte {f : Framer} (h : ∀ k, f.tx ≠ .byte k) (now : Nat) : lineLevel now f = f.dmxTx := by
  unfold lineLevel
  cases htx : f.tx with
  | byte k => exact absurd htx (h k)
  | idle | brk | mab | gap => rfl

/-- The level of an instant does not depend on the one before. -/
theorem lineLevel_lineLevel (now : Nat) (f : Framer) :
    lineLevel now { f with dmxTx := lineLevel now f } = lineLevel now f := by
  unfold lineLevel
  cases f.tx <;> rfl

/-- Time that does not pass the end of the segment (R260). -/
theorem advanceTime_framerInv {s : State} (h : FramerInv s) (hahead : ∀ p ∈ pending s, s.now < p) :
    FramerInv (advanceTime s) := by
  have hlater : s.now < (advanceTime s).now := lt_advanceTime hahead
  have hlevel : (∀ k, s.fr.tx ≠ .byte k) → (advanceTime s).fr.dmxTx = s.fr.dmxTx :=
    fun hk => lineLevel_of_not_byte hk _
  have hseg : s.fr.tx ≠ .idle → (advanceTime s).now ≤ s.fr.txSegEnd := fun hn =>
    advanceTime_le_pending (mem_pending.mpr (.inr (.inr (.inr (.inl (txDueAt_of_sending hn))))))
  exact { h with
    segment := hseg
    byte_time := fun k hk => (h.byte_time k hk).trans (by omega)
    idle_level := fun hk => (hlevel fun _ hb => nomatch hk.symm.trans hb).trans (h.idle_level hk)
    break_level := fun hk => (hlevel fun _ hb => nomatch hk.symm.trans hb).trans (h.break_level hk)
    mab_level := fun hk => (hlevel fun _ hb => nomatch hk.symm.trans hb).trans (h.mab_level hk)
    gap_level := fun k hk => (hlevel fun _ hb => nomatch hk.symm.trans hb).trans (h.gap_level k hk)
    byte_level := (lineLevel_lineLevel _ s.fr).symm }

theorem resetBlock_framerInv (s : State) : FramerInv (resetBlock s) where
  slots_wf := rfl
  driver := rfl
  parser_off := ⟨fun _ => rfl, fun _ => rfl⟩
  sending := fun hn => absurd rfl hn
  waiting := ⟨fun _ => rfl, fun _ => rfl⟩
  snapshot := ⟨List.length_replicate, rfl⟩
  byte_position := fun _ hk => nomatch hk
  gap_position := fun _ hk => nomatch hk
  segment := fun hn => absurd rfl hn
  byte_time := fun _ hk => nomatch hk
  idle_level := fun _ => rfl
  break_level := fun hk => nomatch hk
  mab_level := fun hk => nomatch hk
  gap_level := fun _ hk => nomatch hk
  byte_level := rfl
  buffer := Nat.zero_le _
  buffer_empty := fun _ => rfl

/-- Every move keeps the invariant. -/
theorem Move.framerInv {s t : State} (hmove : Move s t) (h : FramerInv s) : FramerInv t := by
  have hwaited : FramerInv (hostWaited s) := h.sameBlock (hostWaited_sameBlock s)
  cases hmove with
  | command hfetch _ heffect => exact (h.sameBlock (fetch_sameBlock hfetch)).command heffect
  | illegal hfetch => exact (h.sameBlock (fetch_sameBlock hfetch)).congr rfl rfl
  | @line e rest _ _ =>
    have htaken : FramerInv (lineTaken s rest) := h.sameBlock (lineTaken_sameBlock s rest)
    cases e.event with
    | dmxEdge level => exact htaken.receiver.2.2 level
    | chainByte b =>
      obtain ⟨-, hnow, hfr, -⟩ := chainByteArrives_frame b (lineTaken s rest)
      exact htaken.congr hfr hnow
    | reset => exact resetBlock_framerInv _
    | pass => exact htaken
  | engine =>
    obtain ⟨-, hnow, hfr, -⟩ := chainStep_frame (hostWaited s)
    exact hwaited.congr hfr hnow
  | sequencer => exact txStep_framerInv hwaited
  | sample => exact hwaited.receiver.1
  | breakRun => exact hwaited.receiver.2.1
  | time hahead => exact advanceTime_framerInv h hahead

end Sys2Proof.Machine

namespace Sys2Proof.Proofs

open Sys2Proof.Machine

/-- Settles O55, move by move. -/
theorem framerInvariantIsKept : Obligations.FramerInvariantIsKept :=
  fun _ _ hinv hstep => (step_move hstep).framerInv hinv

end Sys2Proof.Proofs
end

section
/-! PROOFS. The receive front end's invariant (41_dmx_receiver.md sections 1 and 2): what a symbol does to the parser's
state, what each move of the front end keeps, and so every step. -/

namespace Sys2Proof.Machine

/-! ## What a symbol does to the parser's state -/

theorem onSymbol_brk_rx {s : State} (hoff : s.fr.rx ≠ .off) (hmab : s.fr.rx ≠ .mab) :
    (onSymbol .brk s).fr.rx = .inBreak := by
  simp only [onSymbol, onBreak]
  cases hrx : s.fr.rx with
  | off => exact absurd hrx hoff
  | mab => exact absurd hrx hmab
  | inBreak => exact hrx
  | waitBreak | startCode | discard => rfl
  | slots => dsimp only; split <;> rfl

theorem onSymbol_rise_rx {s : State} (hrx : s.fr.rx = .inBreak) (t : Nat) : (onSymbol (.rise t) s).fr.rx = .mab := by
  simp [onSymbol, onRise, hrx]

theorem onSymbol_mabEnd_rx (t : Nat) (s : State) : (onSymbol (.mabEnd t) s).fr.rx ≠ .mab ∧
    ((onSymbol (.mabEnd t) s).fr.rx = .inBreak ↔ s.fr.rx = .inBreak) := by
  simp only [onSymbol, onMabEnd]
  cases hrx : s.fr.rx with
  | mab => dsimp only; split <;> simp
  | off | waitBreak | inBreak | startCode | slots | discard => simp [hrx]

/-- A byte, received or not, neither begins nor ends a break or a mark-after-break. -/
theorem onSymbol_data_rx {y : Symbol} (hy : (∃ b, y = .byte b) ∨ y = .framingError) (s : State) :
    ((onSymbol y s).fr.rx = .mab ↔ s.fr.rx = .mab) ∧ ((onSymbol y s).fr.rx = .inBreak ↔ s.fr.rx = .inBreak) := by
  obtain ⟨b, rfl⟩ | rfl := hy
  · simp only [onSymbol, onByte]
    cases hrx : s.fr.rx with
    | startCode => dsimp only; split <;> simp
    | slots => dsimp only; split <;> simp
    | off | waitBreak | inBreak | mab | discard => simp [hrx]
  · simp only [onSymbol, onFramingError]
    cases hrx : s.fr.rx with
    | startCode | slots => simp
    | off | waitBreak | inBreak | mab | discard => simp [hrx]

/-! ## The invariant as a relation of the fields it speaks of -/

/-- `ReceiverInv` of a state with the break threshold `minBreak`, the time `now`, the mode, the parser's state `rx` and
the front end `f`. -/
structure FrontOk (minBreak now : Nat) (mode : Mode) (rx : RxState) (f : FrontEnd) : Prop where
  rest : mode = .controller → f = frontRest f.level
  sampling : ∀ b, f.sampler = some b → b.bits.length ≤ 9 ∧ b.start ≤ now ∧ now ≤ sampleAt b
  low_run : ∀ tf d, f.run = .low tf d → f.level = .space ∧ tf ≤ now ∧ now ≤ tf + minBreak
  byte_before_run : ∀ tf d b, f.run = .low tf d → f.sampler = some b → b.start ≤ tf
  break_run : ∀ tf, f.run = .brk tf → f.level = .space ∧ f.sampler = none
  in_break : rx = .inBreak ↔ ∃ tf, f.run = .brk tf
  in_mab : rx = .mab → f.level = .mark ∧ f.run = .none ∧ f.sampler = none
  parser_off : rx = .off ↔ mode = .controller

theorem receiverInv_iff {s : State} :
    ReceiverInv s ↔ FrontOk s.cfg.rxBreakMinUs s.now s.fr.mode s.fr.rx s.fr.front :=
  ⟨fun h => { h with }, fun h => { h with }⟩

section

variable {minBreak now : Nat} {mode : Mode} {rx rx' : RxState} {f : FrontEnd}

theorem FrontOk.atRest (now : Nat) (level : Level) (h : rx ≠ .inBreak ∧ rx ≠ .mab) (hoff : rx = .off ↔ mode = .controller) :
    FrontOk minBreak now mode rx (frontRest level) where
  rest := fun _ => rfl
  sampling := fun _ hb => nomatch hb
  low_run := fun _ _ hr => nomatch hr
  byte_before_run := fun _ _ _ hr => nomatch hr
  break_run := fun _ hr => nomatch hr
  in_break := ⟨fun hb => absurd hb h.1, fun ⟨_, hr⟩ => nomatch hr⟩
  in_mab := fun hm => absurd hm h.2
  parser_off := hoff

/-- A falling edge (R160, R162, R164): the parser has left the mark-after-break. -/
theorem FrontOk.fall (h : FrontOk minBreak now .receiver rx f) (hbrk : rx' ≠ .inBreak) (hmab : rx' ≠ .mab)
    (hoff : rx' ≠ .off) : FrontOk minBreak now .receiver rx' (frontFall now f) := by
  have hstart : ∀ b, (frontFall now f).sampler = some b → b.bits.length ≤ 9 ∧ b.start ≤ now ∧ now ≤ sampleAt b := by
    intro b hb
    unfold frontFall at hb
    split at hb
    · exact h.sampling b hb
    · split at hb
      · cases hb
        simp [sampleAt]
      · exact h.sampling b hb
  have hrun : (frontFall now f).run = .low now false ∧ (frontFall now f).level = .space := by
    unfold frontFall
    (repeat' split) <;> exact ⟨rfl, rfl⟩
  exact {
    rest := fun hm => nomatch hm
    sampling := hstart
    low_run := fun tf d hr => by
      cases hrun.1.symm.trans hr
      exact ⟨hrun.2, le_rfl, Nat.le_add_right _ _⟩
    byte_before_run := fun tf d b hr hb => by
      cases hrun.1.symm.trans hr
      exact (hstart b hb).2.1
    break_run := fun tf hr => nomatch hrun.1.symm.trans hr
    in_break := ⟨fun hb => absurd hb hbrk, fun ⟨_, hr⟩ => nomatch hrun.1.symm.trans hr⟩
    in_mab := fun hm => absurd hm hmab
    parser_off := ⟨fun ho => absurd ho hoff, fun hm => nomatch hm⟩ }

/-- The end of a run at a rising edge (R161, R173): in the mark-after-break no byte is in progress. -/
theorem FrontOk.riseEnd (h : FrontOk minBreak now .receiver rx f) {p : Option Sampler}
    (hp : ∀ b, p = some b → f.sampler = some b) (hbrk : rx' ≠ .inBreak) (hmab : rx' = .mab → p = none) (hoff : rx' ≠ .off) :
    FrontOk minBreak now .receiver rx' { f with level := .mark, run := .none, sampler := p } where
  rest := fun hm => nomatch hm
  sampling := fun b hb => h.sampling b (hp b hb)
  low_run := fun _ _ hr => nomatch hr
  byte_before_run := fun _ _ _ hr => nomatch hr
  break_run := fun _ hr => nomatch hr
  in_break := ⟨fun hb => absurd hb hbrk, fun ⟨_, hr⟩ => nomatch hr⟩
  in_mab := fun hm => ⟨rfl, rfl, hmab hm⟩
  parser_off := ⟨fun ho => absurd ho hoff, fun hm => nomatch hm⟩

/-- A run that is known to be a break (R161). -/
theorem FrontOk.qualified (now tf guard : Nat) :
    FrontOk minBreak now .receiver .inBreak { level := .space, run := .brk tf, sampler := none, guard := guard } where
  rest := fun hm => nomatch hm
  sampling := fun _ hb => nomatch hb
  low_run := fun _ _ hr => nomatch hr
  byte_before_run := fun _ _ _ hr => nomatch hr
  break_run := fun _ _ => ⟨rfl, rfl⟩
  in_break := ⟨fun _ => ⟨tf, rfl⟩, fun _ => rfl⟩
  in_mab := fun hm => nomatch hm
  parser_off := ⟨fun ho => (nomatch ho), fun hm => nomatch hm⟩

/-- A byte that ends, received or not (R162, R163). -/
theorem FrontOk.byteEnd (h : FrontOk minBreak now .receiver rx f) (guard : Nat)
    (hrx : (rx' = .mab ↔ rx = .mab) ∧ (rx' = .inBreak ↔ rx = .inBreak)) (hoff : rx' = .off ↔ rx = .off) :
    FrontOk minBreak now .receiver rx' { f with sampler := none, guard := guard } where
  rest := fun hm => nomatch hm
  sampling := fun _ hb => nomatch hb
  low_run := h.low_run
  byte_before_run := fun _ _ _ _ hb => nomatch hb
  break_run := fun tf hr => ⟨(h.break_run tf hr).1, rfl⟩
  in_break := hrx.2.trans h.in_break
  in_mab := fun hm => ⟨(h.in_mab (hrx.1.mp hm)).1, (h.in_mab (hrx.1.mp hm)).2.1, rfl⟩
  parser_off := hoff.trans h.parser_off

/-- One more sample of the byte in progress (R162). -/
theorem FrontOk.nextSample (h : FrontOk minBreak now .receiver rx f) {b : Sampler} (hb : f.sampler = some b)
    (hlen : b.bits.length < 9) (hdue : sampleAt b ≤ now) (v : Bool) :
    FrontOk minBreak now .receiver rx { f with sampler := some { b with bits := b.bits ++ [v] } } where
  rest := fun hm => nomatch hm
  sampling := fun b' hb' => by
    cases hb'
    have hs := h.sampling b hb
    simp only [sampleAt, tBit, List.length_append, List.length_singleton] at hs hdue ⊢
    omega
  low_run := h.low_run
  byte_before_run := fun tf d b' hr hb' => by
    cases hb'
    exact h.byte_before_run tf d b hr hb
  break_run := fun tf hr => nomatch hb.symm.trans (h.break_run tf hr).2
  in_break := h.in_break
  in_mab := fun hm => nomatch hb.symm.trans (h.in_mab hm).2.2
  parser_off := h.parser_off

/-- A byte whose run is still low waits for the end of that run (R163). -/
theorem FrontOk.deferred (h : FrontOk minBreak now .receiver rx f) {tf : Nat} {d : Bool} (hrun : f.run = .low tf d) :
    FrontOk minBreak now .receiver rx { f with sampler := none, run := .low tf true } where
  rest := fun hm => nomatch hm
  sampling := fun _ hb => nomatch hb
  low_run := fun tf' d' hr => by
    cases hr
    exact h.low_run tf d hrun
  byte_before_run := fun _ _ _ _ hb => nomatch hb
  break_run := fun _ hr => nomatch hr
  in_break := h.in_break.trans ⟨fun ⟨_, hr⟩ => (nomatch hrun.symm.trans hr), fun ⟨_, hr⟩ => nomatch hr⟩
  in_mab := fun hm => nomatch hrun.symm.trans (h.in_mab hm).2.1
  parser_off := h.parser_off

/-- The line's level in controller mode, where the front end rests (R160). -/
theorem FrontOk.restLevel (h : FrontOk minBreak now .controller rx f) (level : Level) :
    FrontOk minBreak now .controller rx { f with level := level } := by
  have hf := h.rest rfl
  have hoff : rx = .off := h.parser_off.mpr rfl
  rw [hf]
  exact .atRest now level (by simp [hoff]) h.parser_off

/-- Time that passes neither the next sample nor the break threshold (R260). -/
theorem FrontOk.later (h : FrontOk minBreak now mode rx f) {now' : Nat} (hlater : now ≤ now')
    (hsample : mode = .receiver → ∀ b, f.sampler = some b → now' ≤ sampleAt b)
    (hbreak : mode = .receiver → ∀ tf d, f.run = .low tf d → now' ≤ tf + minBreak) : FrontOk minBreak now' mode rx f := by
  have hon : ¬ (f.sampler = none ∧ f.run = .none) → mode = .receiver := by
    intro hne
    cases hm : mode with
    | receiver => rfl
    | controller => exact absurd (by rw [h.rest hm]; exact ⟨rfl, rfl⟩) hne
  exact { h with
    sampling := fun b hb => by
      obtain ⟨hlen, hstart, -⟩ := h.sampling b hb
      exact ⟨hlen, hstart.trans hlater, hsample (hon (by simp [hb])) b hb⟩
    low_run := fun tf d hr => by
      obtain ⟨hlevel, hstart, -⟩ := h.low_run tf d hr
      exact ⟨hlevel, hstart.trans hlater, hbreak (hon (by simp [hr])) tf d hr⟩ }

/-- At its threshold a run has outlasted every byte but the one that began with it: the threshold is longer than the time
to a byte's last sample (R161, R162). -/
theorem FrontOk.dropSampler_of_break (h : FrontOk minBreak now mode rx f) (hmin : 45 ≤ minBreak) {tf : Nat} {d : Bool}
    (hrun : f.run = .low tf d) (hnow : tf + minBreak ≤ now) : dropSampler tf f.sampler = none := by
  cases hb : f.sampler with
  | none => rfl
  | some b =>
    have hbefore := h.byte_before_run tf d b hrun hb
    obtain ⟨hlen, -, hnext⟩ := h.sampling b hb
    simp only [sampleAt, tBit] at hnext
    simp only [dropSampler, ite_eq_left_iff]
    omega

end

/-! ## Every step keeps it -/

theorem ReceiverInv.congr {s t : State} (h : ReceiverInv s) (hcfg : t.cfg = s.cfg) (hnow : t.now = s.now)
    (hmode : t.fr.mode = s.fr.mode) (hrx : t.fr.rx = s.fr.rx) (hfront : t.fr.front = s.fr.front) : ReceiverInv t := by
  rw [receiverInv_iff] at h ⊢
  rwa [hcfg, hnow, hmode, hrx, hfront]

theorem ReceiverInv.sameBlock {s t : State} (h : ReceiverInv s) (hst : SameBlock s t) : ReceiverInv t :=
  h.congr hst.cfg hst.now (by rw [hst.fr]) (by rw [hst.fr]) (by rw [hst.fr])

/-- The state after a symbol, the front end replaced before it. -/
theorem receiverInv_onSymbol_setFront {y : Symbol} {s : State} {f : FrontEnd} (hmode : s.fr.mode = .receiver)
    (h : FrontOk s.cfg.rxBreakMinUs s.now .receiver (onSymbol y s).fr.rx f) :
    ReceiverInv (onSymbol y (setFront f s)) := by
  obtain ⟨hcfg, hnow, -, -, -, -, -, hm, -⟩ := onSymbol_frame y s
  rw [receiverInv_iff, onSymbol_setFront]
  simpa [hcfg, hnow, hm, hmode] using h

theorem onSymbol_off_iff (y : Symbol) (s : State) : (onSymbol y s).fr.rx = .off ↔ s.fr.rx = .off :=
  (onSymbol_move y s).off_iff

theorem ReceiverInv.not_off {s : State} (h : ReceiverInv s) (hmode : s.fr.mode = .receiver) : s.fr.rx ≠ .off :=
  fun hoff => nomatch hmode.symm.trans (h.parser_off.mp hoff)

/-- A low run that is not a break is neither in a break nor in a mark-after-break. -/
theorem ReceiverInv.low_rx {s : State} (h : ReceiverInv s) {tf : Nat} {d : Bool} (hrun : s.fr.front.run = .low tf d) :
    s.fr.rx ≠ .inBreak ∧ s.fr.rx ≠ .mab := by
  refine ⟨fun hb => ?_, fun hm => nomatch hrun.symm.trans (h.in_mab hm).2.1⟩
  obtain ⟨_, hr⟩ := h.in_break.mp hb
  cases hrun.symm.trans hr

/-! ## The front end's own steps -/

/-- The front end after a rising edge, the run aside: no low run. -/
def risen (s : State) : FrontEnd := { s.fr.front with level := .mark, run := .none }

section

variable {s : State} {tf : Nat} {d : Bool}

theorem dmxEdge_same {level : Level} (h : s.fr.front.level = level) : dmxEdge level s = s := by
  simp [dmxEdge, h]

theorem dmxEdge_controller {level : Level} (h : s.fr.front.level ≠ level) (hmode : s.fr.mode = .controller) :
    dmxEdge level s = setFront { s.fr.front with level := level } s := by
  simp [dmxEdge, h, hmode]

theorem dmxEdge_fall (h : s.fr.front.level = .mark) (hmode : s.fr.mode = .receiver) :
    dmxEdge .space s = onSymbol (.mabEnd s.now) (setFront (frontFall s.now s.fr.front) s) := by
  rw [onSymbol_setFront]
  simp [dmxEdge, h, hmode]

theorem dmxEdge_rise (h : s.fr.front.level = .space) (hmode : s.fr.mode = .receiver) :
    dmxEdge .mark s = runEnds (setFront { s.fr.front with level := .mark } s) := by
  simp [dmxEdge, h, hmode]

theorem runEnds_of_none (hrun : s.fr.front.run = .none) :
    runEnds (setFront { s.fr.front with level := .mark } s) = setFront (risen s) s := by
  simp [runEnds, risen, hrun]

theorem runEnds_of_brk (hrun : s.fr.front.run = .brk tf) :
    runEnds (setFront { s.fr.front with level := .mark } s) = onSymbol (.rise s.now) (setFront (risen s) s) := by
  simp [runEnds, risen, hrun]

theorem runEnds_of_short (hrun : s.fr.front.run = .low tf false) (hshort : s.now - tf < s.cfg.rxBreakMinUs) :
    runEnds (setFront { s.fr.front with level := .mark } s) = setFront (risen s) s := by
  simp [runEnds, risen, hrun, Nat.not_le.mpr hshort]

theorem runEnds_of_deferred (hrun : s.fr.front.run = .low tf true) (hshort : s.now - tf < s.cfg.rxBreakMinUs) :
    runEnds (setFront { s.fr.front with level := .mark } s) = onSymbol .framingError (setFront (risen s) s) := by
  simp [runEnds, risen, hrun, Nat.not_le.mpr hshort]

theorem runEnds_of_long (hrun : s.fr.front.run = .low tf d) (hlong : s.cfg.rxBreakMinUs ≤ s.now - tf) :
    runEnds (setFront { s.fr.front with level := .mark } s) = onSymbol (.rise s.now) (onSymbol .brk
      (setFront { risen s with sampler := dropSampler tf s.fr.front.sampler } s)) := by
  simp [runEnds, risen, hrun, hlong, breakQualified, onSymbol_setFront]

/-- The break qualification step, at the threshold (R161). -/
theorem breakQualified_receiverInv (h : ReceiverInv s) (hmin : 45 ≤ s.cfg.rxBreakMinUs)
    (hmode : s.fr.mode = .receiver) (hrun : s.fr.front.run = .low tf d)
    (hnow : tf + s.cfg.rxBreakMinUs ≤ s.now) : ReceiverInv (breakQualified tf s) := by
  have hdrop := (receiverInv_iff.mp h).dropSampler_of_break hmin hrun hnow
  have hlevel := (h.low_run tf d hrun).1
  refine receiverInv_onSymbol_setFront hmode ?_
  rw [onSymbol_brk_rx (h.not_off hmode) (h.low_rx hrun).2, hdrop]
  simp only [hlevel]
  exact .qualified _ _ _

/-- A rising edge in receiver mode (R161, R163, R173), by the run it ends. -/
theorem runEnds_receiverInv (h : ReceiverInv s) (hmin : 45 ≤ s.cfg.rxBreakMinUs) (hmode : s.fr.mode = .receiver) :
    ReceiverInv (runEnds (setFront { s.fr.front with level := .mark } s)) := by
  have hf : FrontOk s.cfg.rxBreakMinUs s.now .receiver s.fr.rx s.fr.front := hmode ▸ receiverInv_iff.mp h
  have hoff := h.not_off hmode
  cases hrun : s.fr.front.run with
  | none =>
    have hbrk : s.fr.rx ≠ .inBreak := fun hb => by
      obtain ⟨_, hr⟩ := h.in_break.mp hb
      cases hrun.symm.trans hr
    rw [runEnds_of_none hrun, receiverInv_iff]
    exact hmode ▸ hf.riseEnd (fun _ hb => hb) hbrk (fun hm => (h.in_mab hm).2.2) hoff
  | brk tf =>
    rw [runEnds_of_brk hrun]
    refine receiverInv_onSymbol_setFront hmode ?_
    rw [onSymbol_rise_rx (h.in_break.mpr ⟨tf, hrun⟩)]
    exact hf.riseEnd (fun _ hb => hb) (by decide) (fun _ => (h.break_run tf hrun).2) (by decide)
  | low tf d =>
    obtain ⟨hnotbrk, hnotmab⟩ := h.low_rx hrun
    rcases Nat.lt_or_ge (s.now - tf) s.cfg.rxBreakMinUs with hshort | hlong
    · cases d with
      | false =>
        rw [runEnds_of_short hrun hshort, receiverInv_iff]
        exact hmode ▸ hf.riseEnd (fun _ hb => hb) hnotbrk (fun hm => absurd hm hnotmab) hoff
      | true =>
        rw [runEnds_of_deferred hrun hshort]
        have hrx := onSymbol_data_rx (.inr rfl) s
        exact receiverInv_onSymbol_setFront hmode (hf.riseEnd (fun _ hb => hb) (fun hb => hnotbrk (hrx.2.mp hb))
          (fun hm => absurd (hrx.1.mp hm) hnotmab) (fun ho => hoff ((onSymbol_off_iff _ _).mp ho)))
    · have hnow : tf + s.cfg.rxBreakMinUs ≤ s.now := by have := (h.low_run tf d hrun).2.1; omega
      rw [runEnds_of_long hrun hlong, hf.dropSampler_of_break hmin hrun hnow]
      have hbrk : (onSymbol .brk s).fr.rx = .inBreak := onSymbol_brk_rx hoff hnotmab
      obtain ⟨hcfg, htime, -, -, -, -, -, hm, -⟩ := onSymbol_frame .brk s
      rw [onSymbol_setFront, ← htime]
      refine receiverInv_onSymbol_setFront (hm.trans hmode) ?_
      rw [onSymbol_rise_rx hbrk, hcfg, htime]
      exact hf.riseEnd (fun _ hb => nomatch hb) (by decide) (fun _ => rfl) (by decide)

/-- An edge of the line (R160). -/
theorem dmxEdge_receiverInv (h : ReceiverInv s) (hmin : 45 ≤ s.cfg.rxBreakMinUs) (level : Level) :
    ReceiverInv (dmxEdge level s) := by
  by_cases hsame : s.fr.front.level = level
  · rw [dmxEdge_same hsame]; exact h
  cases hmode : s.fr.mode with
  | controller =>
    rw [dmxEdge_controller hsame hmode, receiverInv_iff]
    exact hmode ▸ (hmode ▸ receiverInv_iff.mp h : FrontOk _ _ .controller _ _).restLevel level
  | receiver =>
    cases level with
    | mark =>
      have hspace : s.fr.front.level = .space := by cases hl : s.fr.front.level <;> simp_all
      rw [dmxEdge_rise hspace hmode]
      exact runEnds_receiverInv h hmin hmode
    | space =>
      have hmark : s.fr.front.level = .mark := by cases hl : s.fr.front.level <;> simp_all
      rw [dmxEdge_fall hmark hmode]
      obtain ⟨hnotmab, hbrk⟩ := onSymbol_mabEnd_rx s.now s
      have hnotbrk : s.fr.rx ≠ .inBreak := fun hb => by
        obtain ⟨tf, hr⟩ := h.in_break.mp hb
        cases hmark.symm.trans (h.break_run tf hr).1
      exact receiverInv_onSymbol_setFront hmode ((hmode ▸ receiverInv_iff.mp h : FrontOk _ _ .receiver _ _).fall
        (fun hb => hnotbrk (hbrk.mp hb)) hnotmab (fun ho => h.not_off hmode ((onSymbol_off_iff _ _).mp ho)))

variable {b : Sampler}

theorem takeSample_glitch (hbits : b.bits = []) (hlevel : s.fr.front.level = .mark) :
    takeSample b s = setFront { s.fr.front with sampler := none, guard := 0 } s := by
  simp [takeSample, hbits, hlevel]

theorem takeSample_more (hlen : b.bits.length < 9) (hreal : b.bits ≠ [] ∨ s.fr.front.level = .space) :
    takeSample b s = setFront { s.fr.front with
      sampler := some { b with bits := b.bits ++ [decide (s.fr.front.level = .mark)] } } s := by
  have hno : ¬ (b.bits = [] ∧ decide (s.fr.front.level = .mark) = true) := by
    rintro ⟨hb, hl⟩
    rcases hreal with hne | hs
    · exact hne hb
    · simp [hs] at hl
  simp only [takeSample, if_neg hno, if_pos hlen]

theorem takeSample_byte (hlen : ¬ b.bits.length < 9) (hlevel : s.fr.front.level = .mark) :
    takeSample b s = onSymbol (.byte (sampledByte b.bits)) (setFront { s.fr.front with sampler := none } s) := by
  have hbits : b.bits ≠ [] := by rintro hb; simp [hb] at hlen
  simp [takeSample, hbits, hlen, hlevel]

theorem takeSample_deferred (hlen : ¬ b.bits.length < 9) (hlevel : s.fr.front.level = .space)
    (hlow : stillLow b.start s.fr.front.run = true) :
    takeSample b s = setFront { s.fr.front with sampler := none, run := .low b.start true } s := by
  simp [takeSample, hlen, hlevel, hlow]

theorem takeSample_error (hlen : ¬ b.bits.length < 9) (hlevel : s.fr.front.level = .space)
    (hlow : stillLow b.start s.fr.front.run = false) :
    takeSample b s = onSymbol .framingError (setFront { s.fr.front with sampler := none } s) := by
  simp [takeSample, hlen, hlevel, hlow]

/-- The run that began with the byte is still low and no break (R163). -/
theorem stillLow_iff {start : Nat} {run : LowRun} : stillLow start run = true ↔ ∃ d, run = .low start d := by
  cases run <;> simp [stillLow]

/-- A sample that is due (R162, R163). -/
theorem takeSample_receiverInv (h : ReceiverInv s) (hmode : s.fr.mode = .receiver) (hb : s.fr.front.sampler = some b)
    (hdue : sampleAt b ≤ s.now) : ReceiverInv (takeSample b s) := by
  have hf : FrontOk s.cfg.rxBreakMinUs s.now .receiver s.fr.rx s.fr.front := hmode ▸ receiverInv_iff.mp h
  have hended : ∀ {y}, ((∃ c, y = .byte c) ∨ y = .framingError) →
      ReceiverInv (onSymbol y (setFront { s.fr.front with sampler := none } s)) := fun hy =>
    receiverInv_onSymbol_setFront hmode (hf.byteEnd s.fr.front.guard (onSymbol_data_rx hy s) (onSymbol_off_iff _ s))
  rcases Nat.lt_or_ge b.bits.length 9 with hlen | hlen
  · by_cases hglitch : b.bits = [] ∧ s.fr.front.level = .mark
    · rw [takeSample_glitch hglitch.1 hglitch.2, receiverInv_iff]
      exact hmode ▸ hf.byteEnd 0 ⟨Iff.rfl, Iff.rfl⟩ Iff.rfl
    · have hreal : b.bits ≠ [] ∨ s.fr.front.level = .space := by
        cases hl : s.fr.front.level with
        | mark => exact .inl fun hbits => hglitch ⟨hbits, hl⟩
        | space => exact .inr rfl
      rw [takeSample_more hlen hreal, receiverInv_iff]
      exact hmode ▸ hf.nextSample hb hlen hdue _
  · cases hl : s.fr.front.level with
    | mark => rw [takeSample_byte (Nat.not_lt.mpr hlen) hl]; exact hended (.inl ⟨_, rfl⟩)
    | space =>
      cases hlow : stillLow b.start s.fr.front.run with
      | false => rw [takeSample_error (Nat.not_lt.mpr hlen) hl hlow]; exact hended (.inr rfl)
      | true =>
        obtain ⟨d, hrun⟩ := stillLow_iff.mp hlow
        rw [takeSample_deferred (Nat.not_lt.mpr hlen) hl hlow, receiverInv_iff]
        exact hmode ▸ hf.deferred hrun

end

theorem sampleDueAt_eq_some {s : State} {p : Nat} :
    sampleDueAt s = some p ↔ s.fr.mode = .receiver ∧ ∃ b, s.fr.front.sampler = some b ∧ p = sampleAt b := by
  unfold sampleDueAt
  cases s.fr.mode <;> cases s.fr.front.sampler <;> simp [eq_comm]

theorem breakDueAt_eq_some {s : State} {p : Nat} :
    breakDueAt s = some p ↔
      s.fr.mode = .receiver ∧ ∃ tf d, s.fr.front.run = .low tf d ∧ p = tf + s.cfg.rxBreakMinUs := by
  unfold breakDueAt
  cases s.fr.mode <;> cases s.fr.front.run <;> simp [eq_comm]

theorem sampleStep_of_sampler {s : State} {b : Sampler} (h : s.fr.front.sampler = some b) :
    sampleStep s = takeSample b s := by simp [sampleStep, h]

theorem breakStep_of_low {s : State} {tf : Nat} {d : Bool} (h : s.fr.front.run = .low tf d) :
    breakStep s = breakQualified tf s := by simp [breakStep, h]

/-! ## Every step -/

theorem ReceiverInv.command {s t : State} {i : Instr} (h : ReceiverInv s) (heffect : CommandEffect s i t) :
    ReceiverInv t := by
  cases heffect with
  | toReceiver => exact receiverInv_iff.mpr (.atRest s.now _ (by simp) (by simp))
  | toController => exact receiverInv_iff.mpr (.atRest s.now _ (by simp) (by simp))
  | answer | store | transmit | invalidate | call | enumerate | wire => exact h.congr rfl rfl rfl rfl rfl

theorem resetBlock_receiverInv (s : State) : ReceiverInv (resetBlock s) :=
  receiverInv_iff.mpr (.atRest _ _ ⟨fun h => (nomatch h), fun h => nomatch h⟩ ⟨fun _ => rfl, fun _ => rfl⟩)

theorem advanceTime_receiverInv {s : State} (h : ReceiverInv s) (hahead : ∀ p ∈ pending s, s.now < p) :
    ReceiverInv (advanceTime s) := by
  refine receiverInv_iff.mpr ((receiverInv_iff.mp h).later (lt_advanceTime hahead).le ?_ ?_)
  · intro hmode b hb
    exact advanceTime_le_pending (mem_pending.mpr (by simp [sampleDueAt_eq_some.mpr ⟨hmode, b, hb, rfl⟩]))
  · intro hmode tf d hrun
    exact advanceTime_le_pending (mem_pending.mpr (by simp [breakDueAt_eq_some.mpr ⟨hmode, tf, d, hrun, rfl⟩]))

theorem rxBreakMinUs_of_admissible {c : Config} (h : c.admissible = true) : 45 ≤ c.rxBreakMinUs := by
  simp only [Config.admissible, Bool.and_eq_true, decide_eq_true_eq] at h
  omega

/-- Every move keeps the invariant. -/
theorem Move.receiverInv {s t : State} (hmove : Move s t) (hadm : s.cfg.admissible = true) (h : ReceiverInv s) :
    ReceiverInv t := by
  have hmin := rxBreakMinUs_of_admissible hadm
  have hwaited : ReceiverInv (hostWaited s) := h.sameBlock (hostWaited_sameBlock s)
  cases hmove with
  | command hfetch _ heffect => exact (h.sameBlock (fetch_sameBlock hfetch)).command heffect
  | illegal hfetch => exact (h.sameBlock (fetch_sameBlock hfetch)).congr rfl rfl rfl rfl rfl
  | @line e rest _ _ =>
    have hsame := lineTaken_sameBlock s rest
    have htaken : ReceiverInv (lineTaken s rest) := h.sameBlock hsame
    cases e.event with
    | dmxEdge level => exact dmxEdge_receiverInv htaken (by rw [hsame.cfg]; exact hmin) level
    | chainByte b =>
      obtain ⟨hcfg, hnow, hfr, -⟩ := chainByteArrives_frame b (lineTaken s rest)
      exact htaken.congr hcfg hnow (by rw [lineEvent, hfr]) (by rw [lineEvent, hfr]) (by rw [lineEvent, hfr])
    | reset => exact resetBlock_receiverInv _
    | pass => exact htaken
  | engine =>
    obtain ⟨hcfg, hnow, hfr, -⟩ := chainStep_frame (hostWaited s)
    exact hwaited.congr hcfg hnow (by rw [hfr]) (by rw [hfr]) (by rw [hfr])
  | sequencer =>
    obtain ⟨hcfg, hnow, -, -, -, -, hfront, hrx, hmode⟩ := txStep_frame (hostWaited s)
    exact hwaited.congr hcfg hnow hmode hrx hfront
  | sample hdue =>
    obtain ⟨_, hp, hle⟩ := due_eq_true_iff.mp hdue
    obtain ⟨hmode, b, hb, rfl⟩ := sampleDueAt_eq_some.mp hp
    rw [sampleStep_of_sampler (by simpa using hb)]
    exact takeSample_receiverInv hwaited (by simpa using hmode) (by simpa using hb) (by simpa using hle)
  | breakRun hdue =>
    obtain ⟨_, hp, hle⟩ := due_eq_true_iff.mp hdue
    obtain ⟨hmode, tf, d, hrun, rfl⟩ := breakDueAt_eq_some.mp hp
    rw [breakStep_of_low (by simpa using hrun)]
    exact breakQualified_receiverInv hwaited (by simpa using hmin) (by simpa using hmode) (by simpa using hrun)
      (by simpa using hle)
  | time hahead => exact advanceTime_receiverInv h hahead

end Sys2Proof.Machine

namespace Sys2Proof.Proofs

open Sys2Proof.Machine

/-- Settles O56, move by move; the admissible break threshold outlasts the last sample of a byte. -/
theorem receiverInvariantIsKept : Obligations.ReceiverInvariantIsKept :=
  fun _ _ hadm hinv hstep => (step_move hstep).receiverInv hadm hinv

end Sys2Proof.Proofs
end

section
/-! PROOFS. The chain engine's invariant (10_state.md R41 to R52, 42_chain_transaction.md, 43_chain_registry.md): stale
counting, the received frame, the ways a request starts and ends, and so every step. -/

namespace Sys2Proof.Machine

/-! ## Stale counting (R240) -/

theorem timeoutRun_updateStale (s : State) (i j : Byte) (o : OutcomeCode) : timeoutRun (updateStale i o s) j =
    if i = j then if o = .timeout then min (timeoutRun s i + 1) s.cfg.staleThreshold else 0 else timeoutRun s j := by
  have hij : i.toNat = j.toNat ↔ i = j := BitVec.toNat_inj
  unfold updateStale
  dsimp only
  split <;> simp only [timeoutRun, Vector.getElem_set, hij]

theorem isStale_updateStale_eq (s : State) (i j : Byte) (o : OutcomeCode) : isStale (updateStale i o s) j =
    if i = j ∧ o = .timeout ∧ s.cfg.staleThreshold ≤ timeoutRun s i + 1 then true else isStale s j := by
  have hij : i.toNat = j.toNat ↔ i = j := BitVec.toNat_inj
  have hmin : ∀ n : Nat, min (n + 1) s.cfg.staleThreshold ≥ s.cfg.staleThreshold ↔ s.cfg.staleThreshold ≤ n + 1 := by omega
  by_cases ho : o = .timeout
  · by_cases hrun : s.cfg.staleThreshold ≤ timeoutRun s i + 1
    · simp [updateStale, ho, hrun, isStale, Vector.getElem_set, hij]
    · simp [updateStale, ho, hrun, hmin, isStale]
  · simp [updateStale, ho, isStale]

/-! ## What the registry and the outcome keep -/

/-- The clauses of `ChainInv` on what stays between requests: the registry, the runs and marks, the last outcome. -/
structure RecordsOk (s : State) : Prop where
  registry : unitsRising 0 s.cfg.enumN s.ch.registry = true
  run_bound : ∀ i, timeoutRun s i ≤ s.cfg.staleThreshold
  not_stale : ∀ i, isStale s i = false → timeoutRun s i < s.cfg.staleThreshold
  last_outcome : s.ch.lastOutcome = 0xFF#8 ∨ s.ch.lastOutcome.toNat ≤ 10

theorem ChainInv.records {s : State} (h : ChainInv s) : RecordsOk s := { h with }

theorem updateStale_recordsOk {s : State} (h : RecordsOk s) (hthreshold : 1 ≤ s.cfg.staleThreshold) (i : Byte)
    (o : OutcomeCode) : RecordsOk (updateStale i o s) where
  registry := by
    obtain ⟨runs, marks, hu⟩ := updateStale_frame i o s
    rw [hu]
    exact h.registry
  run_bound := fun j => by
    have hj := h.run_bound j
    rw [timeoutRun_updateStale, updateStale_cfg]
    (repeat' split) <;> omega
  not_stale := fun j hj => by
    rw [isStale_updateStale_eq] at hj
    rw [timeoutRun_updateStale, updateStale_cfg]
    split at hj
    · cases hj
    · have hfresh := h.not_stale j hj
      (repeat' split) <;> grind
  last_outcome := by
    obtain ⟨runs, marks, hu⟩ := updateStale_frame i o s
    rw [hu]
    exact h.last_outcome

theorem outcomeByte_le (o : OutcomeCode) : (outcomeByte o).toNat ≤ 10 := by cases o <;> decide

/-- A list of units stays rising under a higher bound, and takes one more unit above the old one (R232). -/
theorem unitsRising_mono {lo hi hi' : Nat} (hle : hi ≤ hi') {us : List ChainUnit} (h : unitsRising lo hi us = true) :
    unitsRising lo hi' us = true := by
  induction us generalizing lo with
  | nil => rfl
  | cons u us ih =>
    simp only [unitsRising, Bool.and_eq_true, decide_eq_true_eq] at h ⊢
    obtain ⟨⟨⟨hlo, hhi⟩, hversion⟩, hrest⟩ := h
    exact ⟨⟨⟨hlo, hhi.trans hle⟩, hversion⟩, ih hrest⟩

theorem unitsRising_append {us : List ChainUnit} {lo hi hi' : Nat} {u : ChainUnit} (hlo : lo < u.index.toNat)
    (hlast : hi < u.index.toNat) (hhi : u.index.toNat ≤ hi') (hversion : u.version = none) (h : unitsRising lo hi us = true) :
    unitsRising lo hi' (us ++ [u]) = true := by
  induction us generalizing lo with
  | nil => simp [unitsRising, hlo, hhi, hversion]
  | cons w us ih =>
    simp only [unitsRising, List.cons_append, Bool.and_eq_true, decide_eq_true_eq] at h ⊢
    obtain ⟨⟨⟨hw, hwhi⟩, hwversion⟩, hrest⟩ := h
    exact ⟨⟨⟨hw, by omega⟩, hwversion⟩, ih (by omega) hrest⟩

/-! ## The received frame (R205, R206) -/

theorem frameLen_le (rx : List Byte) : frameLen rx ≤ 255 := by
  have := (rx.getD 2 0x00#8).isLt
  simp only [frameLen]
  omega

theorem frameLen_append {rx : List Byte} (h : 3 ≤ rx.length) (b : Byte) : frameLen (rx ++ [b]) = frameLen rx := by
  simp [frameLen, List.getD_eq_getElem?_getD, List.getElem?_append_left (show 2 < rx.length by omega)]

theorem frameComplete_eq_true_iff {rx : List Byte} :
    frameComplete rx = true ↔ 3 ≤ rx.length ∧ rx.length = 4 + frameLen rx := by
  simp [frameComplete]

theorem frameComplete_of_incomplete {rx : List Byte} (h : rx.length < 3 ∨ rx.length < 4 + frameLen rx) :
    frameComplete rx = false := by
  rw [Bool.eq_false_iff, ne_eq, frameComplete_eq_true_iff]
  omega

/-- One byte more leaves an incomplete frame incomplete, or completes it: it cannot overshoot. -/
theorem incomplete_append {rx : List Byte} (h : rx.length < 3 ∨ rx.length < 4 + frameLen rx) (b : Byte)
    (hnot : frameComplete (rx ++ [b]) = false) :
    (rx ++ [b]).length < 3 ∨ (rx ++ [b]).length < 4 + frameLen (rx ++ [b]) := by
  rw [Bool.eq_false_iff, ne_eq, frameComplete_eq_true_iff] at hnot
  have hlen : (rx ++ [b]).length = rx.length + 1 := by simp
  by_cases h3 : 3 ≤ rx.length
  · have := frameLen_append h3 b
    omega
  · omega

theorem length_append_le {rx : List Byte} (h : rx.length < 3 ∨ rx.length < 4 + frameLen rx) (b : Byte) :
    (rx ++ [b]).length ≤ 259 := by
  have := frameLen_le rx
  simp only [List.length_append, List.length_singleton]
  omega

/-! ## The shapes the engine is in after a move -/

/-- No request is outstanding and the line is free (R190, R41). -/
structure Released (s : State) : Prop where
  ended : outstanding s.ch.state = false
  line : s.ch.txEn = false
  attempts : s.ch.attempt ≤ s.ch.retries ∧ s.ch.retries ≤ 1
  rx_length : s.ch.rx.length ≤ 259

/-- A free engine. -/
theorem ChainInv.of_free {s : State} (hrec : RecordsOk s) (hrel : Released s) (hop : s.ch.op = .none)
    (hissuer : s.ch.issuer = none) : ChainInv s :=
  have hsent : s.ch.state ≠ .sent := fun h => by simpa [h, outstanding] using hrel.ended
  have hawaiting : s.ch.state ≠ .awaitingResponse := fun h => by simpa [h, outstanding] using hrel.ended
  have hidle : ∀ {p : Prop}, s.ch.op = .enumerate → p := fun h => nomatch hop.symm.trans h
  { hrec, hrel with
    driver := by simp [hrel.line, hsent]
    busy := by simp [hop, hrel.ended]
    issuer := by simp [hop, hissuer]
    frame := fun h => nomatch hrel.ended.symm.trans h
    writing := fun h => absurd h hsent
    window := fun h => absurd h hawaiting
    incomplete := fun h => absurd h hawaiting
    rx_empty := fun h => absurd h hsent
    cursor := hidle
    found := hidle }

/-- An engine whose attempt has just started: the same for a call, a ping and a retry (R203). -/
theorem ChainInv.of_sent {s : State} (hrec : RecordsOk s) (hop : s.ch.op ≠ .none) (hissuer : s.ch.issuer ≠ none)
    (hstate : s.ch.state = .sent) (hline : s.ch.txEn = true) (hrx : s.ch.rx = []) (hstart : s.chp.writeStart = s.now)
    (hframe : ∃ code p, p.length ≤ 255 ∧ s.ch.req = build s.ch.index code p)
    (hattempts : s.ch.attempt ≤ s.ch.retries ∧ s.ch.retries ≤ 1)
    (hcursor : s.ch.op = .enumerate → 1 ≤ s.ch.enumCursor.toNat ∧ s.ch.enumCursor.toNat ≤ s.cfg.enumN ∧
      s.ch.index = s.ch.enumCursor ∧ s.ch.retries = 0)
    (hfound : s.ch.op = .enumerate → unitsRising 0 (s.ch.enumCursor.toNat - 1) s.ch.enumAcc = true) : ChainInv s :=
  { hrec with
    driver := by simp [hline, hstate]
    busy := by simp [hop, hstate, outstanding]
    issuer := by simp [hop, hissuer]
    frame := fun _ => hframe
    attempts := hattempts
    writing := fun _ => ⟨hstart.le, by rw [writeEnd, hstart]; exact Nat.le_add_right _ _⟩
    window := fun h => nomatch hstate.symm.trans h
    incomplete := fun h => nomatch hstate.symm.trans h
    rx_empty := fun _ => hrx
    rx_length := by simp [hrx]
    cursor := hcursor
    found := hfound }

/-- A request that has just ended, its command not yet completed. -/
structure RequestOver (s : State) : Prop extends RecordsOk s, Released s where
  issuer : s.ch.op = .none ↔ s.ch.issuer = none
  cursor : s.ch.op = .enumerate → 1 ≤ s.ch.enumCursor.toNat ∧ s.ch.enumCursor.toNat ≤ s.cfg.enumN
  found : s.ch.op = .enumerate → unitsRising 0 (s.ch.enumCursor.toNat - 1) s.ch.enumAcc = true

/-- The parameters' bounds the engine leans on (R8). -/
theorem chainBounds_of_admissible {c : Config} (h : c.admissible = true) :
    1 ≤ c.enumN ∧ c.enumN ≤ 255 ∧ c.retryCount ≤ 1 ∧ 1 ≤ c.staleThreshold := by
  simp only [Config.admissible, Bool.and_eq_true, decide_eq_true_eq] at h
  omega

/-- The end of a command (R209, R233). -/
theorem freeEngine_chainInv {s : State} (hrec : RecordsOk s) (hrel : Released s) (o : OutcomeCode) (a : Option Agent)
    (bytes : List Byte) : ChainInv (freeEngine o (respondTo a bytes s)) := by
  cases a <;> exact .of_free { hrec with last_outcome := .inr (outcomeByte_le o) } { hrel with } rfl rfl

theorem finishCall_chainInv {s : State} (h : RequestOver s) (hthreshold : 1 ≤ s.cfg.staleThreshold) :
    ChainInv (finishCall s) := by
  have hrec := updateStale_recordsOk h.toRecordsOk hthreshold s.ch.index (outcomeOfState s.ch.state)
  have hrel : Released (updateStale s.ch.index (outcomeOfState s.ch.state) s) := by
    obtain ⟨runs, marks, hu⟩ := updateStale_frame s.ch.index (outcomeOfState s.ch.state) s
    rw [hu]
    exact { h.toReleased with }
  exact freeEngine_chainInv hrec hrel _ _ _

/-- The walk's end: the units found are rising, so the new registry is (R233). -/
theorem finishEnumeration_chainInv {s : State} (hrec : RecordsOk s) (hrel : Released s)
    (hthreshold : 1 ≤ s.cfg.staleThreshold) (hacc : unitsRising 0 s.cfg.enumN s.ch.enumAcc = true) :
    ChainInv (finishEnumeration s) := by
  have hnew : RecordsOk { s with ch := { s.ch with
      registry := s.ch.enumAcc, stale := Vector.replicate 256 false, toRun := Vector.replicate 256 0 } } :=
    { registry := hacc
      run_bound := fun i => by simp [timeoutRun]
      not_stale := fun i _ => by simp [timeoutRun]; omega
      last_outcome := hrec.last_outcome }
  exact freeEngine_chainInv hnew { hrel with } _ _ _

/-- What a ping finds stands at its cursor (R232). -/
theorem pingFound_rising {s : State} (hpos : 1 ≤ s.ch.enumCursor.toNat)
    (h : unitsRising 0 (s.ch.enumCursor.toNat - 1) s.ch.enumAcc = true) :
    unitsRising 0 s.ch.enumCursor.toNat (pingFound s) = true := by
  have hkept : unitsRising 0 s.ch.enumCursor.toNat s.ch.enumAcc = true := unitsRising_mono (Nat.sub_le _ _) h
  have hunit : ∀ cap, unitsRising 0 s.ch.enumCursor.toNat
      (s.ch.enumAcc ++ [{ index := s.ch.enumCursor, capability := cap, version := none }]) = true :=
    fun _ => unitsRising_append hpos (Nat.sub_lt hpos Nat.one_pos) le_rfl rfl h
  unfold pingFound
  split
  · split
    · exact hunit _
    · exact hkept
  · exact hkept

theorem pingDone_chainInv {s : State} (h : RequestOver s) (hop : s.ch.op = .enumerate) (hadm : s.cfg.admissible = true) :
    ChainInv (pingDone s) := by
  obtain ⟨-, hn, -, hthreshold⟩ := chainBounds_of_admissible hadm
  obtain ⟨hpos, hcursor⟩ := h.cursor hop
  have hfound := pingFound_rising hpos (h.found hop)
  have hissuer : s.ch.issuer ≠ none := fun hi => nomatch hop.symm.trans (h.issuer.mpr hi)
  unfold pingDone
  dsimp only
  split
  · rename_i hmore
    have hnext : (s.ch.enumCursor + 1#8).toNat = s.ch.enumCursor.toNat + 1 := by
      rw [BitVec.toNat_add]
      simp
      omega
    refine .of_sent { h.toRecordsOk with } (by simp [hop]) (by simpa using hissuer) rfl rfl rfl rfl
      ⟨_, [], by simp, rfl⟩ (by simp) (fun _ => ?_) (fun _ => ?_)
    · simp only [startPing_ch, startPing_cfg, hnext, and_true]
      omega
    · simp only [startPing_ch, hnext]
      exact hfound
  · exact finishEnumeration_chainInv { h.toRecordsOk with } { h.toReleased with } hthreshold
      (unitsRising_mono hcursor hfound)

/-- The end of a request, by the command that owns the engine (R209, R232). -/
theorem requestEnded_chainInv {s : State} (h : RequestOver s) (hadm : s.cfg.admissible = true) :
    ChainInv (requestEnded s) := by
  obtain ⟨-, -, -, hthreshold⟩ := chainBounds_of_admissible hadm
  unfold requestEnded
  cases hop : s.ch.op with
  | none => exact .of_free h.toRecordsOk h.toReleased hop (h.issuer.mp hop)
  | send | readReg | writeReg => exact finishCall_chainInv h hthreshold
  | enumerate => exact pingDone_chainInv h hop hadm

/-! ## The engine's moves -/

/-- An awaited request that ends, its bytes and its end state given. -/
theorem ChainInv.requestOver {s : State} (h : ChainInv s) (hawaiting : s.ch.state = .awaitingResponse) {st : ReqState}
    (hended : outstanding st = false) {rx : List Byte} (hrx : rx.length ≤ 259) (resp : Option ResponseFrame) :
    RequestOver { s with ch := { s.ch with state := st, rx := rx, resp := resp } } :=
  { h.records with
    ended := hended
    line := h.driver.trans (by simp [hawaiting])
    attempts := h.attempts
    rx_length := hrx
    issuer := h.issuer
    cursor := fun hop => ⟨(h.cursor hop).1, (h.cursor hop).2.1⟩
    found := h.found }

theorem endRequest_chainInv {s : State} (h : ChainInv s) (hadm : s.cfg.admissible = true)
    (hawaiting : s.ch.state = .awaitingResponse) {st : ReqState} (hended : outstanding st = false) :
    ChainInv (endRequest st s) :=
  requestEnded_chainInv (h.requestOver hawaiting hended h.rx_length s.ch.resp) hadm

theorem outstanding_validated (rx : List Byte) (index : Byte) : outstanding (validated rx index) = false := by
  unfold validated
  (repeat' split) <;> rfl

/-- The moves of a chain byte: an incomplete frame stays one, a complete one ends the request. -/
theorem ByteMove.chainInv {s t : State} {b : Byte} (hmove : ByteMove b s t) (h : ChainInv s)
    (hadm : s.cfg.admissible = true) : ChainInv t := by
  cases hmove with
  | left => exact { h with }
  | taken hopen hmore =>
    obtain ⟨hawaiting, -, -⟩ := windowOpen_iff.mp hopen
    have hincomplete := h.incomplete hawaiting
    exact { h with
      incomplete := fun _ => incomplete_append hincomplete b hmore
      rx_empty := fun hs => nomatch hawaiting.symm.trans hs
      rx_length := length_append_le hincomplete b }
  | completed hopen =>
    obtain ⟨hawaiting, -, -⟩ := windowOpen_iff.mp hopen
    have hlen := length_append_le (h.incomplete hawaiting) b
    exact requestEnded_chainInv (h.requestOver hawaiting (outstanding_validated _ _) hlen _) hadm

theorem writeDone_chainInv {s : State} (h : ChainInv s) (hsent : s.ch.state = .sent) : ChainInv (writeDone s) := by
  have hout : outstanding s.ch.state = true := by rw [hsent]; rfl
  exact { h with
    driver := rfl
    busy := h.busy.trans ⟨fun _ => rfl, fun _ => hout⟩
    frame := fun _ => h.frame hout
    writing := fun hs => nomatch hs
    window := fun _ => ⟨Nat.le_add_right _ _, le_rfl⟩
    incomplete := fun _ => .inl (by simp [h.rx_empty hsent])
    rx_empty := fun hs => nomatch hs }

theorem retryRequest_chainInv {s : State} (h : ChainInv s) (hawaiting : s.ch.state = .awaitingResponse)
    (hretry : s.ch.attempt < s.ch.retries) : ChainInv (retryRequest s) := by
  have hout : outstanding s.ch.state = true := by rw [hawaiting]; rfl
  have hop := h.busy.mpr hout
  exact .of_sent { h.records with } hop (fun hi => hop (h.issuer.mpr hi)) rfl rfl rfl rfl (h.frame hout)
    ⟨hretry, h.attempts.2⟩ h.cursor h.found

theorem EngineMove.chainInv {s t : State} (hmove : EngineMove s t) (h : ChainInv s) (hadm : s.cfg.admissible = true) :
    ChainInv t := by
  cases hmove with
  | rest => exact h
  | written hsent => exact writeDone_chainInv h hsent
  | retry hawaiting hretry => exact retryRequest_chainInv h hawaiting hretry
  | ended hawaiting hended => exact endRequest_chainInv h hadm hawaiting hended

/-! ## The host's commands, time and reset -/

theorem ChainInv.congr {s t : State} (h : ChainInv s) (hcfg : t.cfg = s.cfg) (hnow : t.now = s.now) (hch : t.ch = s.ch)
    (hchp : t.chp = s.chp) : ChainInv t := by
  obtain ⟨cfg, now, fr, ch, chp, port, lineIn⟩ := s
  obtain ⟨cfg', now', fr', ch', chp', port', lineIn'⟩ := t
  dsimp only at hcfg hnow hch hchp
  subst hcfg hnow hch hchp
  exact { h with }

theorem ChainInv.sameBlock {s t : State} (h : ChainInv s) (hst : SameBlock s t) : ChainInv t :=
  h.congr hst.cfg hst.now hst.ch hst.chp

theorem ChainInv.sameButFramer {s t : State} (h : ChainInv s) (hst : SameButFramer s t) : ChainInv t :=
  h.congr hst.cfg hst.now hst.ch hst.chp

/-- A well-formed host command (R200, R230, R235, R237, R243). -/
theorem ChainInv.command {s t : State} {i : Instr} (h : ChainInv s) (hadm : s.cfg.admissible = true)
    (hwf : i.WellFormed) (hhost : i.onWire = false) (heffect : CommandEffect s i t) : ChainInv t := by
  obtain ⟨hn, -, hretries, -⟩ := chainBounds_of_admissible hadm
  cases heffect with
  | answer | store | transmit | toReceiver | toController => exact h.congr rfl rfl rfl rfl
  | invalidate => exact { h with registry := rfl }
  | @call kind _ _ _ _ hkind _ hlen =>
    have hkinds : kind ≠ .none ∧ kind ≠ .enumerate := by rcases hkind with rfl | rfl | rfl <;> decide
    exact .of_sent { h.records with } hkinds.1 (by simp) rfl rfl rfl rfl ⟨_, _, hlen hwf, rfl⟩
      ⟨Nat.zero_le _, hretries⟩ (fun he => absurd he hkinds.2) (fun he => absurd he hkinds.2)
  | enumerate =>
    exact .of_sent { h.records with } (by simp) (by simp) rfl rfl rfl rfl ⟨_, [], by simp, rfl⟩ (by simp)
      (fun _ => ⟨le_rfl, hn, rfl, rfl⟩) (fun _ => rfl)
  | wire hwire => exact nomatch hhost.symm.trans hwire

theorem chainDueAt_of_sent {s : State} (h : s.ch.state = .sent) : chainDueAt s = some (writeEnd s) := by
  simp [chainDueAt, h]

theorem chainDueAt_of_awaiting {s : State} (h : s.ch.state = .awaitingResponse) (hrx : frameComplete s.ch.rx = false) :
    chainDueAt s = some s.ch.deadline := by
  simp [chainDueAt, h, hrx]

theorem chainDueAt_of_not_outstanding {s : State} (h : outstanding s.ch.state = false) : chainDueAt s = none := by
  unfold chainDueAt
  cases hst : s.ch.state <;> simp_all [outstanding]

theorem advanceTime_chainInv {s : State} (h : ChainInv s) (hahead : ∀ p ∈ pending s, s.now < p) :
    ChainInv (advanceTime s) := by
  have hlater : s.now < (advanceTime s).now := lt_advanceTime hahead
  have hdue : ∀ {p}, chainDueAt s = some p → (advanceTime s).now ≤ p := fun hp =>
    advanceTime_le_pending (mem_pending.mpr (.inr (.inr (.inl hp))))
  exact { h with
    writing := fun hs => ⟨(h.writing hs).1.trans hlater.le, hdue (chainDueAt_of_sent hs)⟩
    window := fun ha => ⟨hdue (chainDueAt_of_awaiting ha (frameComplete_of_incomplete (h.incomplete ha))),
      (h.window ha).2.trans (Nat.add_le_add_right hlater.le _)⟩ }

theorem resetBlock_chainInv {s : State} (hthreshold : 1 ≤ s.cfg.staleThreshold) : ChainInv (resetBlock s) :=
  .of_free
    { registry := rfl
      run_bound := fun i => by simp [timeoutRun, resetBlock, State.reset, Chain.reset]
      not_stale := fun i _ => by simp [timeoutRun, resetBlock, State.reset, Chain.reset]; omega
      last_outcome := .inl rfl }
    { ended := rfl, line := rfl, attempts := ⟨le_rfl, Nat.zero_le _⟩, rx_length := Nat.zero_le _ } rfl rfl

/-- Every move keeps the invariant. -/
theorem Move.chainInv {s t : State} (hmove : Move s t) (hadm : s.cfg.admissible = true) (h : ChainInv s) :
    ChainInv t := by
  have hwaited : ChainInv (hostWaited s) := h.sameBlock (hostWaited_sameBlock s)
  cases hmove with
  | command hfetch hdecode heffect =>
    have hsame := fetch_sameBlock hfetch
    obtain ⟨-, hwf, hhost⟩ := encode_of_decode 0x00#8 hdecode
    exact (h.sameBlock hsame).command (by rw [hsame.cfg]; exact hadm) hwf hhost heffect
  | illegal hfetch => exact (h.sameBlock (fetch_sameBlock hfetch)).congr rfl rfl rfl rfl
  | @line e rest _ _ =>
    have hsame := lineTaken_sameBlock s rest
    have htaken : ChainInv (lineTaken s rest) := h.sameBlock hsame
    have hadm' : (lineTaken s rest).cfg.admissible = true := by rw [hsame.cfg]; exact hadm
    cases e.event with
    | dmxEdge level => exact htaken.sameButFramer (dmxEdge_sameButFramer level _)
    | chainByte b => exact (chainByteArrives_move b _).chainInv htaken hadm'
    | reset => exact resetBlock_chainInv (chainBounds_of_admissible hadm').2.2.2
    | pass => exact htaken
  | engine => exact (chainStep_move _).chainInv hwaited (by simpa using hadm)
  | sequencer =>
    obtain ⟨hcfg, hnow, hch, hchp, -⟩ := txStep_frame (hostWaited s)
    exact hwaited.congr hcfg hnow hch hchp
  | sample => exact hwaited.sameButFramer (sampleStep_sameButFramer _)
  | breakRun => exact hwaited.sameButFramer (breakStep_sameButFramer _)
  | time hahead => exact advanceTime_chainInv h hahead

end Sys2Proof.Machine

namespace Sys2Proof.Proofs

open Sys2Proof.Machine

/-- Settles O57, move by move; every shape of the engine after a move is one of `of_sent`, `of_free`, an open window. -/
theorem chainInvariantIsKept : Obligations.ChainInvariantIsKept :=
  fun _ _ hadm hinv hstep => (step_move hstep).chainInv hadm hinv

/-- Settles O49, which is what stale counting does to each index's run and mark. -/
theorem staleCountingFollowsTimeouts : Obligations.StaleCountingFollowsTimeouts := by
  intro s i o
  simp only [timeoutRun_updateStale, isStale_updateStale_eq]
  refine ⟨fun j hj => ?_, fun ho => ⟨?_, fun hrun => ?_, fun hrun => ?_⟩, fun ho => ?_⟩
  · simp [Ne.symm hj]
  · simp [ho]
  · simp [ho, hrun]
  · simp [Nat.not_le.mpr hrun]
  · simp [ho]

/-- Settles O58: the reset state is what the reset input makes of itself. -/
theorem resetMeetsTheInvariants : Obligations.ResetMeetsTheInvariants where
  admissible := by decide
  framer := resetBlock_framerInv State.reset
  receiver := resetBlock_receiverInv State.reset
  chain := by
    have hthreshold : 1 ≤ State.reset.cfg.staleThreshold := by decide
    exact resetBlock_chainInv hthreshold

end Sys2Proof.Proofs
end

section
/-! PROOFS. What every step does: it runs or refuses the command fetched, answers a next state, keeps the parameters, lets
time pass in order, and only appends to the outputs (30_encoding.md R90 to R95, 44_serial_timing.md R260,
60_exceptions.md R281, R290). -/

namespace Sys2Proof.Machine

/-! ## The commands -/

theorem fetch_of_due {s : State} {h : HostInput} {hs : List HostInput} (hport : s.port.inputs = h :: hs)
    (htime : h.time ≤ s.now) (hafter : h.after = 0 ∨ otherDue s = false) :
    fetch s = some (h.bytes, { s with port := { s.port with inputs := hs, agent := h.agent } }) := by
  simp [fetch, hport, htime, hafter]

theorem step_of_decode {s u : State} {bytes : List Byte} {i : Instr} (hfetch : fetch s = some (bytes, u))
    (hdecode : decode bytes = .ok i) : step s = exec i u := by
  simp [step, hfetch, hdecode]

/-- A length that is not the expected one is a decoding error (R91, R95). -/
theorem decode_error_of_hostLength {c : List Byte} (h : hostLength c ≠ some c.length) : ∃ e, decode c = .error e := by
  cases hd : decode c with
  | error e => exact ⟨e, rfl⟩
  | ok i => exact absurd ((decode_isOk_iff c).mp ⟨i, hd⟩) h

theorem step_of_error {s u : State} {bytes : List Byte} {e : DecodeError} (hfetch : fetch s = some (bytes, u))
    (hdecode : decode bytes = .error e) : step s = .next (raiseOutcome .illegalCommand u) := by
  simp [step, hfetch, hdecode]

/-- The meaning of a wire command: its frame becomes `CH.req` and an attempt starts (R110, R114, R203). -/
theorem exec_wire {i : Instr} (h : i.onWire = true) (s : State) :
    exec i s = .next (startAttempt { s with ch := { s.ch with req := encode s.cfg.pingCode i } }) := by
  cases i with
  | chainRead | chainWrite | chainPing => rfl
  | dmxWrite | dmxRead | dmxTransmit | dmxSetMode | dmxGetMode | dmxReadDiag | chSend | chReadReg | chWriteReg
    | chEnumerate | chInvalidate | chLookup | chGetState => cases h

/-! ## The engine's own steps (R204, R208) -/

/-- The engine's step goes first of the internal ones (log 19). -/
theorem step_chainStep {s : State} {p : Nat} (hquiet : noInputDue s = true) (hdue : chainDueAt s = some p)
    (hnow : p ≤ s.now) : step s = .next (chainStep s) := by
  rw [step_internal hquiet, internalStep, if_pos (due_eq_true_iff.mpr ⟨p, hdue, hnow⟩), (no_input hquiet).2.1]

theorem chainStep_of_sent {s : State} (h : s.ch.state = .sent) : chainStep s = writeDone s := by simp [chainStep, h]

theorem chainStep_of_awaiting {s : State} (h : s.ch.state = .awaitingResponse) : chainStep s = deadlineStep s := by
  simp [chainStep, h]

theorem deadlineStep_of_partial {s : State} (h : s.ch.rx ≠ [] ∧ s.cfg.partialFrameOutcome = .checksumMismatch) :
    deadlineStep s = endRequest .checksumError s := by
  rw [deadlineStep, if_pos h]

theorem deadlineStep_of_retry {s : State} (h : ¬ (s.ch.rx ≠ [] ∧ s.cfg.partialFrameOutcome = .checksumMismatch))
    (hretry : s.ch.attempt < s.ch.retries) : deadlineStep s = retryRequest s := by
  rw [deadlineStep, if_neg h, if_pos hretry]

theorem deadlineStep_of_last {s : State} (h : ¬ (s.ch.rx ≠ [] ∧ s.cfg.partialFrameOutcome = .checksumMismatch))
    (hlast : s.ch.retries ≤ s.ch.attempt) : deadlineStep s = endRequest .timedOut s := by
  rw [deadlineStep, if_neg h, if_neg (Nat.not_lt.mpr hlast)]

/-- Where nothing was received, or a Timeout is what a partial frame yields, the deadline is no checksum error. -/
theorem not_partialError {s : State} (h : s.ch.rx = [] ∨ s.cfg.partialFrameOutcome = .timeout) :
    ¬ (s.ch.rx ≠ [] ∧ s.cfg.partialFrameOutcome = .checksumMismatch) := by
  rintro ⟨hne, hmis⟩
  rcases h with hempty | htimeout
  · exact hne hempty
  · exact nomatch htimeout.symm.trans hmis

/-- A command writes no record of the receiver (R35, R39, R291). -/
theorem CommandEffect.receiverRecords {s t : State} {i : Instr} (h : CommandEffect s i t) :
    t.fr.diagCount = s.fr.diagCount ∧ t.fr.notify = s.fr.notify ∧ t.fr.rxMarkStart = s.fr.rxMarkStart ∧
      t.fr.front.level = s.fr.front.level := by
  cases h <;> exact ⟨rfl, rfl, rfl, rfl⟩

/-- Only `DMX_WRITE` writes a slot (R33). -/
theorem CommandEffect.slots {s t : State} {i : Instr} (h : CommandEffect s i t) (hi : ∀ addr v, i ≠ .dmxWrite addr v) :
    t.fr.slots = s.fr.slots := by
  cases h with
  | store hstore => exact absurd hstore (hi _ _)
  | answer | transmit | toReceiver | toController | invalidate | call | enumerate | wire => rfl

/-- Each command belongs to one unit and leaves the other (D47). -/
theorem CommandEffect.units {s t : State} {i : Instr} (h : CommandEffect s i t) :
    (ofFramer i = true → t.ch = s.ch ∧ t.chp = s.chp) ∧ (ofFramer i = false → t.fr = s.fr) := by
  cases h with
  | answer => exact ⟨fun _ => ⟨rfl, rfl⟩, fun _ => rfl⟩
  | store hi | transmit hi | toReceiver hi | toController hi =>
    subst hi
    exact ⟨fun _ => ⟨rfl, rfl⟩, fun hf => nomatch hf⟩
  | invalidate hi | enumerate hi =>
    subst hi
    exact ⟨fun hf => (nomatch hf), fun _ => rfl⟩
  | call hi => exact ⟨fun hf => (nomatch hi.symm.trans hf), fun _ => rfl⟩
  | wire hwire =>
    refine ⟨fun hf => ?_, fun _ => rfl⟩
    cases i <;> cases hwire <;> cases hf

/-! ## The parameters and the time -/

/-- No move changes a parameter (R8). -/
theorem Move.cfg {s t : State} (h : Move s t) : t.cfg = s.cfg := by
  cases h with
  | command hfetch _ heffect => exact heffect.frame.2.1.trans (fetch_sameBlock hfetch).cfg
  | illegal hfetch => exact (fetch_sameBlock hfetch).cfg
  | @line e rest _ _ =>
    refine Eq.trans ?_ (lineTaken_sameBlock s rest).cfg
    cases e.event with
    | dmxEdge level => exact (dmxEdge_sameButFramer level _).cfg
    | chainByte b => exact (chainByteArrives_frame b _).1
    | reset | pass => rfl
  | engine => exact (chainStep_frame _).1.trans (hostWaited_cfg s)
  | sequencer => exact (txStep_frame _).1.trans (hostWaited_cfg s)
  | sample => exact (sampleStep_sameButFramer _).cfg.trans (hostWaited_cfg s)
  | breakRun => exact (breakStep_sameButFramer _).cfg.trans (hostWaited_cfg s)
  | time => rfl

/-- Outside a reset only TC moves `now` (R17, R260). -/
theorem Move.now {s t : State} (h : Move s t) (hreset : resetNow s = false) :
    t.now = s.now ∨ t = advanceTime s ∧ ∀ p ∈ pending s, s.now < p := by
  cases h with
  | command hfetch _ heffect => exact .inl (heffect.frame.1.trans (fetch_sameBlock hfetch).now)
  | illegal hfetch => exact .inl (fetch_sameBlock hfetch).now
  | @line e rest hline htime =>
    refine .inl (Eq.trans ?_ (lineTaken_sameBlock s rest).now)
    cases he : e.event with
    | dmxEdge level => exact (dmxEdge_sameButFramer level _).now
    | chainByte b => exact (chainByteArrives_frame b _).2.1
    | reset => exact absurd he (event_ne_reset hreset hline htime)
    | pass => rfl
  | engine => exact .inl ((chainStep_frame _).2.1.trans (hostWaited_now s))
  | sequencer => exact .inl ((txStep_frame _).2.1.trans (hostWaited_now s))
  | sample => exact .inl ((sampleStep_sameButFramer _).now.trans (hostWaited_now s))
  | breakRun => exact .inl ((breakStep_sameButFramer _).now.trans (hostWaited_now s))
  | time hahead => exact .inr ⟨rfl, hahead⟩

/-! ## The outputs -/

/-- What `s` has put out, `t` has put out, in the same order and first (R39, R84, R290). -/
structure Appended (s t : State) : Prop where
  notify : s.fr.notify <+: t.fr.notify
  responses : s.port.responses <+: t.port.responses
  written : s.chp.written <+: t.chp.written

theorem Appended.of_eq {s t : State} (hn : t.fr.notify = s.fr.notify) (hr : t.port.responses = s.port.responses)
    (hw : t.chp.written = s.chp.written) : Appended s t :=
  ⟨by rw [hn], by rw [hr], by rw [hw]⟩

theorem Appended.trans {s t u : State} (h : Appended s t) (k : Appended t u) : Appended s u :=
  ⟨h.notify.trans k.notify, h.responses.trans k.responses, h.written.trans k.written⟩

/-- Only the outputs of the state before count. -/
theorem Appended.congr_left {s s' t : State} (h : Appended s' t) (hn : s'.fr.notify = s.fr.notify)
    (hr : s'.port.responses = s.port.responses) (hw : s'.chp.written = s.chp.written) : Appended s t :=
  ⟨hn ▸ h.notify, hr ▸ h.responses, hw ▸ h.written⟩

theorem SameBlock.appended {s t : State} (h : SameBlock s t) : Appended s t :=
  .of_eq (by rw [h.fr]) h.responses (by rw [h.chp])

theorem respondTo_appended (a : Option Agent) (bytes : List Byte) (s : State) : Appended s (respondTo a bytes s) := by
  cases a with
  | none => exact .of_eq rfl rfl rfl
  | some a => exact ⟨List.prefix_rfl, List.prefix_append _ _, List.prefix_rfl⟩

theorem CommandEffect.appended {s t : State} {i : Instr} (h : CommandEffect s i t) : Appended s t := by
  refine ⟨by rw [h.receiverRecords.2.1], ?_, ?_⟩
  · cases h <;> simp
  · cases h <;> simp

theorem ParserMove.notify {s t : State} (h : ParserMove s t) : s.fr.notify <+: t.fr.notify := by
  cases h with
  | commit => exact List.prefix_append _ _
  | stay | goto | drop | rise | mabEnd | slot => exact List.prefix_rfl

theorem onSymbol_appended (y : Symbol) (s : State) : Appended s (onSymbol y s) := by
  obtain ⟨-, -, -, hchp, hport, -⟩ := onSymbol_frame y s
  exact ⟨(onSymbol_move y s).notify, by rw [hport], by rw [hchp]⟩

theorem receiver_appended (s : State) :
    Appended s (sampleStep s) ∧ Appended s (breakStep s) ∧ ∀ level, Appended s (dmxEdge level s) :=
  receiver_keeps (Appended s) (fun _ _ h => h.trans (.of_eq rfl rfl rfl)) (fun y _ h => h.trans (onSymbol_appended y _)) s
    (.of_eq rfl rfl rfl)

theorem freeEngine_appended (o : OutcomeCode) (a : Option Agent) (bytes : List Byte) (s : State) :
    Appended s (freeEngine o (respondTo a bytes s)) :=
  (respondTo_appended a bytes s).trans (.of_eq rfl rfl rfl)

theorem finishCall_appended (s : State) : Appended s (finishCall s) :=
  (freeEngine_appended _ _ _ _).congr_left (by simp) (by simp) (by simp)

theorem finishEnumeration_appended (s : State) : Appended s (finishEnumeration s) :=
  (freeEngine_appended _ _ _ _).congr_left rfl rfl rfl

theorem startPing_appended (i : Byte) (s : State) : Appended s (startPing i s) :=
  ⟨List.prefix_rfl, List.prefix_rfl, List.prefix_append _ _⟩

theorem pingDone_appended (s : State) : Appended s (pingDone s) := by
  unfold pingDone
  dsimp only
  split
  · exact (startPing_appended _ _).congr_left rfl rfl rfl
  · exact (finishEnumeration_appended _).congr_left rfl rfl rfl

theorem requestEnded_appended (s : State) : Appended s (requestEnded s) := by
  unfold requestEnded
  cases s.ch.op with
  | none => exact .of_eq rfl rfl rfl
  | send | readReg | writeReg => exact finishCall_appended s
  | enumerate => exact pingDone_appended s

theorem endRequest_appended (st : ReqState) (s : State) : Appended s (endRequest st s) :=
  (requestEnded_appended _).congr_left rfl rfl rfl

theorem ByteMove.appended {s t : State} {b : Byte} (h : ByteMove b s t) : Appended s t := by
  cases h with
  | left | taken => exact .of_eq rfl rfl rfl
  | completed => exact (requestEnded_appended _).congr_left rfl rfl rfl

theorem EngineMove.appended {s t : State} (h : EngineMove s t) : Appended s t := by
  cases h with
  | rest | written => exact .of_eq rfl rfl rfl
  | retry => exact ⟨List.prefix_rfl, List.prefix_rfl, List.prefix_append _ _⟩
  | ended => exact endRequest_appended _ s

theorem txStep_appended (s : State) : Appended s (txStep s) := by
  unfold txStep
  cases s.fr.tx with
  | idle | brk | mab | gap => exact .of_eq rfl rfl rfl
  | byte k =>
    dsimp only
    (repeat' split)
    · exact .of_eq rfl rfl rfl
    · exact .of_eq rfl rfl rfl
    · exact (respondTo_appended _ _ _).congr_left rfl rfl rfl

/-- Outside a reset every move only appends (R39, R84, R290). -/
theorem Move.appended {s t : State} (h : Move s t) (hreset : resetNow s = false) : Appended s t := by
  have hwaited : Appended s (hostWaited s) := (hostWaited_sameBlock s).appended
  cases h with
  | command hfetch _ heffect => exact (fetch_sameBlock hfetch).appended.trans heffect.appended
  | illegal hfetch => exact (fetch_sameBlock hfetch).appended.trans (respondTo_appended (some _) _ _)
  | @line e rest hline htime =>
    refine (lineTaken_sameBlock s rest).appended.trans ?_
    cases he : e.event with
    | dmxEdge level => exact (receiver_appended _).2.2 level
    | chainByte b => exact (chainByteArrives_move b _).appended
    | reset => exact absurd he (event_ne_reset hreset hline htime)
    | pass => exact .of_eq rfl rfl rfl
  | engine => exact hwaited.trans (chainStep_move _).appended
  | sequencer => exact hwaited.trans (txStep_appended _)
  | sample => exact hwaited.trans (receiver_appended _).1
  | breakRun => exact hwaited.trans (receiver_appended _).2.1
  | time => exact .of_eq rfl rfl rfl

/-! ## The registry -/

/-- The registry of `s` stays, or an enumeration that ends in between replaces it by the units it found (R233, R242). -/
def RegistryKept (s t : State) : Prop :=
  t.ch.registry = s.ch.registry ∨ (s.ch.op = .enumerate ∧ t.ch.op = .none ∧ t.ch.registry = t.ch.enumAcc)

theorem RegistryKept.of_ch_eq {s t : State} (h : t.ch = s.ch) : RegistryKept s t := .inl (by rw [h])

/-- Only the owner and the registry of the state before count. -/
theorem RegistryKept.congr_left {s s' t : State} (h : RegistryKept s' t) (hop : s'.ch.op = s.ch.op)
    (hreg : s'.ch.registry = s.ch.registry) : RegistryKept s t := by
  simpa only [RegistryKept, hop, hreg] using h

theorem finishCall_registry (s : State) : (finishCall s).ch.registry = s.ch.registry := by
  obtain ⟨runs, marks, hu⟩ := updateStale_frame s.ch.index (outcomeOfState s.ch.state) s
  simp [finishCall, hu]

theorem requestEnded_registryKept (s : State) : RegistryKept s (requestEnded s) := by
  unfold requestEnded
  cases hop : s.ch.op with
  | none => exact .inl rfl
  | send | readReg | writeReg => exact .inl (finishCall_registry s)
  | enumerate =>
    dsimp only
    unfold pingDone
    dsimp only
    split
    · exact .inl rfl
    · exact .inr ⟨hop, by simp, by simp⟩

theorem ByteMove.registryKept {s t : State} {b : Byte} (h : ByteMove b s t) : RegistryKept s t := by
  cases h with
  | left | taken => exact .inl rfl
  | completed => exact (requestEnded_registryKept _).congr_left rfl rfl

theorem EngineMove.registryKept {s t : State} (h : EngineMove s t) : RegistryKept s t := by
  cases h with
  | rest | written | retry => exact .inl rfl
  | ended => exact (requestEnded_registryKept _).congr_left rfl rfl

/-- The ways a step can change the registry (R242). -/
theorem Move.registry {s t : State} (h : Move s t) :
    RegistryKept s t ∨ ((∃ u, fetch s = some ([0x14#8], u)) ∧ t.ch.registry = []) ∨
      (resetNow s = true ∧ t.ch.registry = []) := by
  have hwaited := hostWaited_ch s
  cases h with
  | command hfetch hdecode heffect =>
    have hreg := congrArg Chain.registry (fetch_sameBlock hfetch).ch
    cases heffect with
    | invalidate hi =>
      subst hi
      obtain ⟨rfl, -, -⟩ := encode_of_decode 0x00#8 hdecode
      exact .inr (.inl ⟨⟨_, hfetch⟩, rfl⟩)
    | answer | store | transmit | toReceiver | toController | call | enumerate | wire =>
      exact .inl (.inl hreg)
  | illegal hfetch => exact .inl (.of_ch_eq (fetch_sameBlock hfetch).ch)
  | @line e rest hline htime =>
    have hch := (lineTaken_sameBlock s rest).ch
    cases he : e.event with
    | dmxEdge level => exact .inl (.of_ch_eq ((dmxEdge_sameButFramer level _).ch.trans hch))
    | chainByte b => exact .inl ((chainByteArrives_move b _).registryKept.congr_left (by rw [hch]) (by rw [hch]))
    | reset => exact .inr (.inr ⟨resetNow_of_event hline htime he, rfl⟩)
    | pass => exact .inl (.of_ch_eq hch)
  | engine => exact .inl ((chainStep_move _).registryKept.congr_left (by rw [hwaited]) (by rw [hwaited]))
  | sequencer => exact .inl (.of_ch_eq ((txStep_frame _).2.2.1.trans hwaited))
  | sample => exact .inl (.of_ch_eq ((sampleStep_sameButFramer _).ch.trans hwaited))
  | breakRun => exact .inl (.of_ch_eq ((breakStep_sameButFramer _).ch.trans hwaited))
  | time => exact .inl (.of_ch_eq rfl)

end Sys2Proof.Machine

namespace Sys2Proof.Proofs

open Sys2Proof.Machine

/-- Settles O7. -/
theorem stepRunsDecodedCommand : Obligations.StepRunsDecodedCommand :=
  fun _ _ _ _ hport htime hafter hdecode => step_of_decode (fetch_of_due hport htime hafter) hdecode

/-- Settles O8: what does not have the expected length decodes to an error, whichever it is. -/
theorem illegalCommandIsRefused : Obligations.IllegalCommandIsRefused := by
  intro s h hs hport htime hafter hlength
  obtain ⟨e, he⟩ := decode_error_of_hostLength hlength
  exact step_of_error (fetch_of_due hport htime hafter) he

/-- Settles O9: the retry starts an attempt with `CH.req`, and that is what the wire command of that frame does. -/
theorem stepResendsWireCommand : Obligations.StepResendsWireCommand := by
  intro s i hquiet hawaiting hrx hdeadline hpartial hretry hdecode
  obtain ⟨hreq, -, hwire⟩ := decodedFrameHasItsBytes _ _ _ hdecode
  rw [step_chainStep hquiet (chainDueAt_of_awaiting hawaiting hrx) hdeadline, chainStep_of_awaiting hawaiting,
    deadlineStep_of_retry (not_partialError hpartial) hretry, exec_wire hwire, retryRequest]
  dsimp only
  rw [hreq]

/-- Settles O10: every command answers, and so does every other move. -/
theorem everyStepAnswersNext : Obligations.EveryStepAnswersNext := by
  intro s
  unfold step
  split
  · split
    · exact exec_next _ _
    · exact ⟨_, rfl⟩
  · exact ⟨_, rfl⟩

/-- Settles O11, move by move. -/
theorem parametersNeverChange : Obligations.ParametersNeverChange := fun _ _ hstep => (step_move hstep).cfg

/-- Settles O12: only TC moves the time, when all that is pending lies ahead, and to the earliest of it. -/
theorem timeNeverPassesAPendingInstant : Obligations.TimeNeverPassesAPendingInstant := by
  intro s t hstep hreset
  obtain hsame | ⟨rfl, hahead⟩ := (step_move hstep).now hreset
  · exact ⟨hsame.ge, fun hlt => absurd hsame hlt.ne'⟩
  · exact ⟨(lt_advanceTime hahead).le, fun _ _ hp => advanceTime_le_pending hp⟩

/-- Settles O34, frame by frame: the meaning of a wire row is `sendFrame`. -/
theorem wireCommandStartsAnAttempt : Obligations.WireCommandStartsAnAttempt :=
  fun _ _ _ _ => ⟨rfl, rfl, rfl⟩

/-- Settles O51: the moves that change the registry are the three. -/
theorem registryChangesOnlyThreeWays : Obligations.RegistryChangesOnlyThreeWays := by
  intro s t hstep hchanged
  obtain (hsame | hended) | hinvalidate | hreset := (step_move hstep).registry
  · exact absurd hsame hchanged
  · exact .inr (.inl hended)
  · exact .inl hinvalidate
  · exact .inr (.inr hreset)

/-- Settles O52, by what a command can do. -/
theorem unitsAreIndependent : Obligations.UnitsAreIndependent := by
  intro i s t hexec
  have heffect := exec_effect hexec
  exact ⟨heffect.units.1, heffect.units.2, heffect.frame⟩

/-- Settles O53, by what a command can do. -/
theorem commandsLeaveReceiverRecords : Obligations.CommandsLeaveReceiverRecords := by
  intro i s t hexec
  have heffect := exec_effect hexec
  obtain ⟨hdiag, hnotify, hmark, hlevel⟩ := heffect.receiverRecords
  exact ⟨hdiag, hnotify, hmark, hlevel, heffect.slots⟩

/-- Settles O54, move by move. -/
theorem outputsAreOnlyAppended : Obligations.OutputsAreOnlyAppended := by
  intro s t hstep hreset
  obtain ⟨⟨l, hl⟩, ⟨m, hm⟩, ⟨n, hn⟩⟩ := (step_move hstep).appended hreset
  exact ⟨⟨l, hl.symm⟩, ⟨m, hm.symm⟩, ⟨n, hn.symm⟩⟩

end Sys2Proof.Proofs
end

section
/-! PROOFS. The framer commands on the whole frame, and the transmit sequencer (40_dmx_framer.md R132 to R146, R262). -/

namespace Sys2Proof.Machine

/-! ## DMX_TRANSMIT, DMX_SET_MODE, DMX_READ_DIAG -/

theorem exec_dmxTransmit_of_free {s : State} (hmode : s.fr.mode = .controller) (hidle : s.fr.tx = .idle) :
    exec .dmxTransmit s = .next (beginTransmit s) := by
  simp [exec, execDmxTransmit, hmode, hidle]

theorem exec_dmxTransmit_of_receiver {s : State} (hmode : s.fr.mode = .receiver) :
    exec .dmxTransmit s = .next (raiseOutcome .modeError s) := by
  simp [exec, execDmxTransmit, hmode]

theorem exec_dmxTransmit_of_sending {s : State} (hmode : s.fr.mode = .controller) (hsending : s.fr.tx ≠ .idle) :
    exec .dmxTransmit s = .next (raiseOutcome .busBusy s) := by
  simp [exec, execDmxTransmit, hmode, hsending]

/-- The snapshot's byte `k + 1` is slot `k + 1` (R37, R132). -/
theorem slotImage_getElem? (m : Memory) {k : Nat} (hk : k < 512) : (slotImage m)[k]? = some (slotRead m (k + 1)) := by
  simp [slotImage, hk]

theorem exec_dmxSetMode_of_illegal {mode : Byte} (h : 1 < mode.toNat) (s : State) :
    exec (.dmxSetMode mode) s = .next (raiseOutcome .outOfRange s) := by
  simp [exec, execDmxSetMode, h]

theorem exec_dmxSetMode_of_sending {mode : Byte} {s : State} (h : mode.toNat ≤ 1) (hsending : s.fr.tx ≠ .idle) :
    exec (.dmxSetMode mode) s = .next (raiseOutcome .busBusy s) := by
  simp [exec, execDmxSetMode, Nat.not_lt.mpr h, hsending]

theorem exec_dmxSetMode_controller {s : State} (hidle : s.fr.tx = .idle) : exec (.dmxSetMode 0x00#8) s =
    .next (returnOk [] (if s.fr.mode = .controller then s else enterController s)) := by
  cases hmode : s.fr.mode <;> simp [exec, execDmxSetMode, hidle, modeOf, hmode]

theorem exec_dmxSetMode_receiver {s : State} (hidle : s.fr.tx = .idle) : exec (.dmxSetMode 0x01#8) s =
    .next (returnOk [] (if s.fr.mode = .receiver then s else enterReceiver s)) := by
  cases hmode : s.fr.mode <;> simp [exec, execDmxSetMode, hidle, modeOf, hmode]

theorem exec_dmxReadDiag (s : State) :
    exec .dmxReadDiag s = .next (returnOk (leEncode s.fr.diagCount.toNat 4) s) := rfl

/-! ## Segment by segment -/

/-- The byte and the gap are ones of the frame (R36). -/
def segmentInRange : TxState → Prop
  | .byte k => k ≤ 512
  | .gap k => k ≤ 511
  | .idle => True
  | .brk => True
  | .mab => True

theorem FramerInv.segmentInRange {s : State} (h : FramerInv s) : segmentInRange s.fr.tx := by
  cases htx : s.fr.tx with
  | byte k => exact h.byte_position k htx
  | gap k => exact h.gap_position k htx
  | idle | brk | mab => trivial

/-- How many segment ends are still to come: what the run of a frame counts down. -/
def segmentsLeft : TxState → Nat
  | .idle => 0
  | .brk => 1027
  | .mab => 1026
  | .byte k => 2 * (512 - k) + 1
  | .gap k => 2 * (512 - k)

/-- A segment that follows the one in `s`: the frame's end stays where it was (R142, R262). -/
structure NextSegment (s : State) (seg : TxState) (dur : Nat) : Prop where
  sending : seg ≠ .idle
  inRange : segmentInRange seg
  fewer : segmentsLeft seg < segmentsLeft s.fr.tx
  lasts : dur + segmentsAfter s.cfg seg = segmentsAfter s.cfg s.fr.tx

/-- At the end of a segment the sequencer starts one that follows it, or ends the frame after slot 512. -/
theorem txStep_cases {s : State} (hsending : s.fr.tx ≠ .idle) (hrange : segmentInRange s.fr.tx) :
    (∃ seg level dur, NextSegment s seg dur ∧ txStep s = startSegment seg level dur s) ∨
      (s.fr.tx = .byte 512 ∧ txStep s = transmitDone s) := by
  cases htx : s.fr.tx with
  | idle => exact absurd htx hsending
  | brk =>
    refine .inl ⟨_, _, _, ⟨by simp, by simp [segmentInRange], by simp [htx, segmentsLeft], ?_⟩, txStep_of_brk htx⟩
    simp only [segmentsAfter, htx]; omega
  | mab =>
    refine .inl ⟨_, _, _, ⟨by simp, by simp [segmentInRange], by simp [htx, segmentsLeft], ?_⟩, txStep_of_mab htx⟩
    simp only [segmentsAfter, htx, tByte, tBit]; omega
  | byte k =>
    have hk : k ≤ 512 := by simpa [segmentInRange, htx] using hrange
    rcases Nat.lt_or_ge k 512 with hlt | hge
    · by_cases hgap : s.cfg.txInterslotUs = 0
      · refine .inl ⟨_, _, _, ⟨by simp, by simpa [segmentInRange] using hlt, by simp [htx, segmentsLeft]; omega, ?_⟩,
          txStep_of_byte htx hlt hgap⟩
        simp only [segmentsAfter, htx, hgap, tByte, tBit]; omega
      · refine .inl ⟨_, _, _, ⟨by simp, by simp [segmentInRange]; omega, by simp [htx, segmentsLeft], ?_⟩,
          txStep_of_byte_gap htx hlt hgap⟩
        have hleft : 512 - k = 511 - k + 1 := by omega
        simp only [segmentsAfter, htx, hleft]; ring
    · obtain rfl : k = 512 := by omega
      exact .inr ⟨rfl, txStep_of_last htx⟩
  | gap k =>
    have hk : k ≤ 511 := by simpa [segmentInRange, htx] using hrange
    refine .inl ⟨_, _, _, ⟨by simp, by simp [segmentInRange]; omega, by simp [htx, segmentsLeft]; omega, ?_⟩,
      txStep_of_gap htx⟩
    have hleft : 512 - k = 511 - k + 1 := by omega
    have hnext : 512 - (k + 1) = 511 - k := by omega
    simp only [segmentsAfter, htx, hleft, hnext]; ring

theorem startSegment_frameEnd {s : State} {seg : TxState} {dur : Nat} (h : NextSegment s seg dur)
    (hnow : s.now = s.fr.txSegEnd) (level : Level) : frameEndAt (startSegment seg level dur s) = frameEndAt s := by
  have hlasts := h.lasts
  simp only [frameEndAt, startSegment_fr, startSegment_cfg, ← hnow]
  omega

/-- A frame accepted now ends `T_FRAME` later (R9, R146). -/
theorem beginTransmit_frameEnd (s : State) : frameEndAt (beginTransmit s) = s.now + frameTime s.cfg := by
  simp only [frameEndAt, frameTime, segmentsAfter, beginTransmit_fr, beginTransmit_cfg]
  omega

/-- The sequencer's step is taken where its segment ends and no engine step is due (log 19). -/
theorem step_txStep {s : State} (hquiet : noInputDue s = true) (hchain : due s (chainDueAt s) = false)
    (hsending : s.fr.tx ≠ .idle) (hend : s.fr.txSegEnd ≤ s.now) : step s = .next (txStep s) := by
  have hdue : due s (txDueAt s) = true := by simpa [txDueAt_of_sending hsending, due] using hend
  rw [step_internal hquiet, internalStep, hchain, if_neg (by decide), if_pos hdue, (no_input hquiet).2.1]

/-! ## What the other moves leave of a frame being sent -/

/-- The frame being sent is the same, at the same segment. -/
structure SameFrame (s t : State) : Prop where
  cfg : t.cfg = s.cfg
  tx : t.fr.tx = s.fr.tx
  txSegEnd : t.fr.txSegEnd = s.fr.txSegEnd
  txIssuer : t.fr.txIssuer = s.fr.txIssuer
  txSnap : t.fr.txSnap = s.fr.txSnap

theorem SameFrame.of_fr_eq {s t : State} (hcfg : t.cfg = s.cfg) (hfr : t.fr = s.fr) : SameFrame s t :=
  ⟨hcfg, by rw [hfr], by rw [hfr], by rw [hfr], by rw [hfr]⟩

theorem SameFrame.trans {s t u : State} (h : SameFrame s t) (k : SameFrame t u) : SameFrame s u :=
  ⟨k.cfg.trans h.cfg, k.tx.trans h.tx, k.txSegEnd.trans h.txSegEnd, k.txIssuer.trans h.txIssuer,
    k.txSnap.trans h.txSnap⟩

theorem SameFrame.frameEnd {s t : State} (h : SameFrame s t) : frameEndAt t = frameEndAt s := by
  simp only [frameEndAt, h.cfg, h.tx, h.txSegEnd]

theorem SameBlock.sameFrame {s t : State} (h : SameBlock s t) : SameFrame s t := .of_fr_eq h.cfg h.fr

theorem ParserMove.sameFrame {s t : State} (h : ParserMove s t) : SameFrame s t := by
  cases h <;> exact ⟨rfl, rfl, rfl, rfl, rfl⟩

theorem receiver_sameFrame (s : State) :
    SameFrame s (sampleStep s) ∧ SameFrame s (breakStep s) ∧ ∀ level, SameFrame s (dmxEdge level s) :=
  receiver_keeps (SameFrame s) (fun _ _ h => h.trans ⟨rfl, rfl, rfl, rfl, rfl⟩)
    (fun y u h => h.trans (onSymbol_move y u).sameFrame) s ⟨rfl, rfl, rfl, rfl, rfl⟩

/-- While a frame is sent no command touches it: a transmit and a mode change are refused (R132, R133). -/
theorem CommandEffect.sameFrame {s t : State} {i : Instr} (h : CommandEffect s i t) (hsending : s.fr.tx ≠ .idle) :
    SameFrame s t := by
  cases h with
  | transmit _ _ hidle | toReceiver _ hidle | toController _ hidle => exact absurd hidle hsending
  | answer | store | invalidate | call | enumerate | wire => exact ⟨rfl, rfl, rfl, rfl, rfl⟩

/-- Outside a reset, the frame being sent is moved by the sequencer alone, at the end of a segment. -/
theorem Move.sameFrame {s t : State} (h : Move s t) (hreset : resetNow s = false) (hsending : s.fr.tx ≠ .idle) :
    SameFrame s t ∨ (s.fr.txSegEnd ≤ s.now ∧ t = txStep (hostWaited s)) := by
  have hwaited : SameFrame s (hostWaited s) := (hostWaited_sameBlock s).sameFrame
  cases h with
  | command hfetch _ heffect =>
    have hsame := (fetch_sameBlock hfetch).sameFrame
    exact .inl (hsame.trans (heffect.sameFrame (by rw [hsame.tx]; exact hsending)))
  | illegal hfetch => exact .inl ((fetch_sameBlock hfetch).sameFrame.trans (.of_fr_eq rfl rfl))
  | @line e rest hline htime =>
    refine .inl ((lineTaken_sameBlock s rest).sameFrame.trans ?_)
    cases he : e.event with
    | dmxEdge level => exact (receiver_sameFrame _).2.2 level
    | chainByte b =>
      obtain ⟨hcfg, -, hfr, -⟩ := chainByteArrives_frame b (lineTaken s rest)
      exact .of_fr_eq hcfg hfr
    | reset => exact absurd he (event_ne_reset hreset hline htime)
    | pass => exact .of_fr_eq rfl rfl
  | engine =>
    obtain ⟨hcfg, -, hfr, -⟩ := chainStep_frame (hostWaited s)
    exact .inl (hwaited.trans (.of_fr_eq hcfg hfr))
  | sequencer hdue =>
    obtain ⟨_, hp, hle⟩ := due_eq_true_iff.mp hdue
    obtain ⟨-, rfl⟩ := txDueAt_eq_some hp
    exact .inr ⟨hle, rfl⟩
  | sample => exact .inl (hwaited.trans (receiver_sameFrame _).1)
  | breakRun => exact .inl (hwaited.trans (receiver_sameFrame _).2.1)
  | time => exact .inl ⟨rfl, rfl, rfl, rfl, rfl⟩

/-! ## Runs -/

/-- A run from `s` to `u`, with `P` in every state before `u`. -/
def RunsTo (P : State → Prop) (s u : State) : Prop :=
  ∃ n, Host.Core.run Sys2Proof.core n s = .next u ∧
    ∀ m v, m < n → Host.Core.run Sys2Proof.core m s = .next v → P v

theorem RunsTo.refl (P : State → Prop) (s : State) : RunsTo P s s := ⟨0, rfl, fun _ _ h => absurd h (Nat.not_lt_zero _)⟩

/-- One step in front of a run. -/
theorem RunsTo.head {P : State → Prop} {s t u : State} (hP : P s) (hstep : step s = .next t) (h : RunsTo P t u) :
    RunsTo P s u := by
  obtain ⟨n, hn, hbefore⟩ := h
  refine ⟨n + 1, (run_succ n hstep).trans hn, fun m v hm hv => ?_⟩
  cases m with
  | zero => cases hv; exact hP
  | succ m => exact hbefore m v (Nat.lt_of_succ_lt_succ hm) ((run_succ m hstep).symm.trans hv)

/-- Where all that is pending lies ahead, the step is time passing. -/
theorem step_of_pending_ahead {s : State} (h : ∀ p ∈ pending s, s.now < p) : step s = .next (advanceTime s) := by
  have hnot : ∀ o, (∀ p, o = some p → p ∈ pending s) → due s o = false := by
    intro o ho
    rw [Bool.eq_false_iff, ne_eq, due_eq_true_iff]
    rintro ⟨p, hp, hle⟩
    exact absurd (h p (ho p hp)) (Nat.not_lt.mpr hle)
  have hhost := hnot (hostDueAt s) fun p hp => mem_pending.mpr (.inl hp)
  have hline := hnot (lineDueAt s) fun p hp => mem_pending.mpr (.inr (.inl hp))
  have hquiet : noInputDue s = true := by simp [noInputDue, hhost, hline]
  rw [step_internal hquiet, internalStep, hnot (chainDueAt s) fun p hp => mem_pending.mpr (by simp [hp]),
    hnot (txDueAt s) fun p hp => mem_pending.mpr (by simp [hp]),
    hnot (sampleDueAt s) fun p hp => mem_pending.mpr (by simp [hp]),
    hnot (breakDueAt s) fun p hp => mem_pending.mpr (by simp [hp])]
  rfl

theorem noInputs_iff {s : State} : noInputs s = true ↔ s.port.inputs = [] ∧ s.lineIn = [] := by
  simp [noInputs]

theorem noInputDue_of_noInputs {s : State} (h : noInputs s = true) : noInputDue s = true := by
  obtain ⟨hinputs, hline⟩ := noInputs_iff.mp h
  simp [noInputDue, hostDueAt, lineDueAt, hinputs, hline, due]

/-- With no input to come and the receiver off, only the engine and the sequencer have instants pending. -/
theorem pending_of_noInputs {s : State} (h : noInputs s = true) (hmode : s.fr.mode = .controller) :
    pending s = [chainDueAt s, txDueAt s].filterMap id := by
  obtain ⟨hinputs, hline⟩ := noInputs_iff.mp h
  simp only [pending, hostDueAt, lineDueAt, sampleDueAt, breakDueAt, hinputs, hline, hmode]
  cases chainDueAt s <;> cases txDueAt s <;> rfl

theorem advanceTime_of_pending {s : State} {p : Nat} (h : pending s = [p]) :
    advanceTime s = { s with now := p, fr := { s.fr with dmxTx := lineLevel p s.fr } } := by
  simp [advanceTime, h]

/-! ## The run of a frame -/

/-- A frame accepted in `s₀` for agent `a` is on the wire until `e`, and nothing else will happen. -/
structure SendingUntil (e : Nat) (a : Agent) (s₀ s : State) : Prop where
  quiet : noInputs s = true
  free : outstanding s.ch.state = false
  mode : s.fr.mode = .controller
  issuer : s.fr.txIssuer = some a
  slots : s.fr.slots = s₀.fr.slots
  responses : s.port.responses = s₀.port.responses
  sending : s.fr.tx ≠ .idle
  inRange : segmentInRange s.fr.tx
  segment : s.now ≤ s.fr.txSegEnd
  ends : frameEndAt s = e

/-- The end of the frame accepted in `s₀`: the sequencer is idle, the line at Mark, the one response given. -/
structure SentAt (e : Nat) (a : Agent) (s₀ u : State) : Prop where
  now : u.now = e
  idle : u.fr.tx = .idle
  level : u.fr.dmxTx = .mark
  slots : u.fr.slots = s₀.fr.slots
  responses : u.port.responses = s₀.port.responses ++ [{ agent := a, time := u.now, bytes := [0x00#8] }]

section

variable {e : Nat} {a : Agent} {s₀ s : State}

theorem SendingUntil.chainDueAt (h : SendingUntil e a s₀ s) : chainDueAt s = none := chainDueAt_of_not_outstanding h.free

/-- Before the end of its segment, time goes there in one step. -/
theorem SendingUntil.waits (h : SendingUntil e a s₀ s) (hbefore : s.now < s.fr.txSegEnd) :
    step s = .next (advanceTime s) ∧ SendingUntil e a s₀ (advanceTime s) ∧
      (advanceTime s).now = s.fr.txSegEnd := by
  have hpending : pending s = [s.fr.txSegEnd] := by
    rw [pending_of_noInputs h.quiet h.mode, h.chainDueAt, txDueAt_of_sending h.sending]; rfl
  have hahead : ∀ p ∈ pending s, s.now < p := by simpa [hpending] using hbefore
  refine ⟨step_of_pending_ahead hahead, ?_, ?_⟩
  · rw [advanceTime_of_pending hpending]
    exact { h with segment := le_rfl }
  · rw [advanceTime_of_pending hpending]

/-- At the end of its segment, the next segment begins, with fewer to come, or the frame has been sent. -/
theorem SendingUntil.moves (h : SendingUntil e a s₀ s) (hend : s.now = s.fr.txSegEnd) :
    ∃ t, step s = .next t ∧
      (SendingUntil e a s₀ t ∧ segmentsLeft t.fr.tx < segmentsLeft s.fr.tx ∨ SentAt e a s₀ t) := by
  have hchain : due s (Machine.chainDueAt s) = false := by rw [h.chainDueAt]; rfl
  refine ⟨_, step_txStep (noInputDue_of_noInputs h.quiet) hchain h.sending hend.ge, ?_⟩
  obtain ⟨seg, level, dur, hnext, htx⟩ | ⟨hlast, htx⟩ := txStep_cases h.sending h.inRange
  · rw [htx]
    exact .inl ⟨{ h with
      sending := hnext.sending
      inRange := hnext.inRange
      segment := Nat.le_add_right _ _
      ends := (startSegment_frameEnd hnext hend level).trans h.ends }, hnext.fewer⟩
  · rw [htx, transmitDone, h.issuer]
    have hnow : s.now = e := by rw [← h.ends, frameEndAt, hlast, ← hend]; simp [segmentsAfter]
    exact .inr ⟨hnow, rfl, rfl, h.slots, by simp [h.responses, outcomeByte]⟩

/-- The run of the frame, by the segments still to come. -/
theorem SendingUntil.runs (h : SendingUntil e a s₀ s) :
    ∃ u, RunsTo (fun v => v.fr.tx ≠ .idle) s u ∧ SentAt e a s₀ u := by
  induction hn : segmentsLeft s.fr.tx using Nat.strong_induction_on generalizing s with
  | _ n ih =>
    have hatEnd : ∀ w, w.fr.tx = s.fr.tx → SendingUntil e a s₀ w → w.now = w.fr.txSegEnd →
        ∃ u, RunsTo (fun v => v.fr.tx ≠ .idle) w u ∧ SentAt e a s₀ u := by
      intro w hw hsend hend
      obtain ⟨t, hstep, ⟨ht, hfewer⟩ | hsent⟩ := hsend.moves hend
      · obtain ⟨u, hruns, hu⟩ := ih _ (by rw [← hn, ← hw]; exact hfewer) ht rfl
        exact ⟨u, hruns.head hsend.sending hstep, hu⟩
      · exact ⟨t, (RunsTo.refl _ t).head hsend.sending hstep, hsent⟩
    rcases Nat.lt_or_eq_of_le h.segment with hbefore | hend
    · obtain ⟨hstep, hlater, hnow⟩ := h.waits hbefore
      obtain ⟨u, hruns, hu⟩ := hatEnd (advanceTime s) rfl hlater hnow
      exact ⟨u, hruns.head h.sending hstep, hu⟩
    · exact hatEnd s rfl h hend

/-- The acceptance of a transmit begins such a run, `T_FRAME` long (R9, R146). -/
theorem beginTransmit_sendingUntil (hquiet : noInputs s = true) (hfree : outstanding s.ch.state = false)
    (hmode : s.fr.mode = .controller) : SendingUntil (s.now + frameTime s.cfg) s.port.agent s (beginTransmit s) where
  quiet := hquiet
  free := hfree
  mode := hmode
  issuer := rfl
  slots := rfl
  responses := rfl
  sending := by simp
  inRange := trivial
  segment := Nat.le_add_right _ _
  ends := beginTransmit_frameEnd s

end

end Sys2Proof.Machine

namespace Sys2Proof.Proofs

open Sys2Proof.Machine

/-- Settles O16. -/
theorem dmxTransmitBeginsTheBreak : Obligations.DmxTransmitBeginsTheBreak := by
  intro s hmode hidle
  refine ⟨startCode :: slotImage s.fr.slots, ?_, by simp [slotImage_length], by simp, fun k hk => ?_⟩
  · rw [exec_dmxTransmit_of_free hmode hidle, beginTransmit, startSegment]
  · rw [List.getElem?_cons_succ, slotImage_getElem? _ hk]

/-- Settles O17: the mode is looked at first. -/
theorem dmxTransmitIsRefused : Obligations.DmxTransmitIsRefused :=
  fun _ => ⟨exec_dmxTransmit_of_receiver, exec_dmxTransmit_of_sending⟩

/-- Settles O18, by the mode the block has. -/
theorem dmxSetModeSwitches : Obligations.DmxSetModeSwitches := by
  intro s hidle
  refine ⟨fun hmode => ⟨?_, ?_⟩, fun hmode => ⟨?_, ?_⟩⟩
  · rw [exec_dmxSetMode_controller hidle, if_pos hmode]; rfl
  · rw [exec_dmxSetMode_receiver hidle, if_neg (by simp [hmode])]; rfl
  · rw [exec_dmxSetMode_receiver hidle, if_pos hmode]; rfl
  · rw [exec_dmxSetMode_controller hidle, if_neg (by simp [hmode])]; rfl

/-- Settles O19: the operand is looked at before the sequencer. -/
theorem dmxSetModeIsRefused : Obligations.DmxSetModeIsRefused :=
  fun s _ => ⟨fun h => exec_dmxSetMode_of_illegal h s, exec_dmxSetMode_of_sending⟩

/-- Settles O21: four bytes hold a 32-bit counter. -/
theorem dmxReadDiagReturnsTheCounter : Obligations.DmxReadDiagReturnsTheCounter := by
  intro s
  refine ⟨leEncode s.fr.diagCount.toNat 4, leEncode_length _ _, ?_, exec_dmxReadDiag s⟩
  rw [leDecode_leEncode]
  exact Nat.mod_eq_of_lt s.fr.diagCount.isLt

/-- Settles O22, segment by segment. -/
theorem sequencerFollowsTheFrame : Obligations.SequencerFollowsTheFrame := by
  intro s hquiet hchain hend
  have hstep : s.fr.tx ≠ .idle → step s = .next (txStep s) := fun hsending => step_txStep hquiet hchain hsending hend.le
  refine ⟨fun h => ?_, fun h => ?_, fun k h hk hgap => ?_, fun k h hk hgap => ?_, fun k h => ?_, fun a h ha => ?_⟩
  · rw [hstep (by simp [h]), txStep_of_brk h]; rfl
  · rw [hstep (by simp [h]), txStep_of_mab h]; rfl
  · rw [hstep (by simp [h]), txStep_of_byte h hk hgap]; rfl
  · rw [hstep (by simp [h]), txStep_of_byte_gap h hk hgap]; rfl
  · rw [hstep (by simp [h]), txStep_of_gap h]; rfl
  · rw [hstep (by simp [h]), txStep_of_last h, transmitDone, ha]; rfl

/-- Settles O15: a move other than the sequencer's leaves the frame as it is, and the sequencer's is taken at the end of a
segment, where it starts one that keeps the frame's end, or ends the frame. -/
theorem transmitEndIsFixedAtAcceptance : Obligations.TransmitEndIsFixedAtAcceptance := by
  refine ⟨fun s t hmode hidle hexec => ?_, fun s t hinv hstep hreset hsending => ?_⟩
  · rw [exec_dmxTransmit_of_free hmode hidle] at hexec
    cases hexec
    exact beginTransmit_frameEnd s
  · obtain hsame | ⟨hend, rfl⟩ := (step_move hstep).sameFrame hreset hsending
    · exact ⟨fun _ => ⟨hsame.frameEnd, hsame.txIssuer, hsame.txSnap⟩,
        fun hidle => absurd (hsame.tx.symm.trans hidle) hsending⟩
    · have hwaited := hostWaited_sameBlock s
      have hnow : s.now = s.fr.txSegEnd := le_antisymm (hinv.segment hsending) hend
      obtain ⟨a, ha⟩ : ∃ a, s.fr.txIssuer = some a :=
        Option.ne_none_iff_exists'.mp fun hn => hsending (hinv.waiting.mpr hn)
      have hsending' : (hostWaited s).fr.tx ≠ .idle := by simpa using hsending
      obtain ⟨seg, level, dur, hnext, htx⟩ | ⟨hlast, htx⟩ := txStep_cases hsending' (by simpa using hinv.segmentInRange)
      · rw [htx]
        refine ⟨fun _ => ⟨?_, ?_, ?_⟩, fun hidle => absurd hidle hnext.sending⟩
        · rw [startSegment_frameEnd hnext (by simpa using hnow), hwaited.sameFrame.frameEnd]
        · simp
        · simp
      · rw [htx, transmitDone, hostWaited_fr, ha]
        have hlast' : s.fr.tx = .byte 512 := by simpa using hlast
        refine ⟨fun hn => absurd rfl hn, fun _ => ⟨?_, ?_, rfl, a, rfl, ?_⟩⟩
        · simp [frameEndAt, hlast', segmentsAfter, hnow]
        · simp
        · simp [outcomeByte]

/-- Settles O23: the run by the segments still to come. -/
theorem transmitLastsFrameTime : Obligations.TransmitLastsFrameTime := by
  refine ⟨fun s t hquiet hfree hmode hidle hexec => ?_, rfl⟩
  rw [exec_dmxTransmit_of_free hmode hidle] at hexec
  cases hexec
  obtain ⟨u, ⟨n, hrun, hbefore⟩, hsent⟩ := (beginTransmit_sendingUntil hquiet hfree hmode).runs
  refine ⟨n, u, hrun, ?_, hsent.idle, hsent.level, hsent.slots, hsent.responses, hbefore⟩
  rw [hsent.now]
  rfl

end Sys2Proof.Proofs
end

section
/-! PROOFS. The DMX receive path (41_dmx_receiver.md): what a byte's samples give back, the parser's cells, the commit of a
frame, and the steps of the front end. -/

namespace Sys2Proof.Machine

/-! ## The samples of a byte (R101, R162) -/

theorem getLsbD_sampledByte {bits : List Bool} (hlen : bits.length = 9) {i : Nat} (hi : i < 8) :
    some ((sampledByte bits).getLsbD i) = bits[i + 1]? := by
  have hbit : (sampledByte bits).getLsbD i = ((bits.drop 1).take 8).getD i false := by
    rw [sampledByte, BitVec.getLsbD_ofNat, byteOfBits_testBit]
    simp [hi]
  have hrange : i + 1 < bits.length := by omega
  rw [hbit, List.getD_eq_getElem?_getD, List.getElem?_take_of_lt hi, List.getElem?_drop, Nat.add_comm 1 i,
    List.getElem?_eq_getElem hrange, Option.getD_some]

theorem byteLevel_eq_mark_iff (b : Byte) {i : Nat} (hi : i < 8) : byteLevel b (i + 1) = .mark ↔ b.getLsbD i = true := by
  have hdata : i + 1 ≤ 8 := hi
  simp only [byteLevel, Nat.add_one_ne_zero, if_false, hdata, if_true, Nat.add_sub_cancel, bitLevel]
  cases b.getLsbD i <;> simp

/-- The levels of a byte, sampled bit by bit, are the byte: sample `i + 1` is bit `i`. -/
theorem sampledByte_byteLevel (b : Byte) :
    sampledByte ((List.range 9).map fun j => decide (byteLevel b j = .mark)) = b := by
  apply BitVec.eq_of_getLsbD_eq
  intro i hi
  have hlen : ((List.range 9).map fun j => decide (byteLevel b j = .mark)).length = 9 := by simp
  have hbit := getLsbD_sampledByte hlen hi
  have hrange : i + 1 < 9 := by omega
  simpa [hrange, byteLevel_eq_mark_iff b hi] using hbit

/-! ## The steps of the front end -/

theorem sampleDueAt_of_sampler {s : State} {b : Sampler} (hmode : s.fr.mode = .receiver)
    (hb : s.fr.front.sampler = some b) : sampleDueAt s = some (sampleAt b) :=
  sampleDueAt_eq_some.mpr ⟨hmode, b, hb, rfl⟩

theorem breakDueAt_of_low {s : State} {tf : Nat} {d : Bool} (hmode : s.fr.mode = .receiver)
    (hrun : s.fr.front.run = .low tf d) : breakDueAt s = some (tf + s.cfg.rxBreakMinUs) :=
  breakDueAt_eq_some.mpr ⟨hmode, tf, d, hrun, rfl⟩

/-- A sample is taken at its instant where neither the engine nor the sequencer has a step due (log 19). -/
theorem step_takeSample {s : State} {b : Sampler} (hquiet : noInputDue s = true) (hchain : due s (chainDueAt s) = false)
    (htx : due s (txDueAt s) = false) (hmode : s.fr.mode = .receiver) (hb : s.fr.front.sampler = some b)
    (hnow : sampleAt b ≤ s.now) : step s = .next (takeSample b s) := by
  have hdue : due s (sampleDueAt s) = true := by simpa [sampleDueAt_of_sampler hmode hb, due] using hnow
  rw [step_internal hquiet, internalStep, hchain, htx, if_neg (by decide), if_neg (by decide), if_pos hdue,
    (no_input hquiet).2.1, sampleStep_of_sampler hb]

/-- A run is qualified as a break at its threshold where no other internal step is due (log 19). -/
theorem step_breakQualified {s : State} {tf : Nat} {d : Bool} (hquiet : noInputDue s = true)
    (hchain : due s (chainDueAt s) = false) (htx : due s (txDueAt s) = false) (hsample : due s (sampleDueAt s) = false)
    (hmode : s.fr.mode = .receiver) (hrun : s.fr.front.run = .low tf d) (hnow : tf + s.cfg.rxBreakMinUs ≤ s.now) :
    step s = .next (breakQualified tf s) := by
  have hdue : due s (breakDueAt s) = true := by simpa [breakDueAt_of_low hmode hrun, due] using hnow
  rw [step_internal hquiet, internalStep, hchain, htx, hsample, if_neg (by decide), if_neg (by decide),
    if_neg (by decide), if_pos hdue, (no_input hquiet).2.1, breakStep_of_low hrun]

/-- A falling edge with a byte in progress, or within the guard of the last one's start, begins a run only (R162). -/
theorem frontFall_of_guarded {f : FrontEnd} {now : Nat} (h : f.sampler ≠ none ∨ now < f.guard) :
    frontFall now f = { f with level := .space, run := .low now false } := by
  unfold frontFall
  split
  · rfl
  · rename_i hnone
    have hguard : ¬ f.guard ≤ now := by
      rcases h with hsome | hlt
      · exact absurd hnone hsome
      · omega
    rw [if_neg hguard]

/-- Else it begins a byte too (R162). -/
theorem frontFall_of_free {f : FrontEnd} {now : Nat} (hnone : f.sampler = none) (hguard : f.guard ≤ now) :
    frontFall now f = { level := .space, run := .low now false, sampler := some { start := now, bits := [] }
                        guard := now + 40 } := by
  simp [frontFall, hnone, hguard, tBit]

/-! ## The cells of the parser's table (R180) -/

section

variable {s : State}

theorem onSymbol_of_off (y : Symbol) (h : s.fr.rx = .off) : onSymbol y s = s := by
  cases y <;> simp [onSymbol, onBreak, onRise, onByte, onFramingError, onMabEnd, h]

theorem onBreak_of_seeking (h : s.fr.rx = .waitBreak ∨ s.fr.rx = .discard) : onSymbol .brk s = rxGoto .inBreak s := by
  rcases h with h | h <;> simp [onSymbol, onBreak, h]

theorem onBreak_of_startCode (h : s.fr.rx = .startCode) : onSymbol .brk s = rxDrop .inBreak s := by
  simp [onSymbol, onBreak, h]

theorem onBreak_of_slots (h : s.fr.rx = .slots) : onSymbol .brk s =
    if s.fr.rxBuf ≠ [] ∨ s.cfg.acceptZeroSlotFrame = true then rxCommit s else rxDrop .inBreak s := by
  simp only [onSymbol, onBreak, h]

theorem onRise_of_inBreak (h : s.fr.rx = .inBreak) (t : Nat) :
    onSymbol (.rise t) s = { s with fr := { s.fr with rx := .mab, rxMarkStart := t } } := by
  simp [onSymbol, onRise, h]

theorem onRise_of_not_inBreak (h : s.fr.rx ≠ .inBreak) (t : Nat) : onSymbol (.rise t) s = s := by
  simp only [onSymbol, onRise]
  cases hrx : s.fr.rx with
  | inBreak => exact absurd hrx h
  | off | waitBreak | mab | startCode | slots | discard => rfl

theorem onByte_of_startCode (h : s.fr.rx = .startCode) (b : Byte) :
    onSymbol (.byte b) s = if b = startCode then rxGoto .slots s else rxDrop .discard s := by
  simp only [onSymbol, onByte, h]

theorem onByte_of_slots (h : s.fr.rx = .slots) (b : Byte) : onSymbol (.byte b) s =
    if s.fr.rxBuf.length < 512 then { s with fr := { s.fr with rxBuf := s.fr.rxBuf ++ [b] } } else rxDrop .discard s := by
  simp [onSymbol, onByte, h]

theorem onByte_of_seeking (h : s.fr.rx = .waitBreak ∨ s.fr.rx = .discard) (b : Byte) : onSymbol (.byte b) s = s := by
  rcases h with h | h <;> simp [onSymbol, onByte, h]

theorem onFramingError_of_frame (h : s.fr.rx = .startCode ∨ s.fr.rx = .slots) :
    onSymbol .framingError s = rxDrop .discard s := by
  rcases h with h | h <;> simp [onSymbol, onFramingError, h]

theorem onFramingError_of_seeking (h : s.fr.rx = .waitBreak ∨ s.fr.rx = .discard) : onSymbol .framingError s = s := by
  rcases h with h | h <;> simp [onSymbol, onFramingError, h]

theorem onMabEnd_of_mab (h : s.fr.rx = .mab) (t : Nat) : onSymbol (.mabEnd t) s =
    if t - s.fr.rxMarkStart < s.cfg.rxMabMinUs then rxDrop .discard s
    else { s with fr := { s.fr with rx := .startCode } } := by
  simp only [onSymbol, onMabEnd, h]

theorem onMabEnd_of_not_mab (h : s.fr.rx ≠ .mab) (t : Nat) : onSymbol (.mabEnd t) s = s := by
  simp only [onSymbol, onMabEnd]
  cases hrx : s.fr.rx with
  | mab => exact absurd hrx h
  | off | waitBreak | inBreak | startCode | slots | discard => rfl

/-- The commit of an empty buffer writes and notifies nothing (R172). -/
theorem rxCommit_of_nil (h : s.fr.rxBuf = []) : rxCommit s = rxGoto .inBreak s := by
  simp [rxCommit, rxGoto, h, commitSlots, commitNotes]

end

end Sys2Proof.Machine

namespace Sys2Proof.Proofs

open Sys2Proof.Machine

/-- Settles O24: sample `i + 1` of a byte is its bit `i`, and a sample that is due is taken by its number and level. -/
theorem bytesAreSampledAndReported : Obligations.BytesAreSampledAndReported := by
  refine ⟨fun b => ⟨rfl, rfl, rfl, sampledByte_byteLevel b⟩, fun bits hlen i hi => getLsbD_sampledByte hlen hi,
    fun s b hquiet hchain htx hmode hb hnow => ?_⟩
  have hstep : step s = .next (takeSample b s) := step_takeSample hquiet hchain htx hmode hb hnow.ge
  have hlast : b.bits.length = 9 → ¬ b.bits.length < 9 := fun h => by omega
  refine ⟨fun hbits hlevel => ?_, fun hlen hreal => ?_, fun hlen hlevel => ?_, fun hlen hlevel => ⟨fun d hrun => ?_,
    fun hrun => ?_⟩⟩
  · rw [hstep, takeSample_glitch hbits hlevel]; rfl
  · rw [hstep, takeSample_more hlen hreal]; rfl
  · rw [hstep, takeSample_byte (hlast hlen) hlevel]; rfl
  · rw [hstep, takeSample_deferred (hlast hlen) hlevel (stillLow_iff.mpr ⟨d, hrun⟩)]; rfl
  · have hlow : stillLow b.start s.fr.front.run = false := by
      rw [Bool.eq_false_iff, ne_eq, stillLow_iff]
      exact fun ⟨d, hd⟩ => hrun d hd
    rw [hstep, takeSample_error (hlast hlen) hlevel hlow]; rfl

/-- Settles O25, by the laws of the commit. -/
theorem receiveCommitStoresTheFrame : Obligations.ReceiveCommitStoresTheFrame := by
  intro s hrx hbuf hlen hwf
  have hfit : 1 + s.fr.rxBuf.length ≤ nSlots + 1 := by simp only [nSlots]; omega
  refine ⟨commitSlots 1 s.fr.rxBuf s.fr.slots, ?_, commitSlots_wf _ _ _ hwf le_rfl hfit, fun k hk => ?_, fun a ha => ?_⟩
  · rw [onBreak_of_slots hrx, if_pos (.inl hbuf), rxCommit, commitNotes_eq]
    simp only [Nat.add_comm 1]
  · rw [slotRead_commitSlots _ _ _ _ hwf le_rfl hfit (by omega), Nat.add_sub_cancel]
    simp [List.getD_eq_getElem?_getD, hk]
  · rcases ha with rfl | ha
    · exact slotRead_commitSlots_below _ _ _ _ (by omega)
    · rw [slotRead_commitSlots _ _ _ _ hwf le_rfl hfit (by omega), List.getD_eq_default _ _ (by omega)]

/-- Settles O26, cell by cell. -/
theorem malformedFrameIsDroppedAndCounted : Obligations.MalformedFrameIsDroppedAndCounted := by
  intro s
  refine ⟨fun b hrx hb => ?_, fun t hrx hshort => ?_, fun hrx => ?_, fun hrx => ?_, fun b hrx hlen => ?_,
    fun hrx hbuf hzero => ?_⟩
  · rw [onByte_of_startCode hrx, if_neg hb]; rfl
  · rw [onMabEnd_of_mab hrx, if_pos hshort]; rfl
  · rw [onBreak_of_startCode hrx]; rfl
  · rw [onFramingError_of_frame hrx]; rfl
  · rw [onByte_of_slots hrx, if_neg (by omega)]; rfl
  · rw [onBreak_of_slots hrx, if_neg (by simp [hbuf, hzero])]; rfl

/-- Settles O27, cell by cell. -/
theorem parserFollowsTheTable : Obligations.ParserFollowsTheTable := by
  intro s
  refine ⟨fun y => onSymbol_of_off y, fun b t hrx => ⟨onByte_of_seeking hrx b, onFramingError_of_seeking hrx, ?_,
    onBreak_of_seeking hrx⟩, fun t hrx => ?_, fun t hrx => ?_, fun t hrx => onRise_of_inBreak hrx t, fun t hrx hlong => ?_,
    fun hrx => ?_, fun b hrx hlen => ?_, fun hrx hbuf hzero => ?_⟩
  · exact onRise_of_not_inBreak (by rcases hrx with h | h <;> simp [h]) t
  · exact onMabEnd_of_not_mab (by rcases hrx with h | h | h | h <;> simp [h]) t
  · exact onRise_of_not_inBreak (by rcases hrx with h | h | h <;> simp [h]) t
  · rw [onMabEnd_of_mab hrx, if_neg (by omega)]
  · rw [onByte_of_startCode hrx, if_pos rfl]; rfl
  · rw [onByte_of_slots hrx, if_pos hlen]
  · rw [onBreak_of_slots hrx, if_pos (.inr hzero), rxCommit_of_nil hbuf]; rfl

/-- Settles O28: the threshold's step, and the edges by mode, level and the run they begin or end. -/
theorem lowRunsAreClassified : Obligations.LowRunsAreClassified := by
  refine ⟨fun tf => ⟨rfl, fun b => rfl⟩, fun s tf d hquiet hchain htx hsample hmode hrun hnow => ?_,
    fun s level rest hnext => ?_⟩
  · rw [step_breakQualified hquiet hchain htx hsample hmode hrun hnow.ge]; rfl
  · have hstep : ∀ {t}, dmxEdge level { s with lineIn := rest } = t → step s = .next t :=
      fun h => (step_line hnext).trans (congrArg _ h)
    refine ⟨fun hsame => ?_, fun hedge hmode => ?_, fun hmark hspace hmode => ?_, fun hspace hmark hmode => ?_⟩
    · exact hstep (dmxEdge_same hsame)
    · exact hstep (dmxEdge_controller hedge hmode)
    · subst hspace
      have hfall := @dmxEdge_fall { s with lineIn := rest } hmark hmode
      refine ⟨fun hnone hguard => hstep (hfall.trans ?_), fun hguarded => hstep (hfall.trans ?_)⟩
      · rw [frontFall_of_free hnone hguard]; rfl
      · rw [frontFall_of_guarded hguarded]; rfl
    · subst hmark
      have hrise := @dmxEdge_rise { s with lineIn := rest } hspace hmode
      exact ⟨fun hrun => hstep (hrise.trans (runEnds_of_none hrun)),
        fun tf hrun => hstep (hrise.trans (runEnds_of_brk hrun)),
        fun tf hrun hshort => hstep (hrise.trans (runEnds_of_short hrun hshort)),
        fun tf hrun hshort => hstep (hrise.trans (runEnds_of_deferred hrun hshort)),
        fun tf d hrun hlong => hstep (hrise.trans (runEnds_of_long hrun hlong))⟩

end Sys2Proof.Proofs
end

section
/-! PROOFS. The chain engine step by step: the start of each bus command and its checks, the write, the window, the deadline,
and the completion of calls and walks (42_chain_transaction.md, 43_chain_registry.md, 60_exceptions.md R284). -/

namespace Sys2Proof.Machine

/-! ## The acceptance of a bus command (R200, R230, R235, R237, R284) -/

section

variable {s : State} {index reg width : Byte}

theorem chainBusy_of_busy (h : s.ch.op ≠ .none) : chainBusy s = true := by simp [chainBusy, h]

theorem exec_chSend_of_long {len : Half} (h : 255 < len.toNat) (code : Byte) (p : List Byte) :
    exec (.chSend index code len p) s = .next (raiseOutcome .outOfRange s) := by
  rw [exec, execChSend, if_pos h]

theorem exec_chSend_of_busy {len : Half} (hlen : len.toNat ≤ 255) (hbusy : s.ch.op ≠ .none) (code : Byte) (p : List Byte) :
    exec (.chSend index code len p) s = .next (raiseOutcome .busBusy s) := by
  rw [exec, execChSend, if_neg (by omega), if_pos (chainBusy_of_busy hbusy)]

theorem exec_chReadReg_of_busy (hbusy : s.ch.op ≠ .none) :
    exec (.chReadReg index reg) s = .next (raiseOutcome .busBusy s) := by
  rw [exec, execChReadReg, if_pos (chainBusy_of_busy hbusy)]

theorem exec_chReadReg_of_free (hfree : s.ch.op = .none) (hfresh : isStale s index = false) :
    exec (.chReadReg index reg) s =
      .next (startRequest index readCode (readPayload reg) s.cfg.retryCount (claimEngine .readReg s)) := by
  simp [exec, execChReadReg, chainBusy_of_free hfree, hfresh]

theorem exec_chWriteReg_of_illegal (h : width.toNat = 0 ∨ 4 < width.toNat) (v : List Byte) :
    exec (.chWriteReg index reg width v) s = .next (raiseOutcome .outOfRange s) := by
  rw [exec, execChWriteReg, if_pos (by omega)]

theorem exec_chWriteReg_of_busy (hlow : 1 ≤ width.toNat) (hhigh : width.toNat ≤ 4) (hbusy : s.ch.op ≠ .none)
    (v : List Byte) : exec (.chWriteReg index reg width v) s = .next (raiseOutcome .busBusy s) := by
  rw [exec, execChWriteReg, if_neg (by omega), if_pos (chainBusy_of_busy hbusy)]

theorem exec_chWriteReg_of_free (hlow : 1 ≤ width.toNat) (hhigh : width.toNat ≤ 4) (hfree : s.ch.op = .none)
    (hfresh : isStale s index = false) (v : List Byte) : exec (.chWriteReg index reg width v) s =
      .next (startRequest index writeCode (writePayload reg v) s.cfg.retryCount (claimEngine .writeReg s)) := by
  rw [exec, execChWriteReg, if_neg (by omega)]
  simp [chainBusy_of_free hfree, hfresh]

theorem exec_chEnumerate_of_busy (hbusy : s.ch.op ≠ .none) : exec .chEnumerate s = .next (raiseOutcome .busBusy s) := by
  rw [exec, execChEnumerate, if_pos (chainBusy_of_busy hbusy)]

theorem exec_chEnumerate_of_free (hfree : s.ch.op = .none) :
    exec .chEnumerate s = .next (beginEnumeration (claimEngine .enumerate s)) := by
  simp [exec, execChEnumerate, chainBusy_of_free hfree]

end

/-! ## A byte on the chain line (R205 to R207) -/

theorem chainByteArrives_of_sent {s : State} (h : s.ch.state = .sent) (b : Byte) : chainByteArrives b s = s := by
  rw [chainByteArrives, if_pos h]

theorem chainByteArrives_of_open {s : State} (h : windowOpen s = true) (b : Byte) :
    chainByteArrives b s = takeByte b s := by
  have hsent : s.ch.state ≠ .sent := fun hs => nomatch hs.symm.trans (windowOpen_iff.mp h).1
  rw [chainByteArrives, if_neg hsent, if_pos h]

theorem chainByteArrives_of_closed {s : State} (hsent : s.ch.state ≠ .sent) (h : ¬ windowOpen s = true) (b : Byte) :
    chainByteArrives b s = { s with chp := { s.chp with unread := s.chp.unread ++ [b] } } := by
  rw [chainByteArrives, if_neg hsent, if_neg h]

theorem takeByte_of_incomplete {s : State} {b : Byte} (h : frameComplete (s.ch.rx ++ [b]) = false) :
    takeByte b s = { s with ch := { s.ch with rx := s.ch.rx ++ [b] } } := by
  simp [takeByte, h]

theorem takeByte_of_complete {s : State} {b : Byte} (h : frameComplete (s.ch.rx ++ [b]) = true) :
    takeByte b s = requestEnded (validateFrame { s with ch := { s.ch with rx := s.ch.rx ++ [b] } }) := by
  simp [takeByte, h]

theorem checksumValid_iff {rx : List Byte} : checksumValid rx = true ↔
    rx.getD (3 + frameLen rx) 0x00#8 = xorFold (rx.take (3 + frameLen rx)) := by
  simp [checksumValid]

theorem validated_of_wrong_checksum {rx : List Byte} (h : ¬ checksumValid rx = true) (index : Byte) :
    validated rx index = .checksumError := by
  rw [validated, if_neg h]

theorem validated_of_wrong_echo {rx : List Byte} {index : Byte} (h : checksumValid rx = true)
    (hecho : (frameFields rx).dest ≠ index) : validated rx index = .addressMismatch := by
  rw [validated, if_pos h, if_neg hecho]

theorem validated_of_valid {rx : List Byte} {index : Byte} (h : checksumValid rx = true)
    (hecho : (frameFields rx).dest = index) : validated rx index = .completed := by
  rw [validated, if_pos h, if_pos hecho]

/-- The frame that completes at byte `b`, its end state known (R207). -/
theorem takeByte_of_validated {s : State} {b : Byte} {st : ReqState} (h : frameComplete (s.ch.rx ++ [b]) = true)
    (hst : validated (s.ch.rx ++ [b]) s.ch.index = st) : takeByte b s = requestEnded { s with ch := { s.ch with
      rx := s.ch.rx ++ [b], state := st
      resp := if st = .completed then some (frameFields (s.ch.rx ++ [b])) else s.ch.resp } } := by
  subst hst
  exact takeByte_of_complete h

/-! ## The end of a call (R209, R210, R240) -/

theorem outcomeOfState_eq_timeout_iff {st : ReqState} : outcomeOfState st = .timeout ↔ st = .timedOut := by
  cases st <;> simp [outcomeOfState]

theorem callResult_of_failure (s : State) {o : OutcomeCode} (h : o ≠ .ok) : callResult s o = (o, [outcomeByte o]) := by
  simp [callResult, h]

theorem callResult_of_send {s : State} (h : s.ch.op = .send) : callResult s .ok = (.ok, 0x00#8 :: s.ch.rx) := by
  simp [callResult, h, outcomeByte]

section

variable {s : State} {r : ResponseFrame}

theorem callResult_of_unitStatus (hresp : s.ch.resp = some r) (hop : s.ch.op = .readReg ∨ s.ch.op = .writeReg)
    (hstatus : r.status ≠ s.cfg.stSuccess) : callResult s .ok = (.unitStatus, [0x06#8, r.status]) := by
  rcases hop with hop | hop <;> simp [callResult, hresp, hop, hstatus, outcomeByte]

theorem callResult_of_write (hresp : s.ch.resp = some r) (hop : s.ch.op = .writeReg)
    (hstatus : r.status = s.cfg.stSuccess) : callResult s .ok = (.ok, [0x00#8]) := by
  simp [callResult, hresp, hop, hstatus, outcomeByte]

theorem callResult_of_badPayload (hresp : s.ch.resp = some r) (hop : s.ch.op = .readReg)
    (hstatus : r.status = s.cfg.stSuccess) (hpayload : r.payload = [] ∨ 4 < r.payload.length) :
    callResult s .ok = (.badPayload, [0x07#8]) := by
  have hnot : ¬ (1 ≤ r.payload.length ∧ r.payload.length ≤ 4) := by
    rcases hpayload with hnil | hlong
    · simp [hnil]
    · omega
  simp only [callResult, hresp, hop, Option.getD_some, hstatus, ne_eq, not_true, if_false, if_neg hnot, outcomeByte]

theorem callResult_of_read (hresp : s.ch.resp = some r) (hop : s.ch.op = .readReg)
    (hstatus : r.status = s.cfg.stSuccess) (hpayload : 1 ≤ r.payload.length ∧ r.payload.length ≤ 4) :
    callResult s .ok =
      (.ok, 0x00#8 :: BitVec.ofNat 8 r.payload.length :: leEncode (leDecode r.payload) 4) := by
  simp only [callResult, hresp, hop, Option.getD_some, hstatus, ne_eq, not_true, if_false, if_pos hpayload, outcomeByte]

end

/-- A value of at most four bytes is kept by the four of the response (R236). -/
theorem leDecode_widened {p : List Byte} (h : p.length ≤ 4) : leDecode (leEncode (leDecode p) 4) = leDecode p := by
  rw [leDecode_leEncode]
  exact Nat.mod_eq_of_lt ((leDecode_lt p).trans_le (Nat.pow_le_pow_right (by decide) h))

theorem requestEnded_of_call {s : State} (h : s.ch.op = .send ∨ s.ch.op = .readReg ∨ s.ch.op = .writeReg) :
    requestEnded s = finishCall s := by
  rcases h with h | h | h <;> simp [requestEnded, h]

theorem requestEnded_of_enumerate {s : State} (h : s.ch.op = .enumerate) : requestEnded s = pingDone s := by
  simp [requestEnded, h]

/-- The outcome and the response a call ends with, for the agent that waits. -/
theorem finishCall_answer {s : State} {a : Agent} (h : s.ch.issuer = some a) :
    (finishCall s).ch.lastOutcome = outcomeByte (callResult s (outcomeOfState s.ch.state)).1 ∧
      (finishCall s).port = { s.port with responses := s.port.responses ++
        [{ agent := a, time := s.now, bytes := (callResult s (outcomeOfState s.ch.state)).2 }] } := by
  simp [finishCall, h]

theorem finishCall_runs (s : State) (j : Byte) :
    timeoutRun (finishCall s) j = timeoutRun (updateStale s.ch.index (outcomeOfState s.ch.state) s) j ∧
      isStale (finishCall s) j = isStale (updateStale s.ch.index (outcomeOfState s.ch.state) s) j := by
  simp [finishCall, timeoutRun, isStale]

/-- What a call's end leaves as it is. -/
theorem finishCall_rest {s : State} {a : Agent} (h : s.ch.issuer = some a) :
    ∃ (runs : Vector Nat 256) (marks : Vector Bool 256), finishCall s = { s with
      ch := { s.ch with
        toRun := runs, stale := marks, op := .none, issuer := none, lastOutcome := (finishCall s).ch.lastOutcome }
      port := (finishCall s).port } := by
  obtain ⟨runs, marks, hu⟩ := updateStale_frame s.ch.index (outcomeOfState s.ch.state) s
  refine ⟨runs, marks, ?_⟩
  rw [finishCall, h, hu]
  rfl

/-! ## The end of a walk (R233) -/

/-- Byte `3 k + j` of the units' bytes is byte `j` of unit `k` (R96). -/
theorem getElem?_flatMap_unitBytes {us : List ChainUnit} {k : Nat} {u : ChainUnit} (h : us[k]? = some u) {j : Nat}
    (hj : j < 3) : (us.flatMap unitBytes)[3 * k + j]? = (unitBytes u)[j]? := by
  induction us generalizing k with
  | nil => cases h
  | cons w us ih =>
    have hlen : (unitBytes w).length = 3 := rfl
    cases k with
    | zero =>
      obtain rfl : w = u := by simpa using h
      rw [List.flatMap_cons, Nat.mul_zero, Nat.zero_add, List.getElem?_append_left (by omega)]
    | succ k =>
      rw [List.flatMap_cons, List.getElem?_append_right (by omega), ← ih (by simpa using h)]
      congr 1
      omega

theorem length_flatMap_unitBytes (us : List ChainUnit) : (us.flatMap unitBytes).length = 3 * us.length := by
  induction us with
  | nil => rfl
  | cons u us ih =>
    have hlen : (unitBytes u).length = 3 := rfl
    rw [List.flatMap_cons, List.length_append, ih, hlen, List.length_cons]
    omega

end Sys2Proof.Machine

namespace Sys2Proof.Proofs

open Sys2Proof.Machine

/-- Settles O29. -/
theorem chSendStartsTheRequest : Obligations.ChSendStartsTheRequest :=
  fun _ index code _ p hlen hfree => exec_chSend_of_free hfree hlen index code p

/-- Settles O30. -/
theorem chReadRegSendsARead : Obligations.ChReadRegSendsARead :=
  fun _ _ _ hfree hfresh => exec_chReadReg_of_free hfree hfresh

/-- Settles O31. -/
theorem chWriteRegSendsAWrite : Obligations.ChWriteRegSendsAWrite :=
  fun _ _ _ _ v hlow hhigh hfree hfresh => exec_chWriteReg_of_free hlow hhigh hfree hfresh v

/-- Settles O32. -/
theorem chEnumerateStartsTheWalk : Obligations.ChEnumerateStartsTheWalk :=
  fun _ hfree => exec_chEnumerate_of_free hfree

/-- Settles O33, check by check in R284's order. -/
theorem chainChecksComeInOrder : Obligations.ChainChecksComeInOrder := by
  intro s index code reg width len p
  refine ⟨fun hlong => ?_, fun hwidth => ?_, fun hbusy => ⟨fun hlen => ?_, ?_, fun hlow hhigh => ?_, ?_⟩,
    fun hfree hstale => ⟨?_, fun hlow hhigh => ?_⟩⟩
  · exact exec_chSend_of_long hlong code p
  · exact exec_chWriteReg_of_illegal hwidth p
  · exact exec_chSend_of_busy hlen hbusy code p
  · exact exec_chReadReg_of_busy hbusy
  · exact exec_chWriteReg_of_busy hlow hhigh hbusy p
  · exact exec_chEnumerate_of_busy hbusy
  · exact exec_chReadReg_of_stale hfree hstale reg
  · exact exec_chWriteReg_of_stale hfree hstale hlow hhigh reg p

/-- Settles O39: the draw of the write is used up, and nothing else of the port. -/
theorem writeCompletionOpensTheWindow : Obligations.WriteCompletionOpensTheWindow := by
  intro s hquiet hsent hnow
  refine ⟨nextDraw s.chp, rfl, rfl, rfl, ?_⟩
  rw [step_chainStep hquiet (chainDueAt_of_sent hsent) hnow.ge, chainStep_of_sent hsent, writeDone]

/-- Settles O40, by the window. -/
theorem chainByteGoesWhereTheWindowSays : Obligations.ChainByteGoesWhereTheWindowSays := by
  intro s b rest hnext
  have hstep : ∀ {t}, chainByteArrives b { s with lineIn := rest } = t → step s = .next t :=
    fun h => (step_line hnext).trans (congrArg _ h)
  refine ⟨fun hsent => ?_, fun hawaiting hnow hrx hmore => ?_, fun ⟨hsent, hclosed⟩ => ?_⟩
  · exact hstep (@chainByteArrives_of_sent { s with lineIn := rest } hsent b)
  · have hopen : windowOpen { s with lineIn := rest } = true := windowOpen_iff.mpr ⟨hawaiting, hnow, hrx⟩
    exact hstep ((chainByteArrives_of_open hopen b).trans (takeByte_of_incomplete hmore))
  · have hnot : ¬ windowOpen { s with lineIn := rest } = true := by
      intro hopen
      obtain ⟨hawaiting, hnow, -⟩ := windowOpen_iff.mp hopen
      rcases hclosed with hne | hlate
      · exact hne hawaiting
      · exact absurd hnow (Nat.not_le.mpr hlate)
    exact hstep (@chainByteArrives_of_closed { s with lineIn := rest } hsent hnot b)

/-- Settles O41: the completing byte validates the frame, checksum first. -/
theorem completeFrameIsValidatedAtOnce : Obligations.CompleteFrameIsValidatedAtOnce := by
  intro s b rest hnext hawaiting hnow hrx hcomplete
  have hopen := @chainByteArrives_of_open { s with lineIn := rest } (windowOpen_iff.mpr ⟨hawaiting, hnow, hrx⟩) b
  have hstep : ∀ {t}, takeByte b { s with lineIn := rest } = t → step s = .next t :=
    fun h => (step_line hnext).trans (congrArg _ (hopen.trans h))
  refine ⟨fun hsum => ?_, fun hsum hecho => ?_, fun hsum hecho => ?_⟩
  · have hst := validated_of_wrong_checksum (mt checksumValid_iff.mp hsum) s.ch.index
    exact hstep (takeByte_of_validated hcomplete hst)
  · have hst := validated_of_wrong_echo (checksumValid_iff.mpr hsum) hecho
    exact hstep (takeByte_of_validated hcomplete hst)
  · have hst := validated_of_valid (checksumValid_iff.mpr hsum) hecho
    exact hstep (takeByte_of_validated hcomplete hst)

/-- Settles O42: the call's answer is `callResult`'s, its run and mark are those of stale counting. -/
theorem callCompletionAnswersTheIssuer : Obligations.CallCompletionAnswersTheIssuer := by
  intro s a hop hissuer
  dsimp only
  rw [requestEnded_of_call hop]
  have hanswer := finishCall_answer hissuer
  have hfailed : ∀ o, outcomeOfState s.ch.state = o → o ≠ .ok → (finishCall s).ch.lastOutcome = outcomeByte o ∧
      (finishCall s).port = { s.port with responses := s.port.responses ++
        [{ agent := a, time := s.now, bytes := [outcomeByte o] }] } := by
    rintro _ rfl ho
    simpa only [callResult_of_failure s ho] using hanswer
  obtain ⟨hothers, htimeout, hother⟩ := staleCountingFollowsTimeouts s s.ch.index (outcomeOfState s.ch.state)
  simp only [(finishCall_runs s _).1, (finishCall_runs s _).2]
  refine ⟨finishCall_rest hissuer, hanswer, fun hst => hfailed .timeout (by rw [hst]; rfl) (by decide),
    fun hst => hfailed .checksumMismatch (by rw [hst]; rfl) (by decide),
    fun hst => hfailed .addressMismatch (by rw [hst]; rfl) (by decide),
    fun hst => ⟨by rw [hst]; rfl, fun hsend => ?_⟩, hothers,
    fun hst => htimeout (outcomeOfState_eq_timeout_iff.mpr hst),
    fun hst => hother (mt outcomeOfState_eq_timeout_iff.mp hst)⟩
  have hok : outcomeOfState s.ch.state = .ok := by rw [hst]; rfl
  rw [hok, callResult_of_send hsend] at hanswer
  exact hanswer

/-- Settles O43, by the outcome, the command and the response. -/
theorem callResultsFollowTheResponse : Obligations.CallResultsFollowTheResponse := by
  refine ⟨rfl, fun s r hresp => ⟨fun o ho => callResult_of_failure s ho, callResult_of_send,
    callResult_of_unitStatus hresp, callResult_of_write hresp, callResult_of_badPayload hresp,
    fun hop hstatus hne hlen => ?_⟩⟩
  have hpos : 1 ≤ r.payload.length := List.length_pos_iff.mpr hne
  exact ⟨_, _, ofNat_length_toNat (by omega), leEncode_length _ 4, leDecode_widened hlen,
    callResult_of_read hresp hop hstatus ⟨hpos, hlen⟩⟩

/-- Settles O44, by the three branches of R208. -/
theorem deadlineRetriesThenTimesOut : Obligations.DeadlineRetriesThenTimesOut := by
  intro s hquiet hawaiting hrx hnow
  have hstep : step s = .next (deadlineStep s) := by
    rw [step_chainStep hquiet (chainDueAt_of_awaiting hawaiting hrx) hnow.ge, chainStep_of_awaiting hawaiting]
  refine ⟨fun hpartial => ?_, fun hpartial hretry => ?_, fun hpartial hlast => ?_⟩
  · rw [hstep, deadlineStep_of_partial hpartial, endRequest]
  · rw [hstep, deadlineStep_of_retry hpartial hretry]; rfl
  · rw [hstep, deadlineStep_of_last hpartial hlast, endRequest]

/-- Settles O47, by how the ping ended and by the cursor. -/
theorem pingCompletionWalksOn : Obligations.PingCompletionWalksOn := by
  intro s hop
  dsimp only
  rw [requestEnded_of_enumerate hop]
  refine ⟨fun r hst hresp hstatus => ?_, fun r hst hresp hstatus => ?_, fun hst => ?_, fun hmore => ?_, fun hlast => ?_⟩
  · simp [pingFound, hresp, hst, hstatus]
  · simp [pingFound, hresp, hstatus]
  · unfold pingFound
    split <;> simp [hst]
  · simp only [pingDone, if_pos hmore]
  · simp only [pingDone, if_neg (Nat.not_lt.mpr hlast)]

/-- Settles O48: the body is the units' bytes, three each. -/
theorem enumerationEndReplacesTheRegistry : Obligations.EnumerationEndReplacesTheRegistry := by
  intro s a hissuer
  refine ⟨s.ch.enumAcc.flatMap unitBytes, ?_, fun i => ?_, length_flatMap_unitBytes _, fun k u hu => ⟨?_, ?_, ?_⟩⟩
  · rw [finishEnumeration, hissuer]; rfl
  · simp [isStale, timeoutRun]
  · exact getElem?_flatMap_unitBytes hu (Nat.zero_lt_succ 2)
  · rw [getElem?_flatMap_unitBytes hu (by decide), unitBytes]
    cases u.capability <;> rfl
  · rw [getElem?_flatMap_unitBytes hu (by decide), unitBytes]
    cases u.capability <;> rfl

/-- Settles O59, field by field of the table. -/
theorem resetValuesAreThoseOfTheTable : Obligations.ResetValuesAreThoseOfTheTable := by
  refine ⟨reset_slotRead, rfl, rfl, rfl, rfl, rfl, rfl, rfl, rfl, rfl, rfl, rfl, rfl, rfl, rfl, rfl, rfl, rfl, rfl, rfl,
    rfl, rfl, rfl, rfl, rfl, rfl, rfl, fun i => ?_, rfl, rfl⟩
  simp [timeoutRun, isStale, State.reset, Chain.reset]

/-- Settles O60: the step is `resetBlock`, which writes the fields of the reset state. -/
theorem resetInputRestoresTheTable : Obligations.ResetInputRestoresTheTable :=
  fun _ _ hnext => ⟨_, step_line hnext, rfl, rfl, rfl, rfl, rfl, rfl⟩

end Sys2Proof.Proofs
end

section
/-! PROOFS. A call to a unit that never answers: the run from its acceptance to its Timeout, whatever the write durations
(42_chain_transaction.md R203, R204, R208, R213). -/

namespace Sys2Proof.Machine

/-- Nothing but the chain engine has anything to do: no input to come, the receiver off, no frame on the DMX line. -/
structure OnlyEngine (s : State) : Prop where
  quiet : noInputs s = true
  idle : s.fr.tx = .idle
  mode : s.fr.mode = .controller

theorem OnlyEngine.congr {s t : State} (h : OnlyEngine s) (hport : t.port.inputs = s.port.inputs)
    (hline : t.lineIn = s.lineIn) (hfr : t.fr = s.fr) : OnlyEngine t where
  quiet := by
    rw [noInputs_iff, hport, hline]
    exact noInputs_iff.mp h.quiet
  idle := by rw [hfr]; exact h.idle
  mode := by rw [hfr]; exact h.mode

section

variable {P : State → Prop} {s u : State} {p : Nat}

/-- Time goes to the engine's instant, in one step or in none. -/
theorem OnlyEngine.waits (h : OnlyEngine s) (hdue : chainDueAt s = some p) (hnow : s.now ≤ p) (hP : P s)
    (hrest : RunsTo P { s with now := p } u) : RunsTo P s u := by
  have hpending : pending s = [p] := by
    rw [pending_of_noInputs h.quiet h.mode, hdue, txDueAt_of_idle h.idle]; rfl
  have hthere : advanceTime s = { s with now := p } := by
    have hlevel : lineLevel p s.fr = s.fr.dmxTx := lineLevel_of_not_byte (by simp [h.idle]) p
    rw [advanceTime_of_pending hpending, hlevel]
  rcases Nat.lt_or_eq_of_le hnow with hbefore | rfl
  · have hahead : ∀ q ∈ pending s, s.now < q := by simpa [hpending] using hbefore
    exact hrest.head hP (hthere ▸ step_of_pending_ahead hahead)
  · exact hrest

/-- The engine's step, at its instant. -/
theorem OnlyEngine.moves (h : OnlyEngine s) (hdue : chainDueAt s = some p) (hnow : s.now = p) (hP : P s)
    (hrest : RunsTo P (chainStep s) u) : RunsTo P s u :=
  hrest.head hP (step_chainStep (noInputDue_of_noInputs h.quiet) hdue hnow.ge)

end

/-- The instant at which the window of the attempt started in `s` closes, with nothing received (R204, R265). -/
def windowEnd (s : State) : Nat := writeEnd s + s.cfg.timeoutMs * 1000

/-- The engine at that instant. -/
def silentAttempt (s : State) : State :=
  { s with
    now := windowEnd s
    ch := { s.ch with txEn := false, state := .awaitingResponse, deadline := windowEnd s }
    chp := nextDraw s.chp }

/-- A call of agent `a` whose attempt has just started, with nobody to answer it. -/
structure SilentCall (a : Agent) (s : State) : Prop extends OnlyEngine s where
  kind : s.ch.op = .send ∨ s.ch.op = .readReg ∨ s.ch.op = .writeReg
  issuer : s.ch.issuer = some a
  sent : s.ch.state = .sent
  rx : s.ch.rx = []
  start : s.chp.writeStart = s.now

section

variable {a : Agent} {s u : State}

/-- One attempt with no answer: the write, then the whole window, then the deadline's step (R204, R208). -/
theorem SilentCall.attempt_runs {P : State → Prop} (h : SilentCall a s) (hP : ∀ v : State, v.ch.op = s.ch.op → P v)
    (hrest : RunsTo P (deadlineStep (silentAttempt s)) u) : RunsTo P s u := by
  have hwrite : s.now ≤ writeEnd s := by rw [writeEnd, h.start]; exact Nat.le_add_right _ _
  refine h.waits (chainDueAt_of_sent h.sent) hwrite (hP s rfl) ?_
  generalize hw : { s with now := writeEnd s } = w
  have hw_only : OnlyEngine w := by subst hw; exact h.congr rfl rfl rfl
  have hw_sent : w.ch.state = .sent := by subst hw; exact h.sent
  have hw_end : w.now = writeEnd w := by subst hw; rfl
  refine hw_only.moves (chainDueAt_of_sent hw_sent) hw_end (hP w (by subst hw; rfl)) ?_
  rw [chainStep_of_sent hw_sent]
  have hincomplete : frameComplete s.ch.rx = false := by rw [h.rx]; rfl
  have hdone_only : OnlyEngine (writeDone w) := hw_only.congr rfl rfl rfl
  have hdue : chainDueAt (writeDone w) = some (w.now + w.cfg.timeoutMs * 1000) :=
    chainDueAt_of_awaiting rfl (by subst hw; exact hincomplete)
  refine hdone_only.waits hdue (Nat.le_add_right _ _) (hP _ (by subst hw; rfl)) ?_
  have hclosed : OnlyEngine (silentAttempt s) := h.congr rfl rfl rfl
  have hclosed_due : chainDueAt (silentAttempt s) = some (windowEnd s) := chainDueAt_of_awaiting rfl hincomplete
  subst hw
  refine hclosed.moves hclosed_due rfl (hP _ rfl) ?_
  rw [chainStep_of_awaiting rfl]
  exact hrest

/-- No byte was received, so no frame is partial. -/
theorem SilentCall.not_partial (h : SilentCall a s) : ¬ ((silentAttempt s).ch.rx ≠ [] ∧
    (silentAttempt s).cfg.partialFrameOutcome = .checksumMismatch) := not_partialError (.inl h.rx)

/-- The retry is an attempt of the same kind (R203, R208). -/
theorem SilentCall.retried (h : SilentCall a s) : SilentCall a (retryRequest (silentAttempt s)) where
  toOnlyEngine := h.congr rfl rfl rfl
  kind := h.kind
  issuer := h.issuer
  sent := rfl
  rx := rfl
  start := rfl

/-- The Timeout of a call whose last attempt started in `s` (R209, R210). -/
structure CallTimedOut (a : Agent) (s u : State) : Prop where
  now : u.now = windowEnd s
  free : u.ch.op = .none
  state : u.ch.state = .timedOut
  outcome : u.ch.lastOutcome = 0x02#8
  written : u.chp.written = s.chp.written
  responses : u.port.responses = s.port.responses ++ [{ agent := a, time := windowEnd s, bytes := [0x02#8] }]

theorem SilentCall.timedOut (h : SilentCall a s) : CallTimedOut a s (endRequest .timedOut (silentAttempt s)) := by
  generalize hw : ({ silentAttempt s with ch := { (silentAttempt s).ch with state := .timedOut } } : State) = w
  have hend : endRequest .timedOut (silentAttempt s) = finishCall w := by
    rw [endRequest, hw]
    exact requestEnded_of_call (by subst hw; exact h.kind)
  have hissuer : w.ch.issuer = some a := by subst hw; exact h.issuer
  obtain ⟨-, hnow, -, hchp, -, hfree, -, hstate⟩ := finishCall_frame w
  obtain ⟨hlast, hport⟩ := finishCall_answer hissuer
  have hout : outcomeOfState w.ch.state = .timeout := by subst hw; rfl
  rw [hout, callResult_of_failure w (by decide)] at hlast hport
  rw [hend]
  subst hw
  exact {
    now := hnow
    free := hfree
    state := hstate
    outcome := hlast
    written := by rw [hchp]; rfl
    responses := by rw [hport]; rfl }

/-- The last attempt ends the call. -/
theorem SilentCall.last_runs (h : SilentCall a s) (hlast : s.ch.retries ≤ s.ch.attempt) :
    RunsTo (fun v => v.ch.op = s.ch.op) s (endRequest .timedOut (silentAttempt s)) := by
  refine h.attempt_runs (fun _ hv => hv) ?_
  rw [deadlineStep_of_last h.not_partial hlast]
  exact .refl _ _

/-- An attempt before the last one is followed by the next. -/
theorem SilentCall.retry_runs (h : SilentCall a s) (hretry : s.ch.attempt < s.ch.retries)
    (hrest : RunsTo (fun v => v.ch.op = s.ch.op) (retryRequest (silentAttempt s)) u) :
    RunsTo (fun v => v.ch.op = s.ch.op) s u := by
  refine h.attempt_runs (fun _ hv => hv) ?_
  rw [deadlineStep_of_retry h.not_partial hretry]
  exact hrest

end

/-- The acceptance of a call on a free engine puts its first attempt on the wire (R200, R202, R235, R237). -/
theorem call_started {i : Instr} {s t : State} (hcall : isUnitCall i = true) (hfree : s.ch.op = .none)
    (hexec : exec i s = .next t) (hbusy : t.ch.op ≠ .none) :
    ∃ kind index code p, (kind = .send ∨ kind = .readReg ∨ kind = .writeReg) ∧
      t = startRequest index code p s.cfg.retryCount (claimEngine kind s) := by
  cases exec_effect hexec with
  | answer => exact absurd hfree hbusy
  | store hi | transmit hi | toReceiver hi | toController hi | invalidate hi | enumerate hi => subst hi; cases hcall
  | call _ hkind _ _ => exact ⟨_, _, _, _, hkind, rfl⟩
  | wire hwire => cases i <;> cases hwire <;> cases hcall

end Sys2Proof.Machine

namespace Sys2Proof.Proofs

open Sys2Proof.Machine

/-- Settles O45: one silent attempt, or two, then the Timeout. -/
theorem silentUnitTimesOutAtTheBound : Obligations.SilentUnitTimesOutAtTheBound := by
  intro i s t hcall hfree hexec hbusy hquiet hidle hmode hretries
  obtain ⟨kind, index, code, p, hkind, rfl⟩ := call_started hcall hfree hexec hbusy
  generalize ht : startRequest index code p s.cfg.retryCount (claimEngine kind s) = t
  have hfirst : SilentCall s.port.agent t := by subst ht; exact ⟨⟨hquiet, hidle, hmode⟩, hkind, rfl, rfl, rfl, rfl⟩
  have hattempt : t.ch.attempt = 0 ∧ t.ch.retries = s.cfg.retryCount := by subst ht; exact ⟨rfl, rfl⟩
  have hend : windowEnd t = s.now + writeDuration t + s.cfg.timeoutMs * 1000 := by subst ht; rfl
  have hwritten : t.chp.written = s.chp.written ++ [{ time := s.now, frame := t.ch.req }] := by subst ht; rfl
  have hport : t.port = s.port := by subst ht; rfl
  have hcfg : t.cfg = s.cfg := by subst ht; rfl
  dsimp only
  by_cases hnone : s.cfg.retryCount = 0
  · obtain ⟨n, hrun, hbefore⟩ := hfirst.last_runs (by omega)
    have hu := hfirst.timedOut
    have hbound : windowEnd t = s.now + writeDuration t + s.cfg.timeoutMs * 1000 + 0 := hend
    simp only [if_pos hnone, ← hbound]
    exact ⟨n, _, hrun, hu.now, hu.free, hu.state, hu.outcome, by rw [hu.responses, hport], by rw [hu.written, hwritten],
      hbefore⟩
  · generalize hw : retryRequest (silentAttempt t) = w
    have hsecond : SilentCall s.port.agent w := by subst hw; exact hfirst.retried
    have hlast : w.ch.retries ≤ w.ch.attempt := by
      have : w.ch.retries = t.ch.retries ∧ w.ch.attempt = t.ch.attempt + 1 := by subst hw; exact ⟨rfl, rfl⟩
      omega
    have hop : w.ch.op = t.ch.op := by subst hw; rfl
    obtain ⟨n, hrun, hbefore⟩ := hfirst.retry_runs (by omega) (by rw [hw, ← hop]; exact hsecond.last_runs hlast)
    have hu := hsecond.timedOut
    have hbound : windowEnd w = s.now + writeDuration t + s.cfg.timeoutMs * 1000 +
        (writeDuration { t with chp := nextDraw t.chp } + s.cfg.timeoutMs * 1000) := by
      rw [← hend, ← hcfg, ← Nat.add_assoc]
      subst hw
      rfl
    have hwritten_twice : w.chp.written = s.chp.written ++ { time := s.now, frame := t.ch.req } ::
        [{ time := s.now + writeDuration t + s.cfg.timeoutMs * 1000, frame := t.ch.req }] := by
      have hthen : w.chp.written = t.chp.written ++ [{ time := windowEnd t, frame := t.ch.req }] := by subst hw; rfl
      rw [hthen, hwritten, hend, List.append_assoc]
      rfl
    have hport_kept : w.port = s.port := by subst hw; exact hport
    simp only [if_neg hnone, ← hbound]
    exact ⟨n, _, hrun, hu.now, hu.free, hu.state, hu.outcome, by rw [hu.responses, hport_kept],
      by rw [hu.written, hwritten_twice], hbefore⟩

end Sys2Proof.Proofs
end
